-- ==== Sys2Proof/Word.lean ====
section
/-! DEFINITION. The word types of the block and its two floating-point value types (spec 00_scope R10, R11).

A register or sample word is the 32-bit pattern the port carries. A floating-point VALUE inside the datapath is one of
`B32`, `B64`: the binary32 or binary64 numbers, the two infinities, and one NaN. The NaN carries no payload and no sign,
because the spec leaves both unspecified (R12, 93 U-5): a pattern is chosen only where a NaN leaves through the port,
and there it is a free value (`Config.freeNan`). -/

namespace Sys2Proof

/-- A field of a command word. -/
abbrev Byte := BitVec 8

/-- A register or sample word (R10: "Every register and sample word is 32 bits wide"). -/
abbrev Word := BitVec 32

/-- A binary32 value. `fin neg mag` is the finite value whose sign bit is `neg` and whose bits [30:0] are `mag`. -/
inductive B32 where
  | nan
  | inf (neg : Bool)
  | fin (neg : Bool) (mag : Fin 0x7F800000)
  deriving DecidableEq, Repr, Inhabited

/-- A binary64 value. `fin neg mag` is the finite value whose sign bit is `neg` and whose bits [62:0] are `mag`. -/
inductive B64 where
  | nan
  | inf (neg : Bool)
  | fin (neg : Bool) (mag : Fin 0x7FF0000000000000)
  deriving DecidableEq, Repr, Inhabited

/-- The exact +0.0 of binary64. -/
def B64.posZero : B64 := .fin false ⟨0, by decide⟩

end Sys2Proof
end

