-- ==== Sys2Proof/Syntax.lean ====
section
/-! DEFINITION. The commands of the block, one constructor per row of spec/opcode_table.json (spec 30_encoding R302,
R304), and the reasons a command word is illegal (R307). -/

namespace Sys2Proof

/-- A command with the operand fields of its own word (R302). Operands in ARG0..2 and PAYLOAD are state, read when
the command starts (R303). -/
inductive Instr where
  /-- NOP (R400). -/
  | nop
  /-- PROCESS (R517). -/
  | process
  /-- RESET (R405). -/
  | reset
  /-- SET_ENABLED (R410), `en = CMD[7:0]`. -/
  | setEnabled (en : Byte)
  /-- SET_FREQ (R606), `b = CMD[23:16]`. -/
  | setFreq (b : Byte)
  /-- SET_GAIN (R607), `b = CMD[23:16]`. -/
  | setGain (b : Byte)
  /-- SET_Q (R608), `b = CMD[23:16]`. -/
  | setQ (b : Byte)
  /-- UPDATE_PARAMS (R609), `tag = CMD[7:0]`. -/
  | updateParams (tag : Byte)
  deriving DecidableEq, Repr

/-- Why a word is no command: the five bullets of R307. -/
inductive IllegalReason where
  /-- An OPC value outside the opcode map of R304. -/
  | reservedOpcode
  /-- `w[15:8]` is not 0. -/
  | reservedField
  /-- A non-zero BAND field on an opcode that does not use it. -/
  | bandField
  /-- A non-zero IMM8 field on an opcode that does not use it. -/
  | immField
  /-- SET_ENABLED with IMM8 > 1. -/
  | enableValue
  deriving DecidableEq, Repr

/-- What a command word decodes to (R306). -/
inductive Decoded where
  | command (i : Instr)
  | illegal (r : IllegalReason)
  deriving DecidableEq, Repr

/-- The fields of a command word, format F0 (R301). -/
structure Fields where
  opc : Byte
  band : Byte
  rsv : Byte
  imm8 : Byte
  deriving DecidableEq, Repr

end Sys2Proof
end

