-- ==== Sys2Proof/WellFormed.lean ====
section
/-! DEFINITION. Which commands a word can encode: the operand limits of spec 30_encoding R302. Band indices and payload
tags are free bytes: a band that does not exist and a tag that is not accepted are rejected by the command's own checks
(R307, last paragraph), not by the encoding. -/

namespace Sys2Proof

/-- `en ∈ {0, 1}` (R302); every other operand field is unrestricted. -/
def Instr.wellFormed : Instr → Bool
  | .setEnabled en => decide (en.toNat ≤ 1)
  | .nop | .process | .reset | .setFreq _ | .setGain _ | .setQ _ | .updateParams _ => true

end Sys2Proof
end

