-- ==== Sys2Proof/Decode.lean ====
section
/-! DEFINITION. The decoder and the encoder of command words (spec 30_encoding R301, R304–R307), and the decoder as the
opcode table numbers its bits. Every word is one 32-bit command or is illegal by name; there is no other length (R309). -/

namespace Sys2Proof

/-- OPC values of the opcode map (R304). -/
def opcNop : Byte := 0x00
def opcProcess : Byte := 0x01
def opcReset : Byte := 0x02
def opcSetEnabled : Byte := 0x03
def opcSetFreq : Byte := 0x10
def opcSetGain : Byte := 0x11
def opcSetQ : Byte := 0x12
def opcUpdateParams : Byte := 0x20

/-- The fields of a word: OPC[31:24], BAND[23:16], RSV[15:8], IMM8[7:0] (R301). -/
def fieldsOf (w : Word) : Fields where
  opc := w.extractLsb' 24 8
  band := w.extractLsb' 16 8
  rsv := w.extractLsb' 8 8
  imm8 := w.extractLsb' 0 8

/-- The word with the given fields (R301). -/
def wordOf (f : Fields) : Word := f.opc ++ f.band ++ f.rsv ++ f.imm8

/-- Decoding by fields, the reserved field first (R306, R307). -/
def decodeFields (f : Fields) : Decoded :=
  if f.rsv ≠ 0 then .illegal .reservedField
  else if f.opc = opcNop then plain f .nop
  else if f.opc = opcProcess then plain f .process
  else if f.opc = opcReset then plain f .reset
  else if f.opc = opcSetEnabled then
    if f.band ≠ 0 then .illegal .bandField
    else if f.imm8.toNat ≤ 1 then .command (.setEnabled f.imm8) else .illegal .enableValue
  else if f.opc = opcSetFreq then banded f .setFreq
  else if f.opc = opcSetGain then banded f .setGain
  else if f.opc = opcSetQ then banded f .setQ
  else if f.opc = opcUpdateParams then
    if f.band ≠ 0 then .illegal .bandField else .command (.updateParams f.imm8)
  else .illegal .reservedOpcode
where
  /-- A command that uses neither BAND nor IMM8. -/
  plain (f : Fields) (i : Instr) : Decoded :=
    if f.band ≠ 0 then .illegal .bandField
    else if f.imm8 ≠ 0 then .illegal .immField else .command i
  /-- A command that uses BAND and not IMM8. -/
  banded (f : Fields) (mk : Byte → Instr) : Decoded :=
    if f.imm8 ≠ 0 then .illegal .immField else .command (mk f.band)

/-- Decoding of a command word (R306). -/
def decode (w : Word) : Decoded := decodeFields (fieldsOf w)

/-- The OPC of a command (R304). -/
def opcodeOf : Instr → Byte
  | .nop => opcNop
  | .process => opcProcess
  | .reset => opcReset
  | .setEnabled _ => opcSetEnabled
  | .setFreq _ => opcSetFreq
  | .setGain _ => opcSetGain
  | .setQ _ => opcSetQ
  | .updateParams _ => opcUpdateParams

/-- The fields of a command's word (R302). -/
def encodeFields : Instr → Fields
  | .nop => ⟨opcNop, 0, 0, 0⟩
  | .process => ⟨opcProcess, 0, 0, 0⟩
  | .reset => ⟨opcReset, 0, 0, 0⟩
  | .setEnabled en => ⟨opcSetEnabled, 0, 0, en⟩
  | .setFreq b => ⟨opcSetFreq, b, 0, 0⟩
  | .setGain b => ⟨opcSetGain, b, 0, 0⟩
  | .setQ b => ⟨opcSetQ, b, 0, 0⟩
  | .updateParams tag => ⟨opcUpdateParams, 0, 0, tag⟩

/-- The word of a command (R301, R302). -/
def encode (i : Instr) : Word := wordOf (encodeFields i)

/-- The `mask` column of R305 for a command's row. -/
def rowMask : Instr → Word
  | .nop | .process | .reset => 0xFFFFFFFF
  | .setEnabled _ => 0xFFFFFFFE
  | .setFreq _ | .setGain _ | .setQ _ => 0xFF00FFFF
  | .updateParams _ => 0xFFFFFF00

/-- The `match` column of R305 for a command's row. -/
def rowPattern : Instr → Word
  | .nop => 0x00000000
  | .process => 0x01000000
  | .reset => 0x02000000
  | .setEnabled _ => 0x03000000
  | .setFreq _ => 0x10000000
  | .setGain _ => 0x11000000
  | .setQ _ => 0x12000000
  | .updateParams _ => 0x20000000

/-- The eight rows of R305 as (mask, match) pairs, in the table's order. -/
def patternRows : List (Word × Word) :=
  [(0xFFFFFFFF, 0x00000000), (0xFFFFFFFF, 0x01000000), (0xFFFFFFFF, 0x02000000), (0xFFFFFFFE, 0x03000000),
   (0xFF00FFFF, 0x10000000), (0xFF00FFFF, 0x11000000), (0xFF00FFFF, 0x12000000), (0xFFFFFF00, 0x20000000)]

/-- The command the decoder reads from a word whose lowest `nbits` bits are those of `w`, numbered as
spec/opcode_table.json numbers them, every higher bit 0. -/
def tableWord (nbits w : Nat) : Word := BitVec.ofNat 32 (w % 2 ^ nbits)

/-- `decode` on the opcode table's numbering of a row's bits; none where the decoder refuses the word. -/
def decodeTableWord (nbits w : Nat) : Option Instr :=
  match decode (tableWord nbits w) with
  | .command i => some i
  | .illegal _ => none

end Sys2Proof
end

