-- ==== Sys2Proof/Machine/Data.lean ====
section
/-! DEFINITION. The data types State and the datapath are made of: construction parameters, the band file, the filter
state, coefficients, result codes, control registers and host events (spec 00_scope R3, R8, R16; 10_state R103, R118,
R121, R127; 20_memory R200, R204; 41_process R503, R505, R509; 60_exceptions R700). -/

namespace Sys2Proof.Machine

/-- EQ_KIND (R3). -/
inductive EqKind where
  | parametric
  | graphic10
  | graphic31
  deriving DecidableEq, Repr

/-- The construction parameters that the model holds beside the state (R8, log entry 1). -/
structure Params where
  kind : EqKind
  sampleMemWords : Nat
  deriving DecidableEq, Repr

/-- TYPE[b] (R121). -/
inductive BandType where
  | peaking
  | lowShelf
  | highShelf
  deriving DecidableEq, Repr

/-- One band's stored parameters, each a binary32 pattern (R118). -/
structure Band where
  freq : Word
  gain : Word
  q : Word
  deriving DecidableEq, Repr

/-- `S[c][b]`: the last two inputs and the last two flushed outputs of a stage (R127). -/
structure StageState where
  x1 : B64
  x2 : B64
  y1 : B64
  y2 : B64
  deriving DecidableEq, Repr

/-- `(+0.0, +0.0, +0.0, +0.0)`, the cleared stage state (R127, R405, R518). -/
def StageState.zero : StageState := ⟨.posZero, .posZero, .posZero, .posZero⟩

/-- The two lanes (R4, R515). -/
inductive Channel where
  | left
  | right
  deriving DecidableEq, Repr

/-- A band's raw coefficients, before normalisation (R505, R507, R508). -/
structure RawCoeffs where
  b0 : B64
  b1 : B64
  b2 : B64
  a0 : B64
  a1 : B64
  a2 : B64
  deriving DecidableEq, Repr

/-- A band's normalised coefficients (R509). -/
structure Coeffs where
  c0 : B64
  c1 : B64
  c2 : B64
  c3 : B64
  c4 : B64
  deriving DecidableEq, Repr

/-- The three functions of R503 that an instance is constructed with. No field of State has this type. -/
structure Libm where
  sin64 : B64 → B64
  cos64 : B64 → B64
  pow10 : B64 → B64

/-- The result codes of R700. -/
inductive ResultCode where
  | ok
  | illegal
  | badBand
  | notWritable
  | badValue
  | badKind
  | badRate
  | badLength
  | badRange
  deriving DecidableEq, Repr

/-- What a control offset names (R103). `band b` is not yet known to exist: R119 gives bands ≥ NBANDS the value 0. -/
inductive CtlReg where
  | id
  | info
  | status
  | result
  | activeRate
  | cmd
  | arg0
  | arg1
  | arg2
  | payload (i : Fin 32)
  | bandFreq (b : Fin 32)
  | bandGain (b : Fin 32)
  | bandQ (b : Fin 32)
  | bandType (b : Fin 32)
  | reserved
  deriving DecidableEq, Repr

/-- The two host agents (R16). -/
inductive Agent where
  | audio
  | control
  deriving DecidableEq, Repr

/-- The two address spaces (R200). -/
inductive Space where
  | control
  | sample
  deriving DecidableEq, Repr

/-- The size of a host access; only `word` is admitted (R204). -/
inductive AccessSize where
  | byte
  | half
  | word
  deriving DecidableEq, Repr

/-- A read, or a write of a word. -/
inductive AccessOp where
  | read
  | write (data : Word)
  deriving DecidableEq, Repr

/-- One host access to the port: the byte offset is within the access's space (R200, R204, R210). -/
structure Access where
  agent : Agent
  space : Space
  offset : Nat
  size : AccessSize
  op : AccessOp
  deriving DecidableEq, Repr

/-- What the outside world can do to the block: an access of the serialised order (R220), or hardware reset (R800). -/
inductive HostEvent where
  | access (a : Access)
  | hardwareReset
  deriving DecidableEq, Repr

/-- The answer of `info()` (R111, 92 D26): the INFO word and the strings that stay host-side. -/
structure InfoRecord where
  word : Word
  id : String
  name : String
  description : String
  deriving DecidableEq, Repr

end Sys2Proof.Machine
end

