-- ==== Sys2Proof/Machine/Float.lean ====
section
/-! DEFINITION. IEEE 754 arithmetic on binary64 values with roundTiesToEven, the conversions between the two formats and
their bit patterns, and the IEEE comparisons (spec 00_scope R12, R15; 41_process R516, R526; log entry 13). Every operation computes
its exact result as an integer times a power of two (with a sticky flag where a quotient or a root is cut off) and
rounds once. -/

namespace Sys2Proof.Machine

/-- A binary interchange format: fraction bits, the exponent of its least ulp, and the first magnitude pattern that is
no finite value. -/
structure Format where
  fracBits : Nat
  minExp : Int
  magBound : Nat
  deriving DecidableEq, Repr

/-- binary64. -/
def fmt64 : Format := ⟨52, -1074, 0x7FF0000000000000⟩

/-- binary32. -/
def fmt32 : Format := ⟨23, -149, 0x7F800000⟩

/-- The integer significand of the finite value with magnitude pattern `mag`. -/
def sigOf (f : Format) (mag : Nat) : Nat :=
  if mag < 2 ^ f.fracBits then mag else 2 ^ f.fracBits + mag % 2 ^ f.fracBits

/-- The exponent of that significand's unit: the value is `sigOf f mag * 2 ^ expOf f mag`. -/
def expOf (f : Format) (mag : Nat) : Int :=
  if mag < 2 ^ f.fracBits then f.minExp else ((mag / 2 ^ f.fracBits : Nat) : Int) + f.minExp - 1

/-- `n / 2^d` rounded to nearest, ties to even, where `sticky` says that the exact value lies strictly above `n`. -/
def roundShift (n d : Nat) (sticky : Bool) : Nat :=
  let m := n / 2 ^ d
  let r := n % 2 ^ d
  let half := 2 ^ (d - 1)
  if half < r ∨ (r = half ∧ (sticky = true ∨ m % 2 = 1)) then m + 1 else m

/-- The magnitude pattern, before the overflow check, of `n * 2^e` rounded to the format. `sticky` says that the exact value
lies strictly between `n * 2^e` and `(n + 1) * 2^e`. A carry out of the significand moves to the next exponent by
itself, because magnitude patterns count the finite values in order. -/
def roundMag (f : Format) (n : Nat) (e : Int) (sticky : Bool) : Nat :=
  if n = 0 then 0
  else
    let t := max f.minExp ((Nat.log2 n : Int) + e - f.fracBits)
    let m := if t ≤ e then n * 2 ^ (e - t).toNat else roundShift n (t - e).toNat sticky
    (t - f.minExp).toNat * 2 ^ f.fracBits + m

/-- The binary64 value of a magnitude pattern; patterns beyond the finite ones are infinite (roundTiesToEven overflow). -/
def ofMag64 (neg : Bool) (m : Nat) : B64 :=
  if h : m < 0x7FF0000000000000 then .fin neg ⟨m, h⟩ else .inf neg

/-- The binary32 value of a magnitude pattern. -/
def ofMag32 (neg : Bool) (m : Nat) : B32 :=
  if h : m < 0x7F800000 then .fin neg ⟨m, h⟩ else .inf neg

/-- `±n * 2^e` (plus a sticky part) rounded to binary64. -/
def round64 (neg : Bool) (n : Nat) (e : Int) (sticky : Bool) : B64 := ofMag64 neg (roundMag fmt64 n e sticky)

/-- A signed zero. -/
def zero64 (neg : Bool) : B64 := .fin neg ⟨0, by decide⟩

/-- The value of a binary64 bit pattern. -/
def ofBits64 (b : BitVec 64) : B64 :=
  let m := b.toNat % 2 ^ 63
  let neg := decide (2 ^ 63 ≤ b.toNat)
  if h : m < 0x7FF0000000000000 then .fin neg ⟨m, h⟩
  else if m = 0x7FF0000000000000 then .inf neg else .nan

/-- `f32(w)` (R12). -/
def ofBits32 (w : Word) : B32 :=
  let m := w.toNat % 2 ^ 31
  let neg := decide (2 ^ 31 ≤ w.toNat)
  if h : m < 0x7F800000 then .fin neg ⟨m, h⟩
  else if m = 0x7F800000 then .inf neg else .nan

/-- The pattern with sign bit `neg` and bits [30:0] `m`. -/
def signedBits32 (neg : Bool) (m : Nat) : Word := BitVec.ofNat 32 ((if neg then 2 ^ 31 else 0) + m)

/-- `bits32(v)` (R12), where `nanBits` is the pattern a NaN leaves with. -/
def toBits32 (nanBits : Word) : B32 → Word
  | .nan => nanBits
  | .inf neg => signedBits32 neg 0x7F800000
  | .fin neg mag => signedBits32 neg mag.val

/-- `isNaN` of a word's binary32 value. -/
def isNan32 (w : Word) : Bool := decide (ofBits32 w = .nan)

/-- `f64(v)`: exact widening (R12). -/
def widen : B32 → B64
  | .nan => .nan
  | .inf neg => .inf neg
  | .fin neg mag => round64 neg (sigOf fmt32 mag.val) (expOf fmt32 mag.val) false

/-- `r32(v)`: rounding to binary32 (R12, R516). -/
def narrow : B64 → B32
  | .nan => .nan
  | .inf neg => .inf neg
  | .fin neg mag => ofMag32 neg (roundMag fmt32 (sigOf fmt64 mag.val) (expOf fmt64 mag.val) false)

/-- `f64(n)` of an unsigned integer. -/
def ofNat64 (n : Nat) : B64 := round64 false n 0 false

/-- Negation: the sign bit flipped, NaN kept. -/
def neg64 : B64 → B64
  | .nan => .nan
  | .inf neg => .inf !neg
  | .fin neg mag => .fin (!neg) mag

/-- `abs(v)`: the sign bit cleared (R12). -/
def abs64 : B64 → B64
  | .nan => .nan
  | .inf _ => .inf false
  | .fin _ mag => .fin false mag

/-- A signed integer. -/
def signed (neg : Bool) (n : Nat) : Int := if neg then -(n : Int) else n

/-- The sum of two finite values. An exact zero is +0.0 unless both operands are negative zeros. -/
def addFin (na : Bool) (ma : Nat) (nb : Bool) (mb : Nat) : B64 :=
  let ea := expOf fmt64 ma
  let eb := expOf fmt64 mb
  let e := min ea eb
  let x := signed na (sigOf fmt64 ma * 2 ^ (ea - e).toNat) + signed nb (sigOf fmt64 mb * 2 ^ (eb - e).toNat)
  if x = 0 then zero64 (na && nb) else round64 (decide (x < 0)) x.natAbs e false

/-- `a + b`. -/
def add64 : B64 → B64 → B64
  | .nan, _ => .nan
  | .inf _, .nan => .nan
  | .fin _ _, .nan => .nan
  | .inf na, .inf nb => if na = nb then .inf na else .nan
  | .inf na, .fin _ _ => .inf na
  | .fin _ _, .inf nb => .inf nb
  | .fin na ma, .fin nb mb => addFin na ma.val nb mb.val

/-- `a - b`. -/
def sub64 (a b : B64) : B64 := add64 a (neg64 b)

/-- The product of two finite values. -/
def mulFin (na : Bool) (ma : Nat) (nb : Bool) (mb : Nat) : B64 :=
  round64 (na ^^ nb) (sigOf fmt64 ma * sigOf fmt64 mb) (expOf fmt64 ma + expOf fmt64 mb) false

/-- `a * b`; zero times infinity is NaN. -/
def mul64 : B64 → B64 → B64
  | .nan, _ => .nan
  | .inf _, .nan => .nan
  | .fin _ _, .nan => .nan
  | .inf na, .inf nb => .inf (na ^^ nb)
  | .inf na, .fin nb mb => if mb.val = 0 then .nan else .inf (na ^^ nb)
  | .fin na ma, .inf nb => if ma.val = 0 then .nan else .inf (na ^^ nb)
  | .fin na ma, .fin nb mb => mulFin na ma.val nb mb.val

/-- The quotient of two finite values; 0/0 is NaN and x/0 infinite. The dividend is scaled so that the integer quotient
has at least 55 bits, and the remainder is the sticky flag. -/
def divFin (na : Bool) (ma : Nat) (nb : Bool) (mb : Nat) : B64 :=
  if mb = 0 then (if ma = 0 then .nan else .inf (na ^^ nb))
  else
    let n := sigOf fmt64 ma * 2 ^ 108
    let d := sigOf fmt64 mb
    round64 (na ^^ nb) (n / d) (expOf fmt64 ma - expOf fmt64 mb - 108) (decide (n % d ≠ 0))

/-- `a / b`. -/
def div64 : B64 → B64 → B64
  | .nan, _ => .nan
  | .inf _, .nan => .nan
  | .fin _ _, .nan => .nan
  | .inf _, .inf _ => .nan
  | .inf na, .fin nb _ => .inf (na ^^ nb)
  | .fin na _, .inf nb => zero64 (na ^^ nb)
  | .fin na ma, .fin nb mb => divFin na ma.val nb mb.val

/-- The bits of the integer square root of `n` below bit `k`, added to `r` from the top. -/
def isqrtFrom (n : Nat) : Nat → Nat → Nat
  | 0, r => r
  | k + 1, r => isqrtFrom n k (if (r + 2 ^ k) * (r + 2 ^ k) ≤ n then r + 2 ^ k else r)

/-- The integer square root of a number below `2^166`. -/
def isqrt (n : Nat) : Nat := isqrtFrom n 83 0

/-- `sqrt(a)`: a zero is kept with its sign, any other negative value gives NaN. The significand is scaled to an even
exponent and at least 110 bits, and an inexact root is the sticky flag. -/
def sqrt64 : B64 → B64
  | .nan => .nan
  | .inf neg => if neg then .nan else .inf false
  | .fin neg mag =>
    if mag.val = 0 then .fin neg mag
    else if neg then .nan
    else
      let e := expOf fmt64 mag.val
      let k : Nat := if e % 2 = 0 then 110 else 111
      let n := sigOf fmt64 mag.val * 2 ^ k
      let r := isqrt n
      round64 false r ((e - k) / 2) (decide (r * r ≠ n))

/-- The position of a non-NaN binary64 value in the order of the reals, both zeros at 0. -/
def key64 : B64 → Int
  | .nan => 0
  | .inf neg => signed neg 0x7FF0000000000000
  | .fin neg mag => signed neg mag.val

/-- The position of a non-NaN binary32 value in the order of the reals. -/
def key32 : B32 → Int
  | .nan => 0
  | .inf neg => signed neg 0x7F800000
  | .fin neg mag => signed neg mag.val

/-- `a < b`, false with a NaN (R12). -/
def lt64 (a b : B64) : Bool := decide (a ≠ .nan ∧ b ≠ .nan ∧ key64 a < key64 b)

/-- `a < b` on binary32, false with a NaN (R12). -/
def lt32 (a b : B32) : Bool := decide (a ≠ .nan ∧ b ≠ .nan ∧ key32 a < key32 b)

/-- IEEE equality: the same number, the two zeros equal, false with a NaN. -/
def eq64 (a b : B64) : Bool := decide (a ≠ .nan ∧ b ≠ .nan ∧ key64 a = key64 b)

/-- `clamp(v, lo, hi)` on binary32 patterns (R15): a value equal to a bound, and -0.0 within range, are returned
unchanged. -/
def clamp32 (v lo hi : Word) : Word :=
  if lt32 (ofBits32 v) (ofBits32 lo) then lo else if lt32 (ofBits32 hi) (ofBits32 v) then hi else v

/-- The fraction of the NaN encoding taken from a word: the word's own, the quiet bit where that is 0. -/
def nanFraction (r : Word) : Nat := if r.toNat % 2 ^ 23 = 0 then 2 ^ 22 else r.toNat % 2 ^ 23

/-- The NaN encoding taken from a word: its sign, and a fraction that is not 0. Every NaN encoding is its own. -/
def nanPattern (r : Word) : Word := signedBits32 (decide (2 ^ 31 ≤ r.toNat)) (0x7F800000 + nanFraction r)

end Sys2Proof.Machine
end

