-- ==== Sys2Proof/Machine/Constants.lean ====
section
/-! DEFINITION. The values fixed for every instance (spec 00_scope R9; 10_state R110, R111, R121; 41_process R501, R502,
R506, R512), as bit patterns, and what EQ_KIND fixes (R3). -/

namespace Sys2Proof.Machine

/-- NBANDS (R3). -/
def nbands : EqKind → Nat
  | .parametric => 3
  | .graphic10 => 10
  | .graphic31 => 31

/-- The kind code, INFO.KIND (R3, R111). -/
def kindCode : EqKind → Nat
  | .parametric => 0
  | .graphic10 => 1
  | .graphic31 => 2

/-- TYPE[b] for `b < NBANDS` (R121). -/
def bandType : EqKind → Nat → BandType
  | .parametric, 0 => .lowShelf
  | .parametric, 1 => .peaking
  | .parametric, _ => .highShelf
  | .graphic10, _ => .peaking
  | .graphic31, _ => .peaking

/-- The TYPE codes: 0 PEAKING, 1 LOW_SHELF, 2 HIGH_SHELF (R121). -/
def bandTypeCode : BandType → Word
  | .peaking => 0
  | .lowShelf => 1
  | .highShelf => 2

/-- NCH (R9). -/
def nch : Nat := 2

/-- The ID register's constant (R110). -/
def idWord : Word := 0x42514551

/-- The INFO register by kind: KIND[1:0], NBANDS[15:8], NCH[19:16], SUPPORTS_IN_PLACE_UPDATE[20] = 1 (R111, R613). -/
def infoWord (k : EqKind) : Word :=
  BitVec.ofNat 32 (kindCode k + nbands k * 2 ^ 8 + nch * 2 ^ 16 + 2 ^ 20)

/-- -12.0 dB (R9). -/
def gainMin : Word := 0xC1400000

/-- +12.0 dB (R9). -/
def gainMax : Word := 0x41400000

/-- Q_MIN, the binary32 nearest 0.1 (R9). -/
def qMin : Word := 0x3DCCCCCD

/-- Q_MAX = 10.0 (R9). -/
def qMax : Word := 0x41200000

/-- F_MIN = 10.0 Hz (R9). -/
def fMin : Word := 0x41200000

/-- F_MAX = 500000.0 Hz (R9). -/
def fMax : Word := 0x48F42400

/-- The highest sample rate (R9). -/
def maxRate : Nat := 1000000

/-- The least and the greatest SAMPLE_MEM_WORDS (R8). -/
def minSampleMemWords : Nat := 4096
def maxSampleMemWords : Nat := 2 ^ 30

/-- The byte size of the control space (R103). -/
def ctlBytes : Nat := 0x400

/-- NYQ_FRAC, the binary64 nearest 0.45 (R9). -/
def nyqFrac : B64 := ofBits64 0x3FDCCCCCCCCCCCCD

/-- PI64, the binary64 nearest pi (R502). -/
def pi64 : B64 := ofBits64 0x400921FB54442D18

/-- SQRT2_64 (R506). -/
def sqrt2 : B64 := ofBits64 0x3FF6A09E667F3BCD

/-- FLUSH_T, the binary64 nearest 1.0e-15 (R9; its pattern in 95 V-S2). -/
def flushT : B64 := ofBits64 0x3CD203AF9EE75616

/-- 1.0, 2.0, -2.0 and 40.0 in binary64. -/
def one64 : B64 := ofBits64 0x3FF0000000000000
def two64 : B64 := ofBits64 0x4000000000000000
def minusTwo64 : B64 := ofBits64 0xC000000000000000
def forty64 : B64 := ofBits64 0x4044000000000000

end Sys2Proof.Machine
end

