-- ==== Sys2Proof/Machine/R503.lean ====
section
/-! DEFINITION. What 41_process R503 asks of `Sin64`, `Cos64` and `Pow10_64`: the domains, the real value of a binary64, and the
properties (a) to (d). The instance's functions (`Machine.libm`) are of the type of those that have them all. -/

namespace Sys2Proof.Machine

/-! ### Values -/

/-- The rational value of a finite binary64; 0 for the others. -/
def ratOf : B64 → ℚ
  | .nan => 0
  | .inf _ => 0
  | .fin neg mag => (signed neg (sigOf fmt64 mag.val) : ℚ) * (2 : ℚ) ^ expOf fmt64 mag.val

/-- The rational value of a finite binary32; 0 for the others. -/
def ratOf32 : B32 → ℚ
  | .nan => 0
  | .inf _ => 0
  | .fin neg mag => (signed neg (sigOf fmt32 mag.val) : ℚ) * (2 : ℚ) ^ expOf fmt32 mag.val

/-- A finite value: neither NaN nor infinite. -/
def isFinite64 : B64 → Bool
  | .nan => false
  | .inf _ => false
  | .fin _ _ => true

/-! ### The domains, and ranges that follow on them -/

/-- The greatest binary64 not above `0.9·π·(1 + 2^-50)` (R503 b). -/
def angleMax : B64 := ofBits64 0x40069E9565708F01

/-- `0 < w0 ≤ 0.9·π·(1 + 2^-50)` (R503 b). -/
def angleInDomain (w : B64) : Bool := lt64 .posZero w && (lt64 w angleMax || eq64 w angleMax)

/-- `1 + 2^-52`: within one ulp of a sine, which is at most 1 (R503 d). -/
def sineMax : B64 := ofBits64 0x3FF0000000000001

/-- `Sin64(w0) > 0` (R503 b), and at most one ulp above 1 (R503 d). -/
def sineInRange (r : B64) : Bool := lt64 .posZero r && (lt64 r sineMax || eq64 r sineMax)

/-- `−1 < Cos64(w0) < 1` (R503 b). -/
def cosineInRange (r : B64) : Bool := lt64 (neg64 one64) r && lt64 r one64

/-- The binary64 nearest 0.3, the greatest one not above 0.3 (R503 c). -/
def exponentMax : B64 := ofBits64 0x3FD3333333333333

/-- `−0.3 ≤ x ≤ 0.3` (R503 c). -/
def exponentInDomain (x : B64) : Bool := !lt64 exponentMax (abs64 x) && decide (x ≠ .nan)

/-- `A ∈ [0.501, 1.996]` (R504, from R503 c and d). -/
def amplitudeInRange (r : B64) : Bool :=
  !lt64 r (ofBits64 0x3FE0083126E978D5) && !lt64 (ofBits64 0x3FFFEF9DB22D0E56) r && decide (r ≠ .nan)

/-! ### The properties -/

/-- `y` is within one unit in the last place of the real `r`: the unit is `2^t` for the greatest `t` with
`2^(t+52) ≤ |r|`, never below the subnormal unit `2^-1074` (R503 d). -/
def withinUlp (y : B64) (r : ℝ) : Prop :=
  isFinite64 y = true ∧
    ∃ t : ℤ, -1074 ≤ t ∧ (t = -1074 ∨ (2 : ℝ) ^ (t + 52) ≤ |r|) ∧ |((ratOf y : ℚ) : ℝ) - r| ≤ (2 : ℝ) ^ t

/-- What the design needs of the functions: (a) and (b) of R503, and the ranges that (d) gives, a sine of at most `1 + 2^-52` and
R504's range in place of (c)'s "finite and positive". -/
structure MeetsR503abc (lm : Libm) : Prop where
  /-- (a) -/
  powOfZero : ∀ neg, lm.pow10 (zero64 neg) = one64
  /-- (b), (d) -/
  sine : ∀ w, angleInDomain w = true → sineInRange (lm.sin64 w) = true
  /-- (b) -/
  cosine : ∀ w, angleInDomain w = true → cosineInRange (lm.cos64 w) = true
  /-- (c), R504 -/
  power : ∀ x, exponentInDomain x = true → amplitudeInRange (lm.pow10 x) = true

/-- R503 in full, (d) included, in the rule's own words: `Sin64(w0) > 0`, `−1 < Cos64(w0) < 1`, `Pow10_64(x)` finite and
positive, each within one unit in the last place of the exact function. -/
structure MeetsR503 (lm : Libm) : Prop where
  /-- (a) -/
  powOfZero : ∀ neg, lm.pow10 (zero64 neg) = one64
  /-- (b), (d) -/
  sine : ∀ w, angleInDomain w = true →
    0 < ratOf (lm.sin64 w) ∧ withinUlp (lm.sin64 w) (Real.sin ((ratOf w : ℚ) : ℝ))
  /-- (b), (d) -/
  cosine : ∀ w, angleInDomain w = true →
    -1 < ratOf (lm.cos64 w) ∧ ratOf (lm.cos64 w) < 1 ∧ withinUlp (lm.cos64 w) (Real.cos ((ratOf w : ℚ) : ℝ))
  /-- (c), (d) -/
  power : ∀ x, exponentInDomain x = true →
    0 < ratOf (lm.pow10 x) ∧ withinUlp (lm.pow10 x) ((10 : ℝ) ^ ((ratOf x : ℚ) : ℝ))

end Sys2Proof.Machine
end

