-- ==== Sys2Proof/Config.lean ====
section
/-! DEFINITION. What an instance's construction or the hardware fixes and the spec leaves open: opaque constants without
a body, so that no proof can know their values (spec 00_scope R8, 41_process R503, 93 U-1, U-5, I-10). EQ_KIND and
SAMPLE_MEM_WORDS, the other two construction parameters, are held in the state (log entry 1). -/

namespace Sys2Proof.Config

/-- The three functions the instance is constructed with: any that have the properties of R503, (d) included. Lean asks for a
member of the type before it declares a constant of it; `Machine.libm` hands one over, and nothing relates the two. -/
opaque libm [Inhabited { lm : Machine.Libm // Machine.MeetsR503 lm }] : { lm : Machine.Libm // Machine.MeetsR503 lm }

/-- Free value: the word from which the `n`th NaN leaving through the port takes its sign and fraction (R12, R516,
R526, 93 U-5). `Machine.nanPattern` turns any word into a NaN encoding. -/
opaque freeNan : Nat → Word

/-- INFO_ID, host-side metadata (R8, 92 D26). -/
opaque infoId : String

/-- INFO_NAME, host-side metadata (R8, 92 D26). -/
opaque infoName : String

/-- INFO_DESCRIPTION, host-side metadata (R8, 92 D26). -/
opaque infoDescription : String

end Sys2Proof.Config
end

