-- ==== Sys2Proof/Machine/ResetValues.lean ====
section
/-! DEFINITION. The reset values of the band file by kind (spec 10_state R122, R123, R124) and the construction
parameters of `State.reset` (log entry 1). -/

namespace Sys2Proof.Machine

/-- R122. -/
def parametricBands : List Band :=
  [⟨0x42C80000, 0, 0x3F34FDF4⟩, ⟨0x447A0000, 0, 0x3F800000⟩, ⟨0x461C4000, 0, 0x3F34FDF4⟩]

/-- The binary32 pattern of `n / 2`, exact for the ISO centres (halves below 2^24). -/
def halves (n : Nat) : Word := toBits32 0 (ofMag32 false (roundMag fmt32 n (-1) false))

/-- The octave centres of R123, in half hertz: 31.5 to 16000 Hz. -/
def octaveHalfHz : List Nat := [63, 126, 250, 500, 1000, 2000, 4000, 8000, 16000, 32000]

/-- The one-third-octave centres of R124, in half hertz: 20 to 20000 Hz. -/
def thirdOctaveHalfHz : List Nat :=
  [40, 50, 63, 80, 100, 126, 160, 200, 250, 320, 400, 500, 630, 800, 1000, 1260, 1600, 2000, 2500, 3200, 4000, 5000,
   6300, 8000, 10000, 12600, 16000, 20000, 25000, 32000, 40000]

/-- The reset band file of a kind (R122, R123, R124). -/
def resetBands : EqKind → List Band
  | .parametric => parametricBands
  | .graphic10 => octaveHalfHz.map fun n => ⟨halves n, 0, 0x3FB504F3⟩
  | .graphic31 => thirdOctaveHalfHz.map fun n => ⟨halves n, 0, 0x408A30EE⟩

/-- The cleared filter state of one lane (R127, R405). -/
def zeroLane (k : EqKind) : List StageState := List.replicate (nbands k) StageState.zero

/-- The construction parameters of `State.reset` (DESIGN CHOICE, log entry 1): the spec leaves both to the builder, the
kind is the source's first and the size is the one of 95_test_vectors. Every other kind and size is a state of
`State.resetWith`. -/
def defaultParams : Params := ⟨.parametric, 8192⟩

/-- The parameters R8 admits. -/
def Params.valid (p : Params) : Bool :=
  decide (minSampleMemWords ≤ p.sampleMemWords ∧ p.sampleMemWords ≤ maxSampleMemWords)

end Sys2Proof.Machine
end

