-- ==== Sys2Proof/Machine/State.lean ====
section
/-! DEFINITION. The state of one instance (spec 10_state R100–R130), what stops the model (60_exceptions R710), and the
state after hardware reset (R130, 70_reset_and_hazards R800). -/

namespace Sys2Proof.Machine

/-- What the spec has stop a model (R710). -/
inductive Fault where
  /-- BUS_FAULT: raised by a host access that R204 does not admit (`performAccess`); no command raises it. Safe:
  hardware gives a bus error, changes no state and goes on. -/
  | busFault
  /-- UNWRITTEN_READ: raised by a host read (`performAccess`) or a PROCESS read (`sampleStep`) of a sample word never
  written since reset (R207). Safe: hardware goes on with an unspecified word. -/
  | unwrittenRead
  deriving DecidableEq, Repr

/-- Why an instruction has no meaning in this model. -/
inductive Refusal where
  /-- Raised only by an arm of `exec` for an instruction without a meaning; no arm is left so. Safe. -/
  | notModelled (mnemonic : String)
  /-- Raised by a host's write of ARG0..2 or PAYLOAD inside the other agent's argument sequence (`performAccess`): a model
  has no move for a broken lock (R821, 92 D30, 93 U-11). Safe: hardware performs the write and goes on. -/
  | lockBroken
  deriving DecidableEq, Repr

/-- Sample memory: (byte offset, byte) pairs, offsets strictly rising. An unlisted byte has no value (R207). -/
abbrev Memory := List Host.Cell

/-- One instance (R100), the lock of its hosts (R821), and the model's three own fields. -/
structure State where
  /-- EQ_KIND and SAMPLE_MEM_WORDS, which nothing writes (R3, R8). -/
  params : Params
  /-- R116. -/
  arg0 : Word
  /-- R116. -/
  arg1 : Word
  /-- R116. -/
  arg2 : Word
  /-- R117. -/
  payload : Vector Word 32
  /-- RESULT: CODE[7:0], OPC[15:8] (R113). -/
  result : Word
  /-- R114. -/
  activeRate : Word
  /-- R125. -/
  enabled : Bool
  /-- R126. -/
  err : Bool
  /-- FREQ, GAIN and Q of the bands 0 to NBANDS - 1 (R118). -/
  bands : List Band
  /-- `S[0][b]` (R127). -/
  left : List StageState
  /-- `S[1][b]` (R127). -/
  right : List StageState
  /-- R201. -/
  mem : Memory
  /-- The hosts' lock: the agent inside whose argument sequence the port stands, from its first operand write to its CMD
  write; no register shows it and the block does not know it (R224, R821, log entry 9). -/
  argOwner : Option Agent
  /-- The model's own: the host events still to be performed, in the one total order of R220 (log entry 2). -/
  port : List HostEvent
  /-- The model's own: what the last host read returned (log entry 6). -/
  readData : Option Word
  /-- The model's own: how many free NaN patterns have been drawn (log entry 3). -/
  nanCount : Nat
  deriving DecidableEq, Repr

/-- The state after hardware reset with given construction parameters (R130). -/
def State.resetWith (p : Params) : State where
  params := p
  arg0 := 0
  arg1 := 0
  arg2 := 0
  payload := Vector.replicate 32 0
  result := 0
  activeRate := 0
  enabled := true
  err := false
  bands := resetBands p.kind
  left := zeroLane p.kind
  right := zeroLane p.kind
  mem := []
  argOwner := none
  port := []
  readData := none
  nanCount := 0

/-- The state right after reset. -/
def State.reset : State := State.resetWith defaultParams

end Sys2Proof.Machine
end

