-- ==== Sys2Proof/Machine/Flags.lean ====
section
/-! DEFINITION. The flags ENABLED and ERR, the STATUS view of them, and the RESULT word (spec 10_state R112, R113, R125,
R126; 60_exceptions R700, R701). The block has no other flag (R126). -/

namespace Sys2Proof.Machine

/-- The code of R700's table. -/
def codeByte : ResultCode → Byte
  | .ok => 0x00
  | .illegal => 0x01
  | .badBand => 0x02
  | .notWritable => 0x03
  | .badValue => 0x04
  | .badKind => 0x05
  | .badRate => 0x06
  | .badLength => 0x07
  | .badRange => 0x08

/-- RESULT after a command: `zext_32({OPC, code})` (R113, R701). -/
def resultWord (opc : Byte) (code : ResultCode) : Word := (opc ++ codeByte code).setWidth 32

/-- ERR after a command: set by a non-zero code, else kept (R126, R701, R706). -/
def errAfter (code : ResultCode) (err : Bool) : Bool := if code = .ok then err else true

/-- ERR after a STATUS write: bit 1 of the word clears it (R112). -/
def errAfterStatusWrite (w : Word) (err : Bool) : Bool := if w.getLsbD 1 then false else err

/-- RATE_SET (R112). -/
def rateSet (s : State) : Bool := decide (s.activeRate ≠ 0)

/-- A flag's bit. -/
def bit (b : Bool) : Nat := if b then 1 else 0

/-- STATUS as read: ENABLED[0], ERR[1], RATE_SET[2], the rest 0 (R112). -/
def statusWord (s : State) : Word := BitVec.ofNat 32 (bit s.enabled + 2 * bit s.err + 4 * bit (rateSet s))

/-- ENABLED after SET_ENABLED: `en[0]` (R410). -/
def enabledFrom (en : Byte) : Bool := en.getLsbD 0

end Sys2Proof.Machine
end

