-- ==== Sys2Proof/Machine/Ops.lean ====
section
/-! DEFINITION. The shared operations over the state: completing a command, sample memory, the lanes of the filter state,
and the control registers (spec 60_exceptions R700–R702; 20_memory R203, R206, R207; 10_state R103–R119, R127). The block takes no
traps (R705): `finish` is its one way to report, on success and on rejection alike, so it stands where another machine
has taking an exception and returning from it. -/

namespace Sys2Proof.Machine

/-- Outcomes of this model. -/
abbrev Out := Host.Outcome State Fault Refusal

/-- Go on from a next state; a fault or a refusal ends the run. -/
def andThen (o : Out) (f : State → Out) : Out :=
  match o with
  | .next s => f s
  | .fault r => .fault r
  | .refused r => .refused r

/-- `finish(code)` (R701): RESULT and ERR, nothing else. -/
def finish (opc : Byte) (code : ResultCode) (s : State) : State :=
  { s with result := resultWord opc code, err := errAfter code s.err }

/-- The last act of every command (R701). -/
def complete (opc : Byte) (code : ResultCode) (s : State) : Out := .next (finish opc code s)

/-! ### Sample memory -/

/-- The canonical form: offsets strictly rising. -/
def Memory.wf : Memory → Bool
  | [] => true
  | [_] => true
  | (a, _) :: (b, y) :: m => decide (a < b) && Memory.wf ((b, y) :: m)

/-- One byte; none where nothing was written since reset (R207). -/
def memGet : Memory → Nat → Option Byte
  | [], _ => none
  | (b, x) :: m, a => if a = b then some x else memGet m a

/-- Writing one byte, in order. -/
def memPut : Memory → Nat → Byte → Memory
  | [], a, v => [(a, v)]
  | (b, x) :: m, a, v =>
    if a < b then (a, v) :: (b, x) :: m
    else if a = b then (a, v) :: m
    else (b, x) :: memPut m a v

/-- Byte `j` of a word (R203). -/
def byteOf (w : Word) (j : Nat) : Byte := w.extractLsb' (8 * j) 8

/-- `MemRead(i)`: the four bytes at byte offset `4 i`, the least significant lowest (R203, R206); none is the
unwritten word of R207. -/
def memReadWord (m : Memory) (i : Nat) : Option Word :=
  match memGet m (4 * i), memGet m (4 * i + 1), memGet m (4 * i + 2), memGet m (4 * i + 3) with
  | some b0, some b1, some b2, some b3 => some (b3 ++ b2 ++ b1 ++ b0)
  | _, _, _, _ => none

/-- `MemWrite(i, w)` (R206). -/
def memWriteWord (m : Memory) (i : Nat) (w : Word) : Memory :=
  memPut (memPut (memPut (memPut m (4 * i) (byteOf w 0)) (4 * i + 1) (byteOf w 1)) (4 * i + 2) (byteOf w 2))
    (4 * i + 3) (byteOf w 3)

/-! ### Filter state -/

/-- `S[c]` (R127). -/
def lane (s : State) : Channel → List StageState
  | .left => s.left
  | .right => s.right

/-- Replacing `S[c]`. -/
def setLane (s : State) (c : Channel) (l : List StageState) : State :=
  match c with
  | .left => { s with left := l }
  | .right => { s with right := l }

/-- `S[c][b] <- +0.0` for both channels and every band (R405, R518). -/
def clearFilter (s : State) : State :=
  { s with left := zeroLane s.params.kind, right := zeroLane s.params.kind }

/-! ### Control registers -/

/-- Which register a control offset names; the offset is a multiple of 4 below 0x400 (R103, R104). -/
def ctlReg (off : Nat) : CtlReg :=
  if off = 0x000 then .id
  else if off = 0x004 then .info
  else if off = 0x008 then .status
  else if off = 0x00C then .result
  else if off = 0x010 then .activeRate
  else if off = 0x014 then .cmd
  else if off = 0x018 then .arg0
  else if off = 0x01C then .arg1
  else if off = 0x020 then .arg2
  else if off < 0x040 then .reserved
  else if h : off < 0x0C0 then .payload ⟨(off - 0x040) / 4, by omega⟩
  else if off < 0x100 then .reserved
  else if h : off < 0x300 then
    let b : Fin 32 := ⟨(off - 0x100) / 16, by omega⟩
    if off % 16 = 0x0 then .bandFreq b
    else if off % 16 = 0x4 then .bandGain b
    else if off % 16 = 0x8 then .bandQ b
    else .bandType b
  else .reserved

/-- A field of an existing band, 0 for a band that does not exist (R118, R119). -/
def bandField (s : State) (b : Nat) (f : Band → Word) : Word :=
  if b < nbands s.params.kind then
    match s.bands[b]? with
    | some band => f band
    | none => 0
  else 0

/-- A register read; no side effect (R104, R110–R119, R209). -/
def ctlRead (s : State) : CtlReg → Word
  | .id => idWord
  | .info => infoWord s.params.kind
  | .status => statusWord s
  | .result => s.result
  | .activeRate => s.activeRate
  | .cmd => 0
  | .arg0 => s.arg0
  | .arg1 => s.arg1
  | .arg2 => s.arg2
  | .payload i => s.payload[i]
  | .bandFreq b => bandField s b Band.freq
  | .bandGain b => bandField s b Band.gain
  | .bandQ b => bandField s b Band.q
  | .bandType b => if b.val < nbands s.params.kind then bandTypeCode (bandType s.params.kind b) else 0
  | .reserved => 0

/-- A register write other than a command: RW registers store, STATUS clears ERR by its bit 1, every other write is
ignored (R104, R112, R116, R117, R209). -/
def ctlStore (r : CtlReg) (w : Word) (s : State) : State :=
  match r with
  | .status => { s with err := errAfterStatusWrite w s.err }
  | .arg0 => { s with arg0 := w }
  | .arg1 => { s with arg1 := w }
  | .arg2 => { s with arg2 := w }
  | .payload i => { s with payload := s.payload.set i w }
  | .id | .info | .result | .activeRate | .cmd | .bandFreq _ | .bandGain _ | .bandQ _ | .bandType _ | .reserved => s

/-- The registers commands take their operands from (R116, R117, R303). -/
def isOperand : CtlReg → Bool
  | .arg0 | .arg1 | .arg2 | .payload _ => true
  | .id | .info | .status | .result | .activeRate | .cmd | .bandFreq _ | .bandGain _ | .bandQ _ | .bandType _
  | .reserved => false

/-- `is_enabled()`: STATUS[0] (R112). -/
def isEnabled (s : State) : Bool := (ctlRead s .status).getLsbD 0

/-- `info()`: the INFO word and the host-side strings (R111, 92 D26). -/
def infoOf (s : State) : InfoRecord := ⟨ctlRead s .info, Config.infoId, Config.infoName, Config.infoDescription⟩

/-- Construction of an instance: none where a parameter is outside its range (R8, R800). -/
def construct (p : Params) : Option State := if p.valid then some (State.resetWith p) else none

/-- Hardware reset of an existing instance: construction again with its own parameters. The host's pending events and
the counter of free values go on (R800, log entry 7). -/
def hardwareReset (s : State) : State :=
  { State.resetWith s.params with port := s.port, nanCount := s.nanCount }

end Sys2Proof.Machine
end

