-- ==== Sys2Proof/Machine/Operands.lean ====
section
/-! DEFINITION. Assembling a command's operands from the operand registers, and the checks and clamps on them (spec
30_encoding R303; 42_parameters R600–R605). -/

namespace Sys2Proof.Machine

/-- `base = reg[ARG0]` as u32. -/
def baseOf (s : State) : Nat := s.arg0.toNat

/-- `count = reg[ARG1]` as u32. -/
def countOf (s : State) : Nat := s.arg1.toNat

/-- `rate = reg[ARG2]` as u32. -/
def rateOf (s : State) : Nat := s.arg2.toNat

/-- `v = f32(reg[ARG0])`, carried as its pattern. -/
def valueOf (s : State) : Word := s.arg0

/-- `f32(reg[PAYLOAD[i]])`, carried as its pattern. -/
def payloadWord (s : State) (i : Nat) : Word := if h : i < 32 then s.payload[i] else 0

/-- Gain validation (R601). -/
def clampGain (v : Word) : Word := clamp32 v gainMin gainMax

/-- Q validation (R602). -/
def clampQ (v : Word) : Word := clamp32 v qMin qMax

/-- Frequency validation (R603). -/
def clampFreq (v : Word) : Word := clamp32 v fMin fMax

/-- How many payload words a kind uses: PAYLOAD[0..8], [0..9] or [0..30] (R609). -/
def payloadUsed : EqKind → Nat
  | .parametric => 9
  | .graphic10 => 10
  | .graphic31 => 31

/-- Some used payload word is a NaN (R604, R609). -/
def payloadHasNan (s : State) : Bool := (List.range (payloadUsed s.params.kind)).any fun i => isNan32 (payloadWord s i)

/-- The one tag an instance accepts, `INFO.KIND + 1` (R609). -/
def acceptedTag (k : EqKind) : Nat := kindCode k + 1

end Sys2Proof.Machine
end

