-- ==== Sys2Proof/Machine/Control.lean ====
section
/-! DEFINITION. The control commands NOP, RESET and SET_ENABLED (spec 40_control). -/

namespace Sys2Proof.Machine

/-- NOP (R400). -/
def execNop (s : State) : Out := complete opcNop .ok s

/-- RESET (R405): the filter state, whatever ENABLED is; no parameter, flag or rate. -/
def execReset (s : State) : Out := complete opcReset .ok (clearFilter s)

/-- SET_ENABLED (R410). An operand above 1 is the illegal encoding of R307 and changes nothing (log entry 11). -/
def execSetEnabled (en : Byte) (s : State) : Out :=
  if en.toNat ≤ 1 then complete opcSetEnabled .ok { s with enabled := enabledFrom en }
  else complete opcSetEnabled .illegal s

end Sys2Proof.Machine
end

