-- ==== Sys2Proof/Machine/Parameters.lean ====
section
/-! DEFINITION. The parameter commands SET_FREQ, SET_GAIN, SET_Q and UPDATE_PARAMS (spec 42_parameters). The filter state
is kept by all of them (R610); a rejection changes only RESULT and ERR (R612). -/

namespace Sys2Proof.Machine

/-- Changing band `b`. -/
def updateBand (s : State) (b : Nat) (f : Band → Band) : State := { s with bands := s.bands.modify b f }

/-- SET_FREQ (R606). -/
def execSetFreq (b : Byte) (s : State) : Out :=
  if nbands s.params.kind ≤ b.toNat then complete opcSetFreq .badBand s
  else if s.params.kind ≠ .parametric then complete opcSetFreq .notWritable s
  else if isNan32 (valueOf s) then complete opcSetFreq .badValue s
  else complete opcSetFreq .ok (updateBand s b.toNat fun band => { band with freq := clampFreq (valueOf s) })

/-- SET_GAIN (R607). -/
def execSetGain (b : Byte) (s : State) : Out :=
  if nbands s.params.kind ≤ b.toNat then complete opcSetGain .badBand s
  else if isNan32 (valueOf s) then complete opcSetGain .badValue s
  else complete opcSetGain .ok (updateBand s b.toNat fun band => { band with gain := clampGain (valueOf s) })

/-- SET_Q (R608). -/
def execSetQ (b : Byte) (s : State) : Out :=
  if nbands s.params.kind ≤ b.toNat then complete opcSetQ .badBand s
  else if s.params.kind ≠ .parametric then complete opcSetQ .notWritable s
  else if isNan32 (valueOf s) then complete opcSetQ .badValue s
  else complete opcSetQ .ok (updateBand s b.toNat fun band => { band with q := clampQ (valueOf s) })

/-- Band `b` of parametric settings: PAYLOAD[3b], [3b+1], [3b+2] (R609). -/
def parametricBand (s : State) (b : Nat) : Band :=
  ⟨clampFreq (payloadWord s (3 * b)), clampGain (payloadWord s (3 * b + 1)), clampQ (payloadWord s (3 * b + 2))⟩

/-- The band file an accepted payload gives (R609). -/
def updatedBands (s : State) : List Band :=
  match s.params.kind with
  | .parametric => (List.range 3).map (parametricBand s)
  | .graphic10 | .graphic31 => s.bands.mapIdx fun b band => { band with gain := clampGain (payloadWord s b) }

/-- UPDATE_PARAMS (R609). -/
def execUpdateParams (tag : Byte) (s : State) : Out :=
  if tag.toNat ≠ acceptedTag s.params.kind then complete opcUpdateParams .badKind s
  else if payloadHasNan s then complete opcUpdateParams .badValue s
  else complete opcUpdateParams .ok { s with bands := updatedBands s }

end Sys2Proof.Machine
end

