-- ==== Sys2Proof/Laws/Rounding.lean ====
section
/-! SUPPORT. Rounding (spec 00_scope R12, 41_process R526): magnitude patterns count the finite values in order, and
`roundMag` answers a nearest one. Everything later proofs need of an operation follows from
`roundMag_nearest_even`. -/

namespace Sys2Proof.Machine

/-! ### The values of magnitude patterns -/

/-- The value of a magnitude pattern in units of the least ulp. -/
def magUnits (f : Format) (m : Nat) : Nat :=
  if m < 2 ^ f.fracBits then m else (2 ^ f.fracBits + m % 2 ^ f.fracBits) * 2 ^ (m / 2 ^ f.fracBits - 1)

/-- The real value of a magnitude pattern. -/
noncomputable def magVal (f : Format) (m : Nat) : ℝ := (magUnits f m : ℝ) * (2 : ℝ) ^ f.minExp

theorem two_zpow_pos (e : ℤ) : (0 : ℝ) < (2 : ℝ) ^ e := zpow_pos (by norm_num) e

theorem magVal_eq (f : Format) (m : Nat) : magVal f m = (sigOf f m : ℝ) * (2 : ℝ) ^ expOf f m := by
  unfold magVal magUnits sigOf expOf
  split
  · rfl
  · next h =>
    have hq : 1 ≤ m / 2 ^ f.fracBits := (Nat.one_le_div_iff (Nat.two_pow_pos _)).mpr (Nat.le_of_not_lt h)
    have e : ((m / 2 ^ f.fracBits : Nat) : ℤ) + f.minExp - 1 = ((m / 2 ^ f.fracBits - 1 : Nat) : ℤ) + f.minExp := by
      rw [Nat.cast_sub hq]; push_cast; ring
    rw [e, zpow_add₀ (by norm_num), zpow_natCast]
    push_cast
    ring

/-- A pattern written as `k` whole binades and a significand (the value is linear in the significand there). -/
theorem magUnits_binade (f : Format) {k m : Nat} (h1 : k = 0 ∨ 2 ^ f.fracBits ≤ m) (h2 : m ≤ 2 ^ (f.fracBits + 1)) :
    magUnits f (k * 2 ^ f.fracBits + m) = m * 2 ^ k := by
  have hp : 0 < 2 ^ f.fracBits := Nat.two_pow_pos _
  generalize hP : 2 ^ f.fracBits = P at *
  have h2' : m ≤ 2 * P := by rw [pow_succ, hP] at h2; omega
  unfold magUnits
  rw [hP]
  by_cases hm : m < P
  · have : k = 0 := h1.resolve_right (by omega)
    subst this
    simp [hm]
  · have hge : ¬ k * P + m < P := by
      have := Nat.zero_le (k * P); omega
    rw [if_neg hge]
    rcases Nat.lt_or_ge m (2 * P) with hlt | hge2
    · have hd : (k * P + m) / P = k + 1 := by
        rw [Nat.mul_comm, Nat.mul_add_div hp]
        congr 1
        exact Nat.div_eq_of_lt_le (by omega) (by omega)
      have hmod : (k * P + m) % P = m - P := by
        have := Nat.div_add_mod (k * P + m) P
        rw [hd] at this
        have e : P * (k + 1) = k * P + P := by ring
        omega
      rw [hd, hmod, Nat.add_sub_cancel]
      congr 1; omega
    · have hm2 : m = 2 * P := by omega
      subst hm2
      have e : k * P + 2 * P = P * (k + 2) := by ring
      rw [e, Nat.mul_div_cancel_left _ hp, Nat.mul_mod_right]
      rw [show k + 2 - 1 = k + 1 from rfl, pow_succ]
      ring

theorem magUnits_lt_succ (f : Format) (m : Nat) : magUnits f m < magUnits f (m + 1) := by
  have hp : 0 < 2 ^ f.fracBits := Nat.two_pow_pos _
  by_cases h : m < 2 ^ f.fracBits
  · have e1 := magUnits_binade f (k := 0) (m := m) (.inl rfl) (by rw [pow_succ]; omega)
    have e2 := magUnits_binade f (k := 0) (m := m + 1) (.inl rfl) (by rw [pow_succ]; omega)
    simp only [Nat.zero_mul, Nat.zero_add, pow_zero, Nat.mul_one] at e1 e2
    omega
  · have hq : 1 ≤ m / 2 ^ f.fracBits := (Nat.one_le_div_iff hp).mpr (Nat.le_of_not_lt h)
    have hdm := Nat.div_add_mod m (2 ^ f.fracBits)
    have hr := Nat.mod_lt m hp
    obtain ⟨k, hk⟩ : ∃ k, m / 2 ^ f.fracBits = k + 1 := ⟨m / 2 ^ f.fracBits - 1, by omega⟩
    rw [hk] at hdm
    have em : m = k * 2 ^ f.fracBits + (2 ^ f.fracBits + m % 2 ^ f.fracBits) := by
      have e : 2 ^ f.fracBits * (k + 1) = k * 2 ^ f.fracBits + 2 ^ f.fracBits := by ring
      omega
    have e1 := magUnits_binade f (k := k) (m := 2 ^ f.fracBits + m % 2 ^ f.fracBits) (.inr (by omega))
      (by rw [pow_succ]; omega)
    have e2 := magUnits_binade f (k := k) (m := 2 ^ f.fracBits + m % 2 ^ f.fracBits + 1) (.inr (by omega))
      (by rw [pow_succ]; omega)
    rw [← em] at e1
    rw [← Nat.add_assoc, ← em] at e2
    rw [e1, e2]
    exact Nat.mul_lt_mul_of_pos_right (Nat.lt_succ_self _) (Nat.two_pow_pos _)

theorem magUnits_strictMono (f : Format) : StrictMono (magUnits f) := strictMono_nat_of_lt_succ (magUnits_lt_succ f)

/-- Magnitude patterns are in the order of their values. -/
theorem magVal_strictMono (f : Format) : StrictMono (magVal f) := fun _ _ h =>
  mul_lt_mul_of_pos_right (Nat.cast_lt.mpr (magUnits_strictMono f h)) (two_zpow_pos _)

theorem magVal_nonneg (f : Format) (m : Nat) : 0 ≤ magVal f m :=
  mul_nonneg (Nat.cast_nonneg _) (two_zpow_pos _).le

@[simp] theorem magVal_zero (f : Format) : magVal f 0 = 0 := by
  simp [magVal, magUnits]

/-! ### Rounding to nearest -/

/-- What a rounding is given: `n * 2^e` exactly, or with `sticky` a real strictly between it and the next multiple, and
then enough bits that the cut is below the last place. -/
def Represents (f : Format) (n : Nat) (e : ℤ) (sticky : Bool) (x : ℝ) : Prop :=
  if sticky then (n : ℝ) * 2 ^ e < x ∧ x < ((n : ℝ) + 1) * 2 ^ e ∧ 2 ^ (f.fracBits + 2) ≤ n else x = (n : ℝ) * 2 ^ e

/-- Rounding off `d` bits is off by at most half a unit. -/
theorem roundShift_error {n d : Nat} {sticky : Bool} {X : ℝ} (hd : 1 ≤ d)
    (hX : if sticky then (n : ℝ) < X ∧ X < n + 1 else X = n) :
    |((roundShift n d sticky * 2 ^ d : Nat) : ℝ) - X| ≤ 2 ^ (d - 1) ∧
      (|((roundShift n d sticky * 2 ^ d : Nat) : ℝ) - X| = 2 ^ (d - 1) → roundShift n d sticky % 2 = 0) ∧
      (n / 2 ^ d ≤ roundShift n d sticky ∧ roundShift n d sticky ≤ n / 2 ^ d + 1) := by
  have hdm := Nat.div_add_mod n (2 ^ d)
  have hr := Nat.mod_lt n (Nat.two_pow_pos d)
  have hp : 2 ^ d = 2 * 2 ^ (d - 1) := by rw [← pow_succ']; congr 1; omega
  have hh : 1 ≤ 2 ^ (d - 1) := Nat.one_le_two_pow
  have hX1 : (n : ℝ) ≤ X ∧ X < n + 1 := by
    split at hX
    · exact ⟨hX.1.le, hX.2⟩
    · subst hX; exact ⟨le_refl _, by linarith⟩
  unfold roundShift
  simp only
  generalize hq : n / 2 ^ d = q at *
  generalize hrr : n % 2 ^ d = r at *
  generalize hH : 2 ^ (d - 1) = H at *
  have hHr : (2 : ℝ) ^ (d - 1) = H := by rw [← hH]; push_cast; rfl
  have hn : (n : ℝ) = 2 * H * q + r := by rw [← hdm, hp]; push_cast; ring
  rw [hHr]
  split
  · next hcond =>
    have e : (((q + 1) * 2 ^ d : Nat) : ℝ) - X = 2 * H - r - (X - n) := by rw [hn, hp]; push_cast; ring
    rw [e]
    have hr1 : (r : ℝ) + 1 ≤ 2 * H := by rw [hp] at hr; exact_mod_cast hr
    rw [abs_of_nonneg (by linarith)]
    rcases hcond with hlt | ⟨heq, hs⟩
    · have h1 : (H : ℝ) + 1 ≤ r := by exact_mod_cast hlt
      exact ⟨by linarith, fun h => by linarith, by omega, le_refl _⟩
    · have h1 : (r : ℝ) = H := by exact_mod_cast heq
      refine ⟨by linarith, fun h => ?_, by omega, le_refl _⟩
      have hXn : X = n := by linarith
      rcases hs with hs | hs
      · simp only [hs, if_true] at hX
        linarith [hX.1]
      · omega
  · next hcond =>
    push Not at hcond
    have e : ((q * 2 ^ d : Nat) : ℝ) - X = -(r + (X - n)) := by rw [hn, hp]; push_cast; ring
    have hr0 : (0 : ℝ) ≤ r := Nat.cast_nonneg _
    rw [e, abs_neg, abs_of_nonneg (by linarith)]
    rcases Nat.lt_or_eq_of_le hcond.1 with hlt | heq
    · have h1 : (r : ℝ) + 1 ≤ H := by exact_mod_cast hlt
      exact ⟨by linarith, fun h => by linarith, le_refl _, by omega⟩
    · have h1 : (r : ℝ) = H := by exact_mod_cast heq
      have hs := hcond.2 heq
      simp only [hs.1, if_false, Bool.false_eq_true] at hX
      exact ⟨by linarith, fun _ => by omega, le_refl _, by omega⟩

/-- The result of a rounding: `k` binades and a significand `m`, with `x` within half a unit of `m * 2^(minExp + k)`, and not
below it at the bottom of a binade. -/
theorem roundMag_spec {f : Format} {n : Nat} {e : ℤ} {sticky : Bool} {x : ℝ} (hn : n ≠ 0)
    (hx : Represents f n e sticky x) :
    ∃ k m : Nat, roundMag f n e sticky = k * 2 ^ f.fracBits + m ∧ (k = 0 ∨ 2 ^ f.fracBits ≤ m) ∧
      m ≤ 2 ^ (f.fracBits + 1) ∧ |(m : ℝ) * 2 ^ (f.minExp + k) - x| ≤ 2 ^ (f.minExp + k) / 2 ∧
      (|(m : ℝ) * 2 ^ (f.minExp + k) - x| = 2 ^ (f.minExp + k) / 2 → m % 2 = 0) ∧
      (k ≠ 0 → (2 : ℝ) ^ f.fracBits * 2 ^ (f.minExp + k) ≤ x) := by
  have hlog1 : 2 ^ Nat.log2 n ≤ n := Nat.log2_self_le hn
  have hlog2 : n < 2 ^ (Nat.log2 n + 1) := Nat.lt_log2_self
  have hxn : (n : ℝ) * 2 ^ e ≤ x := by
    unfold Represents at hx
    split at hx
    · exact hx.1.le
    · exact hx.ge
  unfold roundMag
  rw [if_neg hn]
  simp only
  generalize hL : Nat.log2 n = L at *
  have hmax : ∃ k : Nat, max f.minExp ((L : ℤ) + e - f.fracBits) = f.minExp + k ∧
      ((k = 0 ∧ (L : ℤ) + e - f.fracBits ≤ f.minExp) ∨ f.minExp + k = (L : ℤ) + e - f.fracBits) := by
    rcases le_total ((L : ℤ) + e - f.fracBits) f.minExp with h | h
    · exact ⟨0, by rw [max_eq_left h]; simp, .inl ⟨rfl, h⟩⟩
    · refine ⟨((L : ℤ) + e - f.fracBits - f.minExp).toNat, ?_, ?_⟩
      · rw [max_eq_right h, Int.toNat_of_nonneg (by omega)]; ring
      · right; rw [Int.toNat_of_nonneg (by omega)]; ring
  obtain ⟨k, ht, hk⟩ := hmax
  rw [ht]
  have hkt : (f.minExp + (k : ℤ) - f.minExp).toNat = k := by simp
  rw [hkt]
  set t : ℤ := f.minExp + k with ht'
  have hle : (L : ℤ) + e - f.fracBits ≤ t := by omega
  -- the bottom of the binade
  have hbottom : k ≠ 0 → (2 : ℝ) ^ f.fracBits * 2 ^ t ≤ x := by
    intro hk0
    have hteq : t = (L : ℤ) + e - f.fracBits := by
      rcases hk with ⟨h, -⟩ | h
      · exact absurd h hk0
      · exact h
    have : (2 : ℝ) ^ f.fracBits * 2 ^ t = 2 ^ L * 2 ^ e := by
      rw [← zpow_natCast, ← zpow_natCast, ← zpow_add₀ (by norm_num), ← zpow_add₀ (by norm_num)]
      congr 1; omega
    rw [this]
    refine le_trans ?_ hxn
    exact mul_le_mul_of_nonneg_right (by exact_mod_cast hlog1) (two_zpow_pos _).le
  by_cases hte : t ≤ e
  · rw [if_pos hte]
    -- the exact value is a multiple of the unit
    have hns : sticky = false := by
      by_contra hs
      simp only [Bool.not_eq_false] at hs
      simp only [Represents, hs, if_true] at hx
      have h3 : 2 ^ (f.fracBits + 2) < 2 ^ (L + 1) := lt_of_le_of_lt hx.2.2 hlog2
      have := (Nat.pow_lt_pow_iff_right (by norm_num)).mp h3
      omega
    simp only [Represents, hns, Bool.false_eq_true, if_false] at hx
    have hd : ((e - t).toNat : ℤ) = e - t := Int.toNat_of_nonneg (by omega)
    have hval : ((n * 2 ^ (e - t).toNat : Nat) : ℝ) * 2 ^ t = x := by
      rw [hx]; push_cast
      rw [← zpow_natCast (2 : ℝ) (e - t).toNat, hd, mul_assoc, ← zpow_add₀ (by norm_num)]
      congr 2; omega
    refine ⟨k, n * 2 ^ (e - t).toNat, rfl, ?_, ?_, ?_, ?_, hbottom⟩
    · by_cases hk0 : k = 0
      · exact .inl hk0
      · right
        have := hbottom hk0
        rw [← hval] at this
        have := le_of_mul_le_mul_right this (two_zpow_pos t)
        exact_mod_cast this
    · have : n * 2 ^ (e - t).toNat < 2 ^ (L + 1) * 2 ^ (e - t).toNat :=
        Nat.mul_lt_mul_of_pos_right hlog2 (Nat.two_pow_pos _)
      rw [← pow_add] at this
      refine le_trans this.le (Nat.pow_le_pow_right (by norm_num) ?_)
      omega
    · rw [hval, sub_self, abs_zero]
      have := two_zpow_pos t
      linarith
    · rw [hval, sub_self, abs_zero]
      have := two_zpow_pos t
      intro h
      linarith
  · rw [if_neg hte]
    have hd : ((t - e).toNat : ℤ) = t - e := Int.toNat_of_nonneg (by omega)
    generalize hD : (t - e).toNat = d at *
    have hd1 : 1 ≤ d := by omega
    have hpe := two_zpow_pos e
    have hX : if sticky then (n : ℝ) < x / 2 ^ e ∧ x / 2 ^ e < n + 1 else x / 2 ^ e = n := by
      unfold Represents at hx
      split at hx
      · next hs =>
        simp only [hs, if_true]
        exact ⟨(lt_div_iff₀ hpe).mpr hx.1, (div_lt_iff₀ hpe).mpr hx.2.1⟩
      · next hs =>
        simp only [hs, if_false, Bool.false_eq_true]
        rw [hx]; field_simp
    obtain ⟨herr, htie, hlo, hhi⟩ := roundShift_error hd1 hX
    have htd : (2 : ℝ) ^ t = 2 ^ d * 2 ^ e := by
      rw [← zpow_natCast, ← zpow_add₀ (by norm_num)]; congr 1; omega
    have e1 : (roundShift n d sticky : ℝ) * 2 ^ t - x =
        (((roundShift n d sticky * 2 ^ d : Nat) : ℝ) - x / 2 ^ e) * 2 ^ e := by
      rw [htd]; push_cast; field_simp
    have e2 : (2 : ℝ) ^ t / 2 = 2 ^ (d - 1) * 2 ^ e := by
      rw [htd]
      have : (2 : ℝ) ^ d = 2 * 2 ^ (d - 1) := by rw [← pow_succ']; congr 1; omega
      rw [this]; ring
    refine ⟨k, roundShift n d sticky, rfl, ?_, ?_, ?_, ?_, hbottom⟩
    · by_cases hk0 : k = 0
      · exact .inl hk0
      · right
        refine le_trans ?_ hlo
        rw [Nat.le_div_iff_mul_le (Nat.two_pow_pos _), ← pow_add]
        refine le_trans (Nat.pow_le_pow_right (by norm_num) ?_) hlog1
        rcases hk with ⟨h, -⟩ | h
        · exact absurd h hk0
        · omega
    · have hq : n / 2 ^ d < 2 ^ (f.fracBits + 1) := by
        rw [Nat.div_lt_iff_lt_mul (Nat.two_pow_pos _), ← pow_add]
        refine lt_of_lt_of_le hlog2 (Nat.pow_le_pow_right (by norm_num) ?_)
        omega
      omega
    · rw [e1, e2, abs_mul, abs_of_pos hpe]
      exact mul_le_mul_of_nonneg_right herr hpe.le
    · rw [e1, e2, abs_mul, abs_of_pos hpe]
      exact fun h => htie (mul_right_cancel₀ hpe.ne' h)

/-- `roundMag` answers a magnitude nearest to the exact value, the even one of two that are (R12: roundTiesToEven). -/
theorem roundMag_nearest_even {f : Format} (hf : f.fracBits ≠ 0) {n : Nat} {e : ℤ} {sticky : Bool} {x : ℝ}
    (hx : Represents f n e sticky x) (hx0 : n = 0 → sticky = false) (z : Nat) :
    |magVal f (roundMag f n e sticky) - x| ≤ |magVal f z - x| ∧
      (|magVal f (roundMag f n e sticky) - x| = |magVal f z - x| → z ≠ roundMag f n e sticky →
        roundMag f n e sticky % 2 = 0) := by
  by_cases hn : n = 0
  · have hs := hx0 hn
    simp only [Represents, hs, hn, Bool.false_eq_true, if_false, Nat.cast_zero, zero_mul] at hx
    simp [roundMag, hn, hx]
  · obtain ⟨k, m, hM, h1, h2, herr, htie, hbot⟩ := roundMag_spec hn hx
    have heven : m % 2 = 0 → (k * 2 ^ f.fracBits + m) % 2 = 0 := fun h => by
      obtain ⟨j, hj⟩ := Nat.exists_eq_succ_of_ne_zero hf
      rw [hj, pow_succ, ← Nat.mul_assoc]
      omega
    rw [hM]
    have hu : ∀ j, magVal f j = (magUnits f j : ℝ) * 2 ^ f.minExp := fun _ => rfl
    have hpt := two_zpow_pos (f.minExp + k)
    have hp2 : (2 : ℝ) ^ (f.minExp + (k : ℤ)) = 2 ^ k * 2 ^ f.minExp := by
      rw [zpow_add₀ (by norm_num), zpow_natCast]; ring
    have hval : magVal f (k * 2 ^ f.fracBits + m) = (m : ℝ) * 2 ^ (f.minExp + k) := by
      rw [hu, magUnits_binade f h1 h2, hp2]; push_cast; ring
    have hmono := (magVal_strictMono f).monotone
    rcases lt_trichotomy z (k * 2 ^ f.fracBits + m) with hz | hz | hz
    · -- a smaller pattern
      by_cases hb : k ≠ 0 ∧ m = 2 ^ f.fracBits
      · have hxge : magVal f (k * 2 ^ f.fracBits + m) ≤ x := by
          rw [hval, hb.2]; push_cast; exact hbot hb.1
        have := magVal_strictMono f hz
        rw [abs_of_nonpos (by linarith), abs_of_nonpos (by linarith)]
        exact ⟨by linarith, fun h => by linarith⟩
      · -- the next pattern below is one unit away
        have hm1 : 1 ≤ m := by
          rcases Nat.eq_zero_or_pos m with h0 | h0
          · subst h0
            rcases h1 with h | h
            · subst h; simp at hz
            · have := Nat.two_pow_pos f.fracBits; omega
          · exact h0
        have hzle : z ≤ k * 2 ^ f.fracBits + (m - 1) := by omega
        have h1' : k = 0 ∨ 2 ^ f.fracBits ≤ m - 1 := by
          rcases h1 with h | h
          · exact .inl h
          · by_cases hk : k = 0
            · exact .inl hk
            · right
              have : m ≠ 2 ^ f.fracBits := fun h' => hb ⟨hk, h'⟩
              omega
        have hval' : magVal f (k * 2 ^ f.fracBits + (m - 1)) = ((m : ℝ) - 1) * 2 ^ (f.minExp + k) := by
          rw [hu, magUnits_binade f h1' (by omega), hp2]; push_cast [Nat.cast_sub hm1]; ring
        have hzv := hmono hzle
        rw [hval'] at hzv
        rw [hval]
        rw [abs_le] at herr
        have : x - magVal f z ≥ 2 ^ (f.minExp + k) / 2 := by linarith [herr.2]
        rw [abs_of_nonpos (show magVal f z - x ≤ 0 by linarith)]
        refine ⟨abs_le.mpr ⟨by linarith [herr.1, herr.2], by linarith [herr.1, herr.2]⟩, fun h _ => heven (htie ?_)⟩
        refine le_antisymm (abs_le.mpr herr) ?_
        rw [h]; linarith
    · exact ⟨by rw [hz], fun _ h => absurd hz h⟩
    · -- a larger pattern is at least one unit away
      have hzle : k * 2 ^ f.fracBits + m + 1 ≤ z := hz
      have hzv := hmono hzle
      have hstep : magVal f (k * 2 ^ f.fracBits + m) + 2 ^ (f.minExp + k) ≤ magVal f (k * 2 ^ f.fracBits + m + 1) := by
        rcases Nat.lt_or_eq_of_le h2 with hlt | heq
        · have e : magVal f (k * 2 ^ f.fracBits + m + 1) = ((m : ℝ) + 1) * 2 ^ (f.minExp + k) := by
            rw [Nat.add_assoc, hu, magUnits_binade f (by omega) (by omega), hp2]; push_cast; ring
          rw [hval, e]; linarith
        · have e : magVal f (k * 2 ^ f.fracBits + m + 1) =
              ((2 : ℝ) ^ f.fracBits + 1) * 2 ^ (f.minExp + k) * 2 := by
            have e1 : k * 2 ^ f.fracBits + m + 1 = (k + 1) * 2 ^ f.fracBits + (2 ^ f.fracBits + 1) := by
              rw [heq, pow_succ]; ring
            have hp1 := Nat.one_le_two_pow (n := f.fracBits)
            rw [e1, hu, magUnits_binade f (.inr (by omega)) (by rw [pow_succ]; omega), hp2]
            push_cast; ring
          rw [hval, e, heq]; push_cast; rw [pow_succ]; nlinarith [hpt]
      rw [hval] at hstep ⊢
      rw [abs_le] at herr
      have : magVal f z - x ≥ 2 ^ (f.minExp + k) / 2 := by linarith [herr.1]
      rw [abs_of_nonneg (show 0 ≤ magVal f z - x by linarith)]
      refine ⟨abs_le.mpr ⟨by linarith [herr.1, herr.2], by linarith [herr.1, herr.2]⟩, fun h _ => heven (htie ?_)⟩
      refine le_antisymm (abs_le.mpr herr) ?_
      rw [h]; linarith

/-- Rounding a value at most a pattern's value gives at most that pattern. -/
theorem roundMag_le {f : Format} (hf : f.fracBits ≠ 0) {n : Nat} {e : ℤ} {sticky : Bool} {x : ℝ} (hx : Represents f n e sticky x)
    (hx0 : n = 0 → sticky = false) {z : Nat} (hz : x ≤ magVal f z) : roundMag f n e sticky ≤ z := by
  by_contra h
  have h1 := magVal_strictMono f (Nat.lt_of_not_le h)
  have h2 := (roundMag_nearest_even hf hx hx0 z).1
  rw [abs_of_nonneg (by linarith), abs_of_nonneg (by linarith)] at h2
  linarith

/-- Rounding a value at least a pattern's value gives at least that pattern. -/
theorem le_roundMag {f : Format} (hf : f.fracBits ≠ 0) {n : Nat} {e : ℤ} {sticky : Bool} {x : ℝ} (hx : Represents f n e sticky x)
    (hx0 : n = 0 → sticky = false) {z : Nat} (hz : magVal f z ≤ x) : z ≤ roundMag f n e sticky := by
  by_contra h
  have h1 := magVal_strictMono f (Nat.lt_of_not_le h)
  have h2 := (roundMag_nearest_even hf hx hx0 z).1
  rw [abs_of_nonpos (by linarith), abs_of_nonpos (by linarith)] at h2
  linarith

/-- A value that is a pattern's rounds to it. -/
theorem roundMag_exact {f : Format} (hf : f.fracBits ≠ 0) {n : Nat} {e : ℤ} {z : Nat} (h : (n : ℝ) * 2 ^ e = magVal f z) :
    roundMag f n e false = z := by
  have hx : Represents f n e false ((n : ℝ) * 2 ^ e) := by simp [Represents]
  exact le_antisymm (roundMag_le hf hx (fun _ => rfl) h.le) (le_roundMag hf hx (fun _ => rfl) h.ge)

end Sys2Proof.Machine
end

