-- ==== Sys2Proof/Laws/Arith.lean ====
section
/-! SUPPORT. The real meaning of the binary64 operations (spec 00_scope R12, 41_process R526): on finite operands each
answers the rounding of the exact result, which no finite value separates from it (`RoundsTo`). -/

namespace Sys2Proof.Machine

/-! ### Real values and the order of keys -/

/-- The real value of a finite binary64. -/
noncomputable def realOf (y : B64) : ℝ := ((ratOf y : ℚ) : ℝ)

theorem realOf_fin (neg : Bool) (mag : Fin 0x7FF0000000000000) :
    realOf (.fin neg mag) = (if neg then -magVal fmt64 mag.val else magVal fmt64 mag.val) := by
  unfold realOf ratOf signed
  rw [magVal_eq]
  cases neg <;> push_cast <;> simp

@[simp] theorem realOf_neg64 (y : B64) : realOf (neg64 y) = -realOf y := by
  cases y with
  | nan => simp [neg64, realOf, ratOf]
  | inf neg => simp [neg64, realOf, ratOf]
  | fin neg mag => rw [neg64, realOf_fin, realOf_fin]; cases neg <;> simp

@[simp] theorem isFinite64_neg64 (y : B64) : isFinite64 (neg64 y) = isFinite64 y := by cases y <;> rfl

@[simp] theorem neg64_neg64 (y : B64) : neg64 (neg64 y) = y := by cases y <;> simp [neg64]

@[simp] theorem neg64_ne_nan (y : B64) : neg64 y ≠ .nan ↔ y ≠ .nan := by cases y <;> simp [neg64]

@[simp] theorem key64_neg64 (y : B64) : key64 (neg64 y) = -key64 y := by
  cases y with
  | nan => rfl
  | inf neg => cases neg <;> simp [neg64, key64, signed]
  | fin neg mag => cases neg <;> simp [neg64, key64, signed]

theorem isFinite64_iff (y : B64) : isFinite64 y = true ↔ ∃ neg mag, y = .fin neg mag := by
  cases y <;> simp [isFinite64]

/-- The keys of finite values are in the order of the values. -/
theorem key64_le_iff {a b : B64} (ha : isFinite64 a = true) (hb : isFinite64 b = true) :
    key64 a ≤ key64 b ↔ realOf a ≤ realOf b := by
  obtain ⟨na, ma, rfl⟩ := (isFinite64_iff a).mp ha
  obtain ⟨nb, mb, rfl⟩ := (isFinite64_iff b).mp hb
  have hm := magVal_strictMono fmt64
  have h0 := magVal_zero fmt64
  have ha0 := magVal_nonneg fmt64 ma.val
  have hb0 := magVal_nonneg fmt64 mb.val
  have hpos : ∀ m, magVal fmt64 m ≤ 0 → m = 0 := fun m h => by
    by_contra hne
    have := hm (Nat.pos_of_ne_zero hne)
    rw [h0] at this
    linarith
  rw [realOf_fin, realOf_fin]
  cases na <;> cases nb <;> simp only [key64, signed, if_true, if_false, Bool.false_eq_true]
  · rw [hm.le_iff_le]; exact Int.ofNat_le
  · constructor
    · intro h
      have h1 : ma.val = 0 := by omega
      have h2 : mb.val = 0 := by omega
      rw [h1, h2, h0]; simp
    · intro h
      have h1 := hpos ma.val (by linarith)
      have h2 := hpos mb.val (by linarith)
      omega
  · constructor
    · intro _; linarith
    · intro _; omega
  · rw [neg_le_neg_iff, neg_le_neg_iff, hm.le_iff_le]; exact Int.ofNat_le

theorem key64_lt_iff {a b : B64} (ha : isFinite64 a = true) (hb : isFinite64 b = true) :
    key64 a < key64 b ↔ realOf a < realOf b := by
  rw [← not_le, ← not_le, key64_le_iff hb ha]

/-- `lt64` of finite values is the order of the reals. -/
theorem lt64_iff {a b : B64} (ha : isFinite64 a = true) (hb : isFinite64 b = true) :
    lt64 a b = true ↔ realOf a < realOf b := by
  have na : a ≠ .nan := by rintro rfl; simp [isFinite64] at ha
  have nb : b ≠ .nan := by rintro rfl; simp [isFinite64] at hb
  simp [lt64, na, nb, key64_lt_iff ha hb]

theorem eq64_iff {a b : B64} (ha : isFinite64 a = true) (hb : isFinite64 b = true) :
    eq64 a b = true ↔ realOf a = realOf b := by
  have na : a ≠ .nan := by rintro rfl; simp [isFinite64] at ha
  have nb : b ≠ .nan := by rintro rfl; simp [isFinite64] at hb
  have := key64_le_iff ha hb
  have := key64_le_iff hb ha
  simp only [eq64, decide_eq_true_eq]
  constructor
  · rintro ⟨-, -, h⟩; exact le_antisymm (by simp_all) (by simp_all)
  · intro h; exact ⟨na, nb, le_antisymm (by simp_all) (by simp_all)⟩

/-- Any value between two finite keys is finite. -/
theorem isFinite64_of_key {y : B64} (hn : y ≠ .nan) {a b : B64} (ha : isFinite64 a = true) (hb : isFinite64 b = true)
    (h1 : key64 a ≤ key64 y) (h2 : key64 y ≤ key64 b) : isFinite64 y = true := by
  obtain ⟨na, ma, rfl⟩ := (isFinite64_iff a).mp ha
  obtain ⟨nb, mb, rfl⟩ := (isFinite64_iff b).mp hb
  have := ma.isLt
  have := mb.isLt
  cases y with
  | nan => exact absurd rfl hn
  | inf neg =>
    exfalso
    cases neg <;> cases na <;> cases nb <;> simp [key64, signed] at h1 h2 <;> omega
  | fin neg mag => rfl

/-! ### What a rounding is -/

/-- `y` is a rounding of the real `x`: no NaN, and on the same side of every finite value. -/
def RoundsTo (y : B64) (x : ℝ) : Prop :=
  y ≠ .nan ∧ ∀ z, isFinite64 z = true →
    (x ≤ realOf z → key64 y ≤ key64 z) ∧ (realOf z ≤ x → key64 z ≤ key64 y)

theorem RoundsTo.neg {y : B64} {x : ℝ} (h : RoundsTo y x) : RoundsTo (neg64 y) (-x) := by
  refine ⟨(neg64_ne_nan y).mpr h.1, fun z hz => ?_⟩
  have h' := h.2 (neg64 z) (by simpa using hz)
  rw [realOf_neg64, key64_neg64] at h'
  rw [key64_neg64]
  exact ⟨fun hx => by have := h'.2 (by linarith); omega, fun hx => by have := h'.1 (by linarith); omega⟩

/-- A rounding of a real between two finite values is finite and between them. -/
theorem RoundsTo.between {y : B64} {x : ℝ} (h : RoundsTo y x) {a b : B64} (ha : isFinite64 a = true)
    (hb : isFinite64 b = true) (h1 : realOf a ≤ x) (h2 : x ≤ realOf b) :
    isFinite64 y = true ∧ realOf a ≤ realOf y ∧ realOf y ≤ realOf b := by
  have k1 := (h.2 a ha).2 h1
  have k2 := (h.2 b hb).1 h2
  have hf := isFinite64_of_key h.1 ha hb k1 k2
  exact ⟨hf, (key64_le_iff ha hf).mp k1, (key64_le_iff hf hb).mp k2⟩

/-- A rounding of a finite value is that value. -/
theorem RoundsTo.exact {y a : B64} (h : RoundsTo y (realOf a)) (ha : isFinite64 a = true) :
    isFinite64 y = true ∧ realOf y = realOf a := by
  obtain ⟨h1, h2, h3⟩ := h.between ha ha (le_refl _) (le_refl _)
  exact ⟨h1, le_antisymm h3 h2⟩

theorem ofMag64_ne_nan (neg : Bool) (m : Nat) : ofMag64 neg m ≠ .nan := by
  unfold ofMag64; split <;> simp

theorem key64_ofMag64_false (m : Nat) : key64 (ofMag64 false m) = min m 0x7FF0000000000000 := by
  unfold ofMag64
  split <;> simp [key64, signed] <;> omega

theorem neg64_ofMag64 (m : Nat) : neg64 (ofMag64 false m) = ofMag64 true m := by
  unfold ofMag64; split <;> rfl

/-- `round64` is a rounding of the signed exact value. -/
theorem round64_roundsTo {n : Nat} {e : ℤ} {sticky : Bool} {x : ℝ} (neg : Bool)
    (hx : Represents fmt64 n e sticky x) (hx0 : n = 0 → sticky = false) :
    RoundsTo (round64 neg n e sticky) (if neg then -x else x) := by
  have hxn : 0 ≤ x := by
    have h0 : (0 : ℝ) ≤ (n : ℝ) * 2 ^ e := mul_nonneg (Nat.cast_nonneg _) (two_zpow_pos _).le
    unfold Represents at hx
    split at hx
    · linarith [hx.1]
    · rw [hx]; exact h0
  have pos : RoundsTo (round64 false n e sticky) x := by
    refine ⟨ofMag64_ne_nan _ _, fun z hz => ?_⟩
    obtain ⟨nz, mz, rfl⟩ := (isFinite64_iff z).mp hz
    have hlt := mz.isLt
    have hz0 := magVal_nonneg fmt64 mz.val
    rw [realOf_fin, round64, key64_ofMag64_false]
    cases nz
    · simp only [key64, signed, if_false, Bool.false_eq_true]
      constructor
      · intro h
        have := roundMag_le (by decide) hx hx0 h
        omega
      · intro h
        have := le_roundMag (by decide) hx hx0 h
        omega
    · simp only [key64, signed, if_true]
      constructor
      · intro h
        have hx' : x = 0 := by linarith
        have hm : magVal fmt64 mz.val ≤ 0 := by linarith
        have hm0 : mz.val = 0 := by
          by_contra hne
          have := magVal_strictMono fmt64 (Nat.pos_of_ne_zero hne)
          rw [magVal_zero] at this
          linarith
        have := roundMag_le (by decide) hx hx0 (z := 0) (by rw [magVal_zero]; linarith)
        omega
      · intro _; omega
  cases neg
  · simpa using pos
  · have := pos.neg
    rw [round64, neg64_ofMag64] at this
    simpa [round64] using this

theorem represents_exact (f : Format) (n : Nat) (e : ℤ) : Represents f n e false ((n : ℝ) * 2 ^ e) := by
  simp [Represents]

/-- `y` is what `round64` makes of the real `x`: every operation on finite values is (R12). -/
def IsRounding (y : B64) (x : ℝ) : Prop :=
  ∃ neg n e sticky x', Represents fmt64 n e sticky x' ∧ (n = 0 → sticky = false) ∧ y = round64 neg n e sticky ∧
    x = (if neg then -x' else x')

theorem IsRounding.roundsTo {y : B64} {x : ℝ} (h : IsRounding y x) : RoundsTo y x := by
  obtain ⟨neg, n, e, sticky, x', hx, hx0, rfl, rfl⟩ := h
  exact round64_roundsTo neg hx hx0

theorem isRounding_exact (neg : Bool) (n : Nat) (e : ℤ) :
    IsRounding (round64 neg n e false) (if neg then -((n : ℝ) * 2 ^ e) else (n : ℝ) * 2 ^ e) :=
  ⟨neg, n, e, false, _, represents_exact fmt64 n e, fun _ => rfl, rfl, rfl⟩

/-! ### The operations on finite values -/

theorem realOf_fin_sig (neg : Bool) (mag : Fin 0x7FF0000000000000) :
    realOf (.fin neg mag) = (signed neg (sigOf fmt64 mag.val) : ℝ) * 2 ^ expOf fmt64 mag.val := by
  unfold realOf ratOf
  push_cast
  rfl

theorem realOf_zero64 (neg : Bool) : realOf (zero64 neg) = 0 := by
  rw [zero64, realOf_fin]; cases neg <;> simp

/-- A zero is a rounding of 0. -/
theorem zero64_isRounding (neg : Bool) : IsRounding (zero64 neg) 0 := by
  have := isRounding_exact neg 0 0
  simpa [round64, roundMag, ofMag64, zero64] using this

/-- `a + b` (R12). -/
theorem add64_isRounding {a b : B64} (ha : isFinite64 a = true) (hb : isFinite64 b = true) :
    IsRounding (add64 a b) (realOf a + realOf b) := by
  obtain ⟨na, ma, rfl⟩ := (isFinite64_iff a).mp ha
  obtain ⟨nb, mb, rfl⟩ := (isFinite64_iff b).mp hb
  rw [realOf_fin_sig, realOf_fin_sig]
  simp only [add64, addFin]
  generalize expOf fmt64 ma.val = ea
  generalize expOf fmt64 mb.val = eb
  generalize sigOf fmt64 ma.val = sa
  generalize sigOf fmt64 mb.val = sb
  have key : ∀ (neg : Bool) (s : Nat) (e e' : ℤ), e' ≤ e →
      (signed neg s : ℝ) * 2 ^ e = (signed neg (s * 2 ^ (e - e').toNat) : ℝ) * 2 ^ e' := by
    intro neg s e e' h
    have hd : ((e - e').toNat : ℤ) = e - e' := Int.toNat_of_nonneg (by omega)
    have hp : (2 : ℝ) ^ e = 2 ^ (e - e').toNat * 2 ^ e' := by
      rw [← zpow_natCast, hd, ← zpow_add₀ (by norm_num)]; congr 1; omega
    rw [hp]
    cases neg <;> simp [signed] <;> ring
  rw [key na sa ea (min ea eb) (min_le_left _ _), key nb sb eb (min ea eb) (min_le_right _ _), ← add_mul]
  rw [show ((signed na (sa * 2 ^ (ea - min ea eb).toNat) : ℤ) : ℝ) + ((signed nb (sb * 2 ^ (eb - min ea eb).toNat) : ℤ) : ℝ)
    = ((signed na (sa * 2 ^ (ea - min ea eb).toNat) + signed nb (sb * 2 ^ (eb - min ea eb).toNat) : ℤ) : ℝ) by push_cast; rfl]
  generalize signed na (sa * 2 ^ (ea - min ea eb).toNat) + signed nb (sb * 2 ^ (eb - min ea eb).toNat) = x
  split
  · next h => subst h; simpa using zero64_isRounding _
  · next h =>
    have := isRounding_exact (decide (x < 0)) x.natAbs (min ea eb)
    rcases lt_or_gt_of_ne h with hx | hx
    · simp only [hx, decide_true, if_true] at this ⊢
      have e : ((x.natAbs : Nat) : ℝ) = -(x : ℝ) := by
        rw [← Int.cast_natCast, Int.ofNat_natAbs_of_nonpos hx.le]; push_cast; rfl
      rw [e] at this
      convert this using 1; ring
    · have hx' : ¬ x < 0 := by omega
      simp only [hx', decide_false, Bool.false_eq_true, if_false] at this ⊢
      have e : ((x.natAbs : Nat) : ℝ) = (x : ℝ) := by
        rw [← Int.cast_natCast, Int.natAbs_of_nonneg hx.le]
      rw [e] at this
      exact this

/-- `a - b` (R12). -/
theorem sub64_isRounding {a b : B64} (ha : isFinite64 a = true) (hb : isFinite64 b = true) :
    IsRounding (sub64 a b) (realOf a - realOf b) := by
  have := add64_isRounding ha (b := neg64 b) (by simpa using hb)
  rw [realOf_neg64] at this
  simpa [sub64, sub_eq_add_neg] using this

theorem signed_mul (na nb : Bool) (x y : Nat) :
    (signed na x : ℝ) * (signed nb y : ℝ) = if (na ^^ nb) then -((x * y : Nat) : ℝ) else ((x * y : Nat) : ℝ) := by
  cases na <;> cases nb <;> simp [signed]

/-- `a * b` (R12). -/
theorem mul64_isRounding {a b : B64} (ha : isFinite64 a = true) (hb : isFinite64 b = true) :
    IsRounding (mul64 a b) (realOf a * realOf b) := by
  obtain ⟨na, ma, rfl⟩ := (isFinite64_iff a).mp ha
  obtain ⟨nb, mb, rfl⟩ := (isFinite64_iff b).mp hb
  have := isRounding_exact (na ^^ nb) (sigOf fmt64 ma.val * sigOf fmt64 mb.val)
    (expOf fmt64 ma.val + expOf fmt64 mb.val)
  rw [realOf_fin_sig, realOf_fin_sig]
  simp only [mul64, mulFin]
  convert this using 1
  rw [zpow_add₀ (by norm_num), mul_mul_mul_comm, signed_mul]
  split <;> ring

theorem sigOf_pos {m : Nat} (h : m ≠ 0) : 0 < sigOf fmt64 m := by
  unfold sigOf
  split
  · omega
  · have := Nat.two_pow_pos fmt64.fracBits; omega

theorem sigOf_lt (m : Nat) : sigOf fmt64 m < 2 ^ 53 := by
  have h := Nat.mod_lt m (Nat.two_pow_pos fmt64.fracBits)
  have e : 2 ^ 53 = 2 * 2 ^ fmt64.fracBits := by norm_num [fmt64]
  unfold sigOf
  split <;> omega

theorem realOf_ne_zero {neg : Bool} {mag : Fin 0x7FF0000000000000} (h : mag.val ≠ 0) : realOf (.fin neg mag) ≠ 0 := by
  rw [realOf_fin_sig]
  have h1 := sigOf_pos h
  have h2 := two_zpow_pos (expOf fmt64 mag.val)
  refine mul_ne_zero ?_ h2.ne'
  cases neg <;> simp [signed] <;> omega

/-- `a / b` for a non-zero divisor (R12). -/
theorem div64_isRounding {a b : B64} (ha : isFinite64 a = true) (hb : isFinite64 b = true) (h0 : realOf b ≠ 0) :
    IsRounding (div64 a b) (realOf a / realOf b) := by
  obtain ⟨na, ma, rfl⟩ := (isFinite64_iff a).mp ha
  obtain ⟨nb, mb, rfl⟩ := (isFinite64_iff b).mp hb
  have hb0 : mb.val ≠ 0 := by
    intro h
    rw [realOf_fin, h, magVal_zero] at h0
    simp at h0
  have hd := sigOf_pos hb0
  have hdlt := sigOf_lt mb.val
  simp only [div64, divFin, hb0, if_false]
  rw [realOf_fin_sig, realOf_fin_sig]
  generalize sigOf fmt64 mb.val = d at *
  generalize sigOf fmt64 ma.val = s
  generalize expOf fmt64 ma.val = ea
  generalize expOf fmt64 mb.val = eb
  set n := s * 2 ^ 108 with hn
  have hdm := Nat.div_add_mod n d
  have hmod := Nat.mod_lt n hd
  have hdR : (0 : ℝ) < d := by exact_mod_cast hd
  have hp := two_zpow_pos (ea - eb - 108)
  have hrep : Represents fmt64 (n / d) (ea - eb - 108) (decide (n % d ≠ 0)) ((n : ℝ) / d * 2 ^ (ea - eb - 108)) := by
    unfold Represents
    by_cases hr : n % d = 0
    · simp only [hr, ne_eq, not_true_eq_false, decide_false, Bool.false_eq_true, if_false]
      congr 1
      have : (n : ℝ) = d * ((n / d : Nat) : ℝ) := by rw [hr, Nat.add_zero] at hdm; exact_mod_cast hdm.symm
      rw [this]; field_simp
    · simp only [ne_eq, hr, not_false_eq_true, decide_true, if_true]
      have e : (n : ℝ) = d * ((n / d : Nat) : ℝ) + ((n % d : Nat) : ℝ) := by exact_mod_cast hdm.symm
      have r0 : (0 : ℝ) < ((n % d : Nat) : ℝ) := by exact_mod_cast Nat.pos_of_ne_zero hr
      have r1 : ((n % d : Nat) : ℝ) < d := by exact_mod_cast hmod
      refine ⟨?_, ?_, ?_⟩
      · refine mul_lt_mul_of_pos_right ?_ hp
        rw [lt_div_iff₀ hdR, e]; linarith [mul_comm (d : ℝ) ((n / d : Nat) : ℝ)]
      · refine mul_lt_mul_of_pos_right ?_ hp
        rw [div_lt_iff₀ hdR, e, add_mul, one_mul]; linarith [mul_comm (d : ℝ) ((n / d : Nat) : ℝ)]
      · have hs : 0 < s := by
          by_contra h
          have : s = 0 := by omega
          rw [this, Nat.zero_mul] at hn
          rw [hn, Nat.zero_mod] at hr
          exact hr rfl
        rw [show fmt64.fracBits + 2 = 54 from rfl, Nat.le_div_iff_mul_le hd]
        calc 2 ^ 54 * d ≤ 2 ^ 54 * 2 ^ 53 := Nat.mul_le_mul_left _ hdlt.le
          _ ≤ 1 * 2 ^ 108 := by norm_num
          _ ≤ n := Nat.mul_le_mul_right _ hs
  have hx0 : n / d = 0 → decide (n % d ≠ 0) = false := by
    intro h
    by_contra hne
    simp only [Bool.not_eq_false, decide_eq_true_eq] at hne
    simp only [Represents, decide_true, hne, ne_eq, not_false_eq_true, if_true] at hrep
    have := hrep.2.2
    rw [h] at this
    have := Nat.two_pow_pos (fmt64.fracBits + 2)
    omega
  refine ⟨na ^^ nb, _, _, _, _, hrep, hx0, rfl, ?_⟩
  have e108 : (2 : ℝ) ^ (ea - eb - 108) = 2 ^ ea / 2 ^ eb / 2 ^ (108 : ℕ) := by
    rw [zpow_sub₀ (by norm_num), zpow_sub₀ (by norm_num)]; norm_cast
  have e1 : (n : ℝ) / d * 2 ^ (ea - eb - 108) = (s : ℝ) / d * (2 ^ ea / 2 ^ eb) := by
    have h1 : (2 : ℝ) ^ eb ≠ 0 := (two_zpow_pos eb).ne'
    rw [hn, e108, Nat.cast_mul, Nat.cast_pow, Nat.cast_ofNat]; field_simp
  rw [e1]
  have h1 : (2 : ℝ) ^ eb ≠ 0 := (two_zpow_pos eb).ne'
  cases na <;> cases nb <;> simp [signed] <;> field_simp

/-! ### Widening -/

theorem sigOf32_lt (m : Nat) : sigOf fmt32 m < 2 ^ 24 := by
  have h := Nat.mod_lt m (Nat.two_pow_pos fmt32.fracBits)
  have e : 2 ^ 24 = 2 * 2 ^ fmt32.fracBits := by norm_num [fmt32]
  unfold sigOf
  split <;> omega

theorem expOf32_range {m : Nat} (h : m < 0x7F800000) : -149 ≤ expOf fmt32 m ∧ expOf fmt32 m ≤ 104 := by
  have e : 2 ^ fmt32.fracBits = 8388608 := by norm_num [fmt32]
  have e' : fmt32.minExp = -149 := rfl
  unfold expOf
  rw [e, e']
  by_cases h' : m < 8388608
  · rw [if_pos h']; omega
  · rw [if_neg h']; omega

/-- `s * 2^e` is a binary64 magnitude when `s` has at most 53 bits and `e` is in range. -/
theorem magVal64_of_sig {s : Nat} {e : ℤ} (hs : s < 2 ^ 53) (h1 : -1074 ≤ e) (h2 : e ≤ 900) :
    ∃ z, z < 0x7FF0000000000000 ∧ magVal fmt64 z = (s : ℝ) * 2 ^ e := by
  by_cases h0 : s = 0
  · exact ⟨0, by norm_num, by rw [magVal_zero, h0]; simp⟩
  · -- normalise, but not below the least exponent
    have hlog1 : 2 ^ Nat.log2 s ≤ s := Nat.log2_self_le h0
    have hlog2 : s < 2 ^ (Nat.log2 s + 1) := Nat.lt_log2_self
    generalize Nat.log2 s = L at *
    have hL : L ≤ 52 := by
      have := lt_of_le_of_lt hlog1 hs
      have := (Nat.pow_lt_pow_iff_right (by norm_num)).mp this
      omega
    obtain ⟨d, hd, hdd⟩ : ∃ d : Nat, d ≤ 52 - L ∧ (d : ℤ) ≤ e + 1074 ∧ (d = 52 - L ∨ (d : ℤ) = e + 1074) := by
      rcases le_total ((52 - L : Nat) : ℤ) (e + 1074) with h | h
      · exact ⟨52 - L, le_refl _, h, .inl rfl⟩
      · exact ⟨(e + 1074).toNat, by omega, by omega, .inr (by omega)⟩
    obtain ⟨k, hk⟩ : ∃ k : Nat, (k : ℤ) = e + 1074 - d := ⟨(e + 1074 - d).toNat, by omega⟩
    have hm2 : s * 2 ^ d < 2 ^ 53 := by
      calc s * 2 ^ d < 2 ^ (L + 1) * 2 ^ d := Nat.mul_lt_mul_of_pos_right hlog2 (Nat.two_pow_pos _)
        _ = 2 ^ (L + 1 + d) := (pow_add _ _ _).symm
        _ ≤ 2 ^ 53 := Nat.pow_le_pow_right (by norm_num) (by omega)
    have h1' : k = 0 ∨ 2 ^ fmt64.fracBits ≤ s * 2 ^ d := by
      rcases hdd.2 with h | h
      · right
        calc 2 ^ 52 = 2 ^ L * 2 ^ d := by rw [← pow_add]; congr 1; omega
          _ ≤ s * 2 ^ d := Nat.mul_le_mul_right _ hlog1
      · left; omega
    refine ⟨k * 2 ^ fmt64.fracBits + s * 2 ^ d, ?_, ?_⟩
    · have : k ≤ 1974 := by omega
      have e52 : 2 ^ fmt64.fracBits = 4503599627370496 := by norm_num [fmt64]
      rw [e52]
      omega
    · have hu : magVal fmt64 (k * 2 ^ fmt64.fracBits + s * 2 ^ d) =
          (magUnits fmt64 (k * 2 ^ fmt64.fracBits + s * 2 ^ d) : ℝ) * 2 ^ fmt64.minExp := rfl
      rw [hu, magUnits_binade fmt64 h1' hm2.le]
      push_cast
      rw [mul_assoc, mul_assoc, ← zpow_natCast, ← zpow_natCast, ← zpow_add₀ (by norm_num), ← zpow_add₀ (by norm_num)]
      congr 2
      rw [hk]; simp only [fmt64]; omega

/-- `round64` of a value with at most 53 significant bits is that value (R12: conversions to binary64 are exact). -/
theorem round64_exact {s : Nat} {e : ℤ} (neg : Bool) (hs : s < 2 ^ 53) (h1 : -1074 ≤ e) (h2 : e ≤ 900) :
    isFinite64 (round64 neg s e false) = true ∧
      realOf (round64 neg s e false) = (if neg then -((s : ℝ) * 2 ^ e) else (s : ℝ) * 2 ^ e) := by
  obtain ⟨z, hz, hv⟩ := magVal64_of_sig hs h1 h2
  rw [round64, roundMag_exact (by decide) hv.symm, ofMag64, dif_pos hz, realOf_fin]
  exact ⟨rfl, by simp [hv]⟩

end Sys2Proof.Machine
end

