-- ==== Sys2Proof/Laws/Convert.lean ====
section
/-! SUPPORT. The square root and the conversions (spec 00_scope R12; 41_process R501, R506, R516): `sqrt` is rounded once,
`f64` is exact on binary32 values and on rates, `r32` keeps the order. -/

namespace Sys2Proof.Machine

/-! ### Square root -/

theorem isqrtFrom_spec (n : Nat) : ∀ k r, r * r ≤ n → n < (r + 2 ^ k) * (r + 2 ^ k) →
    isqrtFrom n k r * isqrtFrom n k r ≤ n ∧ n < (isqrtFrom n k r + 1) * (isqrtFrom n k r + 1) := by
  intro k
  induction k with
  | zero => exact fun r h1 h2 => ⟨h1, h2⟩
  | succ k ih =>
    intro r h1 h2
    rw [isqrtFrom]
    have e : 2 ^ (k + 1) = 2 ^ k + 2 ^ k := by rw [pow_succ]; ring
    split
    · next h => exact ih _ h (by rw [Nat.add_assoc, ← e]; exact h2)
    · next h => exact ih _ h1 (by omega)

/-- The integer square root. -/
theorem isqrt_spec {n : Nat} (h : n < 2 ^ 166) : isqrt n * isqrt n ≤ n ∧ n < (isqrt n + 1) * (isqrt n + 1) :=
  isqrtFrom_spec n 83 0 (Nat.zero_le _) (by
    have e : (0 + 2 ^ 83) * (0 + 2 ^ 83) = 2 ^ 166 := by norm_num
    rw [e]; exact h)

/-- `sqrt(a)` of a positive value (R12, R506). -/
theorem sqrt64_isRounding {a : B64} (ha : isFinite64 a = true) (h0 : 0 < realOf a) :
    IsRounding (sqrt64 a) (Real.sqrt (realOf a)) := by
  obtain ⟨na, ma, rfl⟩ := (isFinite64_iff a).mp ha
  have hm0 : ma.val ≠ 0 := by
    intro h
    rw [realOf_fin, h, magVal_zero] at h0
    simp at h0
  have hna : na = false := by
    cases na
    · rfl
    · rw [realOf_fin] at h0
      have := magVal_nonneg fmt64 ma.val
      simp only [if_true] at h0
      linarith
  subst hna
  have hs := sigOf_pos hm0
  have hlt := sigOf_lt ma.val
  rw [realOf_fin_sig] at h0 ⊢
  simp only [sqrt64, hm0, if_false, Bool.false_eq_true, signed]
  generalize sigOf fmt64 ma.val = s at *
  generalize expOf fmt64 ma.val = e at *
  obtain ⟨k, hk, hkr, hpar⟩ : ∃ k : Nat, (if e % 2 = 0 then 110 else 111) = k ∧ (110 ≤ k ∧ k ≤ 111) ∧ (e - k) % 2 = 0 := by
    by_cases h : e % 2 = 0
    · exact ⟨110, by simp [h], by omega, by omega⟩
    · exact ⟨111, by simp [h], by omega, by omega⟩
  rw [hk]
  obtain ⟨j, hj⟩ : ∃ j : ℤ, e - k = 2 * j := ⟨(e - k) / 2, by omega⟩
  have hj2 : (e - (k : ℤ)) / 2 = j := by omega
  rw [hj2]
  generalize hn : s * 2 ^ k = n
  have hn166 : n < 2 ^ 166 := by
    rw [← hn]
    calc s * 2 ^ k < 2 ^ 53 * 2 ^ k := Nat.mul_lt_mul_of_pos_right hlt (Nat.two_pow_pos _)
      _ ≤ 2 ^ 53 * 2 ^ 111 := Nat.mul_le_mul_left _ (Nat.pow_le_pow_right (by norm_num) hkr.2)
      _ ≤ 2 ^ 166 := by norm_num
  have hn110 : 2 ^ 110 ≤ n := by
    rw [← hn]
    calc 2 ^ 110 ≤ 1 * 2 ^ k := by rw [Nat.one_mul]; exact Nat.pow_le_pow_right (by norm_num) hkr.1
      _ ≤ s * 2 ^ k := Nat.mul_le_mul_right _ hs
  obtain ⟨r1, r2⟩ := isqrt_spec hn166
  generalize isqrt n = r at *
  have hr54 : 2 ^ 54 ≤ r := by
    by_contra h
    have : r + 1 ≤ 2 ^ 54 := by omega
    have := Nat.mul_le_mul this this
    have e1 : 2 ^ 54 * 2 ^ 54 < 2 ^ 110 := by norm_num
    omega
  have hval : (s : ℝ) * 2 ^ e = n * (2 ^ j) ^ 2 := by
    have : (2 : ℝ) ^ e = 2 ^ k * (2 ^ j) ^ 2 := by
      rw [← zpow_natCast, ← zpow_natCast (_ ^ j), ← zpow_mul, ← zpow_add₀ (by norm_num)]
      congr 1; push_cast; omega
    rw [this, ← hn]; push_cast; ring
  have hpj := two_zpow_pos j
  have hsq : Real.sqrt ((s : ℝ) * 2 ^ e) = Real.sqrt n * 2 ^ j := by
    rw [hval, Real.sqrt_mul (Nat.cast_nonneg _), Real.sqrt_sq hpj.le]
  have hrep : Represents fmt64 r j (decide (r * r ≠ n)) (Real.sqrt n * 2 ^ j) := by
    unfold Represents
    by_cases hr : r * r = n
    · simp only [hr, ne_eq, not_true_eq_false, decide_false, Bool.false_eq_true, if_false]
      congr 1
      rw [← hr]; push_cast
      exact Real.sqrt_mul_self (Nat.cast_nonneg _)
    · simp only [ne_eq, hr, not_false_eq_true, decide_true, if_true]
      refine ⟨mul_lt_mul_of_pos_right ?_ hpj, mul_lt_mul_of_pos_right ?_ hpj, hr54⟩
      · rw [Real.lt_sqrt (Nat.cast_nonneg _), sq]
        have : r * r < n := lt_of_le_of_ne r1 hr
        exact_mod_cast this
      · rw [Real.sqrt_lt' (by positivity), sq]
        exact_mod_cast r2
  have e2 : ((s : ℤ) : ℝ) = (s : ℝ) := Int.cast_natCast s
  rw [e2, hsq]
  exact ⟨false, r, j, _, _, hrep, fun h => by have := Nat.two_pow_pos 54; omega, rfl, by simp⟩

/-! ### Exact conversions -/

/-- `f64(v)` is exact (R12). -/
theorem widen_exact (neg : Bool) (mag : Fin 0x7F800000) :
    isFinite64 (widen (.fin neg mag)) = true ∧ realOf (widen (.fin neg mag)) = ((ratOf32 (.fin neg mag) : ℚ) : ℝ) := by
  have hr := expOf32_range mag.isLt
  have hs := sigOf32_lt mag.val
  obtain ⟨h1, h2⟩ := round64_exact (s := sigOf fmt32 mag.val) (e := expOf fmt32 mag.val) neg (by omega) (by omega) (by omega)
  refine ⟨h1, ?_⟩
  rw [widen, h2, ratOf32]
  push_cast
  cases neg <;> simp [signed]

/-- `f64(rate)` is exact (R501). -/
theorem ofNat64_exact {n : Nat} (h : n < 2 ^ 53) : isFinite64 (ofNat64 n) = true ∧ realOf (ofNat64 n) = n := by
  obtain ⟨h1, h2⟩ := round64_exact (s := n) (e := 0) false h (by norm_num) (by norm_num)
  exact ⟨h1, by rw [ofNat64, h2]; simp⟩

/-! ### The order of binary32 patterns -/

theorem ratOf32_fin (neg : Bool) (mag : Fin 0x7F800000) :
    ((ratOf32 (.fin neg mag) : ℚ) : ℝ) = (if neg then -magVal fmt32 mag.val else magVal fmt32 mag.val) := by
  unfold ratOf32 signed
  rw [magVal_eq]
  cases neg <;> push_cast <;> simp

/-- The keys of finite binary32 values are in the order of the values. -/
theorem key32_le_iff (na nb : Bool) (ma mb : Fin 0x7F800000) :
    key32 (.fin na ma) ≤ key32 (.fin nb mb) ↔ ratOf32 (.fin na ma) ≤ ratOf32 (.fin nb mb) := by
  have hm := magVal_strictMono fmt32
  have h0 := magVal_zero fmt32
  have ha0 := magVal_nonneg fmt32 ma.val
  have hb0 := magVal_nonneg fmt32 mb.val
  have hpos : ∀ m, magVal fmt32 m ≤ 0 → m = 0 := fun m h => by
    by_contra hne
    have := hm (Nat.pos_of_ne_zero hne)
    rw [h0] at this
    linarith
  rw [← Rat.cast_le (K := ℝ), ratOf32_fin, ratOf32_fin]
  cases na <;> cases nb <;> simp only [key32, signed, if_true, if_false, Bool.false_eq_true]
  · rw [hm.le_iff_le]; exact Int.ofNat_le
  · constructor
    · intro h
      have h1 : ma.val = 0 := by omega
      have h2 : mb.val = 0 := by omega
      rw [h1, h2, h0]; simp
    · intro h
      have h1 := hpos ma.val (by linarith)
      have h2 := hpos mb.val (by linarith)
      omega
  · constructor
    · intro _; linarith
    · intro _; omega
  · rw [neg_le_neg_iff, neg_le_neg_iff, hm.le_iff_le]; exact Int.ofNat_le

/-! ### r32 -/

theorem sig_represents (mag : Fin 0x7FF0000000000000) :
    Represents fmt32 (sigOf fmt64 mag.val) (expOf fmt64 mag.val) false (magVal fmt64 mag.val) := by
  rw [magVal_eq]; exact represents_exact _ _ _

/-- The pattern of `r32(v)` is at least a pattern whose value `|v|` reaches (R516). -/
theorem le_narrowMag {mag : Fin 0x7FF0000000000000} {z : Nat} (h : magVal fmt32 z ≤ magVal fmt64 mag.val) :
    z ≤ roundMag fmt32 (sigOf fmt64 mag.val) (expOf fmt64 mag.val) false :=
  le_roundMag (by decide) (sig_represents mag) (fun _ => rfl) h

end Sys2Proof.Machine
end

