-- ==== Sys2Proof/Laws/Relative.lean ====
section
/-! SUPPORT. The relative error of the binary64 operations on values of normal size: at most `2^-53` (spec 00_scope R12,
41_process R526). -/

namespace Sys2Proof.Machine

theorem realOf_ofMag64 {m : Nat} (h : m < 0x7FF0000000000000) (neg : Bool) :
    isFinite64 (ofMag64 neg m) = true ∧ realOf (ofMag64 neg m) = (if neg then -magVal fmt64 m else magVal fmt64 m) := by
  rw [ofMag64, dif_pos h, realOf_fin]
  exact ⟨rfl, rfl⟩

/-- The rounding of a magnitude of normal size is finite and off by at most `2^-53` of it. -/
theorem roundMag_relative {n : Nat} {e : ℤ} {sticky : Bool} {x : ℝ} (hx : Represents fmt64 n e sticky x)
    (h0 : n = 0 → sticky = false) (hlo : (2 : ℝ) ^ (-1022 : ℤ) ≤ x) (hhi : x ≤ 2 ^ (900 : ℤ)) :
    roundMag fmt64 n e sticky < 0x7FF0000000000000 ∧
      |magVal fmt64 (roundMag fmt64 n e sticky) - x| ≤ x / 2 ^ 53 := by
  have hxp : 0 < x := lt_of_lt_of_le (two_zpow_pos _) hlo
  have hn : n ≠ 0 := by
    intro hn
    simp only [Represents, h0 hn, hn, Bool.false_eq_true, if_false, Nat.cast_zero, zero_mul] at hx
    linarith
  constructor
  · obtain ⟨z, hz, hv⟩ := magVal64_of_sig (s := 1) (e := 900) (by norm_num) (by norm_num) (by norm_num)
    have := roundMag_le (by decide) hx h0 (z := z) (by rw [hv]; simpa using hhi)
    omega
  · obtain ⟨k, m, hM, h1, h2, herr, -, hbot⟩ := roundMag_spec hn hx
    have hval : magVal fmt64 (roundMag fmt64 n e sticky) = (m : ℝ) * 2 ^ (fmt64.minExp + k) := by
      rw [hM, magVal, magUnits_binade fmt64 h1 h2]
      push_cast
      rw [mul_assoc, ← zpow_natCast, ← zpow_add₀ (by norm_num)]
      congr 2
    rw [hval]
    refine le_trans herr ?_
    rw [div_le_div_iff₀ (by norm_num) (by norm_num)]
    by_cases hk : k = 0
    · subst hk
      have e1 : (2 : ℝ) ^ (fmt64.minExp + (0 : ℕ)) * 2 ^ 53 = 2 ^ (-1022 : ℤ) * 2 := by
        simp only [fmt64]
        rw [← zpow_natCast, ← zpow_add₀ (by norm_num), ← zpow_add_one₀ (by norm_num)]
        norm_num
      rw [e1]
      linarith
    · have hb := hbot hk
      have e2 : (2 : ℝ) ^ fmt64.fracBits = 2 ^ 52 := rfl
      rw [e2] at hb
      nlinarith

/-- Every operation on finite values whose exact result has normal size answers a finite value, off by at most `2^-53` of
that result. -/
theorem IsRounding.relative {y : B64} {x : ℝ} (h : IsRounding y x) (hlo : (2 : ℝ) ^ (-1022 : ℤ) ≤ |x|)
    (hhi : |x| ≤ 2 ^ (900 : ℤ)) : isFinite64 y = true ∧ |realOf y - x| ≤ |x| / 2 ^ 53 := by
  obtain ⟨neg, n, e, sticky, x', hx, h0, rfl, rfl⟩ := h
  have hx0 : 0 ≤ x' := by
    have hp : (0 : ℝ) ≤ (n : ℝ) * 2 ^ e := mul_nonneg (Nat.cast_nonneg _) (two_zpow_pos _).le
    unfold Represents at hx
    split at hx
    · linarith [hx.1]
    · linarith
  have e1 : |if neg then -x' else x'| = x' := by cases neg <;> simp [abs_of_nonneg hx0]
  rw [e1] at hlo hhi ⊢
  obtain ⟨h1, h2⟩ := roundMag_relative hx h0 hlo hhi
  obtain ⟨h3, h4⟩ := realOf_ofMag64 h1 neg
  rw [round64]
  refine ⟨h3, ?_⟩
  rw [h4]
  cases neg
  · simpa using h2
  · simp only [if_true]
    rw [← abs_neg]
    simpa [sub_eq_add_neg, add_comm] using h2

end Sys2Proof.Machine
end

