-- ==== Sys2Proof/Machine/Reference.lean ====
section
/-! DEFINITION. One computable triple of functions with the properties of 41_process R503: power series summed exactly and
rounded. It shows that the type the instance's functions are taken from is inhabited (log entry 4); no instance is assumed to
use it, and nothing in the model can evaluate it through the opaque constant. -/

namespace Sys2Proof.Machine

/-- The error allowed to a series, far below every unit in the last place. -/
def seriesError : ℚ := 2 ^ (-1080 : ℤ)

/-- The binary64 nearest a rational of moderate size, exactly one unit wide where the unit is `2^t`. -/
def nearest64 (q : ℚ) : B64 :=
  let a := |q|
  let t : ℤ := if 2 ^ (-1022 : ℤ) ≤ a - seriesError then Int.log 2 (a - seriesError) - 52 else -1074
  let s := ⌊a / 2 ^ t + 1 / 2⌋₊
  if s < 2 ^ 53 then round64 (decide (q < 0)) s t false else round64 (decide (q < 0)) (2 ^ 52) (t + 1) false

/-- `z^m / m!` for `z = a + b i`, as its two parts. -/
def expTerm (a b : ℚ) : Nat → ℚ × ℚ
  | 0 => (1, 0)
  | m + 1 =>
    let p := expTerm a b m
    ((p.1 * a - p.2 * b) / (m + 1), (p.1 * b + p.2 * a) / (m + 1))

/-- The first `n` terms of the exponential series at `a + b i`. -/
def expSum (a b : ℚ) : Nat → ℚ × ℚ
  | 0 => (0, 0)
  | m + 1 => ((expSum a b m).1 + (expTerm a b m).1, (expSum a b m).2 + (expTerm a b m).2)

/-- The first `n` terms of `log 10 = Σ (9/10)^(m+1) / (m+1)`. -/
def logTenSum : Nat → ℚ
  | 0 => 0
  | m + 1 => logTenSum m + (9 / 10) ^ (m + 1) / (m + 1)

/-- The least positive binary64 where a rounding is not positive. -/
def keepPositive (y : B64) : B64 := if 0 < ratOf y then y else ofMag64 false 1

/-- The binary64 next to ±1 where a rounding reaches ±1. -/
def keepBelowOne (y : B64) : B64 :=
  if 1 ≤ ratOf y then ofBits64 0x3FEFFFFFFFFFFFFF
  else if ratOf y ≤ -1 then ofBits64 0xBFEFFFFFFFFFFFFF
  else y

/-- Three functions that meet R503 (`Laws.Reference`: `referenceLibm_meets`). -/
def referenceLibm : Libm where
  sin64 w := keepPositive (nearest64 (expSum 0 (ratOf w) 400).2)
  cos64 w := keepBelowOne (nearest64 (expSum 0 (ratOf w) 400).1)
  pow10 x :=
    if eq64 x .posZero then one64
    else keepPositive (nearest64 (expSum (ratOf x * logTenSum 7777) 0 400).1)

end Sys2Proof.Machine
end

