-- ==== Sys2Proof/Laws/Reference.lean ====
section
/-! SUPPORT. The functions of Machine.Reference meet 41_process R503, (d) included: the series are within `2^-1080` of the exact
functions, rounding such a value lands within one unit in the last place, and the two corrections at the edges of the ranges
stay within it. -/

namespace Sys2Proof.Machine

/-! ### The series -/

theorem expTerm_eq (a b : ℚ) (m : ℕ) :
    ((expTerm a b m).1 : ℂ) + ((expTerm a b m).2 : ℂ) * Complex.I =
      ((a : ℂ) + (b : ℂ) * Complex.I) ^ m / (m.factorial : ℂ) := by
  induction m with
  | zero => simp [expTerm]
  | succ m ih =>
    rw [pow_succ, Nat.factorial_succ]
    have hm : ((m : ℂ) + 1) ≠ 0 := by exact_mod_cast Nat.succ_ne_zero m
    have hf : (m.factorial : ℂ) ≠ 0 := by exact_mod_cast Nat.factorial_ne_zero m
    rw [eq_div_iff hf] at ih
    rw [← ih]
    simp only [expTerm]
    push_cast
    field_simp
    linear_combination (-((expTerm a b m).2 : ℂ) * (b : ℂ)) * Complex.I_sq

/-- A partial sum of the series, as a complex number. -/
theorem expSum_eq (a b : ℚ) (n : ℕ) :
    ((expSum a b n).1 : ℂ) + ((expSum a b n).2 : ℂ) * Complex.I =
      ∑ m ∈ Finset.range n, ((a : ℂ) + (b : ℂ) * Complex.I) ^ m / (m.factorial : ℂ) := by
  induction n with
  | zero => simp [expSum]
  | succ n ih =>
    rw [Finset.sum_range_succ, ← ih, ← expTerm_eq]
    simp only [expSum]
    push_cast; ring

/-- The tail of the series after 400 terms, on arguments of modulus at most 3. -/
theorem small_tail : 2 * 3 ^ 400 * 2 ^ 1085 ≤ Nat.factorial 400 := by decide +kernel

/-- 400 terms give the exponential of every argument of modulus at most 3 to `2^-1085`. -/
theorem exp_error {a b : ℚ} (h : ‖(a : ℂ) + (b : ℂ) * Complex.I‖ ≤ 3) :
    ‖Complex.exp ((a : ℂ) + (b : ℂ) * Complex.I) -
      (((expSum a b 400).1 : ℂ) + ((expSum a b 400).2 : ℂ) * Complex.I)‖ ≤ 2 ^ (-1085 : ℤ) := by
  rw [expSum_eq]
  refine le_trans (Complex.exp_bound' ?_) ?_
  · rw [div_le_iff₀ (by positivity)]
    refine le_trans h ?_
    norm_num
  · have h1 := pow_le_pow_left₀ (norm_nonneg _) h 400
    have hf : (0 : ℝ) < (Nat.factorial 400 : ℝ) := by exact_mod_cast Nat.factorial_pos 400
    have h2 : (2 * 3 ^ 400 * 2 ^ 1085 : ℝ) ≤ (Nat.factorial 400 : ℝ) := by exact_mod_cast small_tail
    have e : (2 : ℝ) ^ (-1085 : ℤ) = 1 / 2 ^ 1085 := by rw [zpow_neg, one_div]; norm_cast
    generalize (3 : ℝ) ^ 400 = B at *
    generalize (Nat.factorial 400 : ℝ) = F at *
    generalize ‖(a : ℂ) + (b : ℂ) * Complex.I‖ ^ 400 = A at *
    rw [e, div_mul_eq_mul_div, div_le_div_iff₀ hf (by positivity), one_mul]
    refine le_trans ?_ h2
    have : (0:ℝ) ≤ 2 ^ 1085 := by positivity
    generalize (2:ℝ)^1085 = T at *
    nlinarith

/-- The two parts of that sum: `e^a cos b` and `e^a sin b`. -/
theorem expSum_error {a b : ℚ} (h : ‖(a : ℂ) + (b : ℂ) * Complex.I‖ ≤ 3) :
    |(((expSum a b 400).1 : ℚ) : ℝ) - Real.exp a * Real.cos b| ≤ 2 ^ (-1085 : ℤ) ∧
    |(((expSum a b 400).2 : ℚ) : ℝ) - Real.exp a * Real.sin b| ≤ 2 ^ (-1085 : ℤ) := by
  have he := exp_error h
  have e1 : (Complex.exp ((a : ℂ) + (b : ℂ) * Complex.I) -
      (((expSum a b 400).1 : ℂ) + ((expSum a b 400).2 : ℂ) * Complex.I)).re =
      Real.exp a * Real.cos b - ((expSum a b 400).1 : ℚ) := by
    simp [Complex.exp_re]
  have e2 : (Complex.exp ((a : ℂ) + (b : ℂ) * Complex.I) -
      (((expSum a b 400).1 : ℂ) + ((expSum a b 400).2 : ℂ) * Complex.I)).im =
      Real.exp a * Real.sin b - ((expSum a b 400).2 : ℚ) := by
    simp [Complex.exp_im]
  constructor
  · rw [abs_sub_comm, ← e1]; exact le_trans (Complex.abs_re_le_norm _) he
  · rw [abs_sub_comm, ← e2]; exact le_trans (Complex.abs_im_le_norm _) he

/-- The series of log 10. -/
theorem logTenSum_eq (n : ℕ) : ((logTenSum n : ℚ) : ℝ) = ∑ i ∈ Finset.range n, (9 / 10 : ℝ) ^ (i + 1) / (i + 1) := by
  induction n with
  | zero => simp [logTenSum]
  | succ n ih => rw [Finset.sum_range_succ, ← ih, logTenSum]; push_cast; ring

/-- 7777 terms give log 10 to `2^-1100`. -/
theorem logTenSum_error : |((logTenSum 7777 : ℚ) : ℝ) - Real.log 10| ≤ 2 ^ (-1100 : ℤ) := by
  have h := Real.abs_log_sub_add_sum_range_le (x := 9 / 10) (by rw [abs_of_pos] <;> norm_num) 7777
  have e : Real.log (1 - 9 / 10) = -Real.log 10 := by
    rw [show (1 - 9 / 10 : ℝ) = 10⁻¹ by norm_num, Real.log_inv]
  rw [e, ← logTenSum_eq, ← sub_eq_add_neg, abs_of_pos (show (0 : ℝ) < 9 / 10 by norm_num)] at h
  refine le_trans h ?_
  have h7 : (9 / 10 : ℝ) ^ 7 ≤ 1 / 2 := by norm_num
  have h2 : (9 / 10 : ℝ) ^ (7777 + 1) ≤ (1 / 2) ^ 1104 := by
    calc (9 / 10 : ℝ) ^ (7777 + 1) ≤ (9 / 10) ^ (7 * 1104) :=
          pow_le_pow_of_le_one (by norm_num) (by norm_num) (by norm_num)
      _ = ((9 / 10) ^ 7) ^ 1104 := pow_mul _ _ _
      _ ≤ (1 / 2) ^ 1104 := pow_le_pow_left₀ (by norm_num) h7 _
  have e1 : (2 : ℝ) ^ (-1100 : ℤ) = (1 / 2) ^ 1104 * 16 := by
    rw [one_div, inv_pow, ← zpow_natCast, ← zpow_neg, show (16 : ℝ) = 2 ^ (4 : ℤ) by norm_num, ← zpow_add₀ (by norm_num)]
    norm_num
  rw [e1]
  generalize (9 / 10 : ℝ) ^ (7777 + 1) = A at *
  have : (0:ℝ) ≤ (1/2)^1104 := by positivity
  generalize (1 / 2 : ℝ) ^ 1104 = B at *
  rw [div_le_iff₀ (by norm_num)]
  linarith

/-! ### Rounding -/

/-- What `nearest64` answers is within one unit in the last place of every real near its argument. -/
theorem nearest64_withinUlp {q : ℚ} {r : ℝ} (h : |(q : ℝ) - r| ≤ 2 ^ (-1080 : ℤ)) (hr : |r| ≤ 100) :
    withinUlp (nearest64 q) r := by
  obtain ⟨t, ht⟩ : ∃ t : ℤ, t = if (2 : ℚ) ^ (-1022 : ℤ) ≤ |q| - seriesError then Int.log 2 (|q| - seriesError) - 52
    else -1074 := ⟨_, rfl⟩
  have hsE : ((seriesError : ℚ) : ℝ) = 2 ^ (-1080 : ℤ) := by
    rw [seriesError, Rat.cast_zpow, Rat.cast_ofNat]
  -- the magnitude of `q` and of `r`
  obtain ⟨a, ha⟩ : ∃ a : ℝ, a = |(q : ℝ)| := ⟨_, rfl⟩
  have ha0 : 0 ≤ a := ha ▸ abs_nonneg _
  have har : abs (a - abs r) ≤ 2 ^ (-1080 : ℤ) := by rw [ha]; exact le_trans (abs_abs_sub_abs_le _ _) h
  have hsmall : (2 : ℝ) ^ (-1080 : ℤ) ≤ 1 := zpow_le_one_of_nonpos₀ (by norm_num) (by norm_num)
  obtain ⟨har1, har2⟩ := abs_le.mp har
  -- the unit
  have hunit : -1074 ≤ t ∧ t ≤ 800 ∧ (t = -1074 ∨ (2 : ℝ) ^ (t + 52) ≤ a - 2 ^ (-1080 : ℤ)) ∧
      a - 2 ^ (-1080 : ℤ) < 2 ^ (t + 53) := by
    by_cases hL : (2 : ℚ) ^ (-1022 : ℤ) ≤ |q| - seriesError
    · rw [if_pos hL] at ht
      have hpos : (0 : ℚ) < |q| - seriesError := lt_of_lt_of_le (by positivity) hL
      have h1 := Int.zpow_log_le_self (b := 2) (by norm_num) hpos
      have h2 := Int.lt_zpow_succ_log_self (b := 2) (by norm_num) (|q| - seriesError)
      have h3 : (-1022 : ℤ) < Int.log 2 (|q| - seriesError) + 1 :=
        (zpow_lt_zpow_iff_right₀ (by norm_num : (1 : ℚ) < 2)).mp (by exact_mod_cast lt_of_le_of_lt hL h2)
      have e1 : Int.log 2 (|q| - seriesError) = t + 52 := by omega
      rw [e1] at h1 h2
      have h1' : (2 : ℝ) ^ (t + 52) ≤ a - 2 ^ (-1080 : ℤ) := by
        have : (((2 : ℕ) : ℚ) ^ (t + 52) : ℚ) ≤ |q| - seriesError := h1
        have h' : (((((2 : ℕ) : ℚ) ^ (t + 52) : ℚ)) : ℝ) ≤ ((|q| - seriesError : ℚ) : ℝ) := by exact_mod_cast this
        rw [← hsE, ha]; push_cast at h'; exact h'
      have h2' : a - 2 ^ (-1080 : ℤ) < 2 ^ (t + 53) := by
        have h' : ((|q| - seriesError : ℚ) : ℝ) < (((((2 : ℕ) : ℚ) ^ (t + 52 + 1) : ℚ)) : ℝ) := by exact_mod_cast h2
        rw [← hsE, ha]; push_cast at h'; rw [show t + 53 = t + 52 + 1 by ring]; exact h'
      refine ⟨by omega, ?_, .inr h1', h2'⟩
      by_contra hgt
      have : (2 : ℝ) ^ (7 : ℤ) ≤ 2 ^ (t + 52) := zpow_le_zpow_right₀ (by norm_num) (by omega)
      norm_num at this
      linarith
    · rw [if_neg hL] at ht
      subst ht
      refine ⟨by norm_num, by norm_num, .inl rfl, ?_⟩
      have h' : ((|q| - seriesError : ℚ) : ℝ) < (((2 : ℚ) ^ (-1022 : ℤ) : ℚ) : ℝ) := by exact_mod_cast not_le.mp hL
      rw [← hsE, ha]
      rw [Rat.cast_sub, Rat.cast_abs, Rat.cast_zpow, Rat.cast_ofNat] at h'
      exact lt_of_lt_of_le h' (zpow_le_zpow_right₀ (by norm_num) (by norm_num))
  obtain ⟨ht1, ht2, hlo, hhi⟩ := hunit
  have hp : (0 : ℝ) < 2 ^ t := two_zpow_pos t
  have hslack : (2 : ℝ) ^ (-1080 : ℤ) ≤ 2 ^ t / 2 := by
    have := zpow_le_zpow_right₀ (by norm_num : (1 : ℝ) ≤ 2) (show (-1080 : ℤ) ≤ t - 1 by omega)
    rwa [zpow_sub_one₀ (by norm_num), ← div_eq_mul_inv] at this
  -- the significand
  obtain ⟨s, hs⟩ : ∃ s : ℕ, s = ⌊|q| / 2 ^ t + 1 / 2⌋₊ := ⟨_, rfl⟩
  have hq0 : (0 : ℚ) ≤ |q| / 2 ^ t + 1 / 2 := by positivity
  have hs1 : (s : ℝ) ≤ a / 2 ^ t + 1 / 2 := by
    have h' : ((s : ℚ) : ℝ) ≤ ((|q| / 2 ^ t + 1 / 2 : ℚ) : ℝ) := by exact_mod_cast hs ▸ Nat.floor_le hq0
    rw [ha]; push_cast at h'; exact h'
  have hs2 : a / 2 ^ t + 1 / 2 < s + 1 := by
    have h' : ((|q| / 2 ^ t + 1 / 2 : ℚ) : ℝ) < ((s + 1 : ℚ) : ℝ) := by exact_mod_cast hs ▸ Nat.lt_floor_add_one _
    rw [ha]; push_cast at h'; exact h'
  have herr : |(s : ℝ) * 2 ^ t - a| ≤ 2 ^ t / 2 := by
    have e : a / 2 ^ t * 2 ^ t = a := div_mul_cancel₀ _ hp.ne'
    generalize a / 2 ^ t = c at *
    rw [← e, abs_le]
    constructor <;> nlinarith
  have hsle : s ≤ 2 ^ 53 := by
    have h53 : (2 : ℝ) ^ (t + 53) = 2 ^ 53 * 2 ^ t := by rw [add_comm, zpow_add₀ (by norm_num)]; norm_cast
    have : (s : ℝ) < 2 ^ 53 + 1 := by
      have hc : a / 2 ^ t < 2 ^ 53 + 1 / 2 := by rw [div_lt_iff₀ hp]; linarith
      linarith
    exact_mod_cast Nat.lt_succ_iff.mp (by exact_mod_cast this)
  have hval : isFinite64 (nearest64 q) = true ∧
      realOf (nearest64 q) = if decide (q < 0) then -((s : ℝ) * 2 ^ t) else (s : ℝ) * 2 ^ t := by
    unfold nearest64
    simp only [← ht, ← hs]
    split
    · next h53 => exact round64_exact _ h53 ht1 (by omega)
    · next h53 =>
      obtain ⟨f1, f2⟩ := round64_exact (s := 2 ^ 52) (e := t + 1) (decide (q < 0)) (by norm_num) (by omega) (by omega)
      refine ⟨f1, ?_⟩
      have e : ((2 ^ 52 : ℕ) : ℝ) * 2 ^ (t + 1) = (s : ℝ) * 2 ^ t := by
        rw [show s = 2 ^ 53 by omega, zpow_add_one₀ (by norm_num)]; push_cast; ring
      rw [f2, e]
  refine ⟨hval.1, t, ht1, hlo.imp_right fun h' => by linarith, ?_⟩
  have hyq : |realOf (nearest64 q) - q| ≤ 2 ^ t / 2 := by
    rw [hval.2]
    by_cases hneg : q < 0
    · have : (q : ℝ) < 0 := by exact_mod_cast hneg
      rw [abs_of_neg this] at ha
      rw [decide_eq_true hneg, if_pos rfl, ← abs_neg]
      have e : -(-((s : ℝ) * 2 ^ t) - q) = (s : ℝ) * 2 ^ t - a := by rw [ha]; ring
      rw [e]; exact herr
    · have : (0 : ℝ) ≤ q := by exact_mod_cast not_lt.mp hneg
      rw [abs_of_nonneg this] at ha
      rw [decide_eq_false hneg, if_neg (by decide), ← ha]; exact herr
  change |realOf (nearest64 q) - r| ≤ 2 ^ t
  calc |realOf (nearest64 q) - r| ≤ |realOf (nearest64 q) - q| + |(q : ℝ) - r| := abs_sub_le _ _ _
    _ ≤ 2 ^ t := by linarith

/-- The least positive binary64. -/
theorem realOf_leastPositive : isFinite64 (ofMag64 false 1) = true ∧ realOf (ofMag64 false 1) = 2 ^ (-1074 : ℤ) := by
  obtain ⟨f1, f2⟩ := realOf_ofMag64 (m := 1) (by norm_num) false
  refine ⟨f1, ?_⟩
  rw [f2, magVal]
  norm_num [magUnits, fmt64]

/-- The correction at 0 keeps within one unit of a positive real. -/
theorem keepPositive_spec {y : B64} {r : ℝ} (h : withinUlp y r) (h0 : 0 < r) :
    0 < ratOf (keepPositive y) ∧ withinUlp (keepPositive y) r := by
  unfold keepPositive
  split
  · next hy => exact ⟨hy, h⟩
  · next hy =>
    obtain ⟨f1, f2⟩ := realOf_leastPositive
    have hp := two_zpow_pos (-1074)
    refine ⟨by have : 0 < realOf (ofMag64 false 1) := by rw [f2]; exact hp
               unfold realOf at this; exact_mod_cast this, f1, -1074, le_refl _, .inl rfl, ?_⟩
    obtain ⟨-, t, ht1, ht2, ht3⟩ := h
    have hy' : ((ratOf y : ℚ) : ℝ) ≤ 0 := by exact_mod_cast not_lt.mp hy
    have hle := (abs_le.mp ht3).1
    have hr : r ≤ 2 ^ (-1074 : ℤ) := by
      rcases ht2 with rfl | h52
      · linarith
      · exfalso
        rw [abs_of_pos h0, zpow_add₀ (by norm_num)] at h52
        have := two_zpow_pos t
        have e : (2 : ℝ) ^ (52 : ℤ) = 4503599627370496 := by norm_num
        rw [e] at h52
        linarith
    change |realOf (ofMag64 false 1) - r| ≤ _
    rw [f2, abs_le]
    constructor <;> linarith

/-- Within one unit, mirrored. -/
theorem withinUlp_neg {y : B64} {r : ℝ} (h : withinUlp y r) : withinUlp (neg64 y) (-r) := by
  obtain ⟨h1, t, h2, h3, h4⟩ := h
  refine ⟨by simpa using h1, t, h2, by rwa [abs_neg], ?_⟩
  change |realOf (neg64 y) - -r| ≤ _
  rw [realOf_neg64, ← abs_neg]
  have e : -(-realOf y - -r) = realOf y - r := by ring
  rw [e]; exact h4

/-- The binary64 below 1 is within one unit of a real below 1 that a value from 1 on is within one unit of. -/
theorem belowOne_withinUlp {y : B64} {r : ℝ} (h : withinUlp y r) (h1 : |r| < 1) (hy : 1 ≤ realOf y) :
    withinUlp (ofBits64 0x3FEFFFFFFFFFFFFF) r ∧ ratOf (ofBits64 0x3FEFFFFFFFFFFFFF) = 1 - 1 / 2 ^ 53 := by
  have hb : ratOf (ofBits64 0x3FEFFFFFFFFFFFFF) = 1 - 1 / 2 ^ 53 := by
    rw [show ofBits64 0x3FEFFFFFFFFFFFFF = .fin false ⟨0x3FEFFFFFFFFFFFFF, by decide⟩ by decide +kernel]
    simp [ratOf, signed, sigOf, expOf, fmt64]; norm_num
  refine ⟨⟨by decide +kernel, -53, by norm_num, .inr ?_, ?_⟩, hb⟩
  all_goals
    have h1' := (abs_lt.mp h1).2
    obtain ⟨-, t, ht1, ht2, ht3⟩ := h
    have hle := (abs_le.mp ht3).2
    have hyr : realOf y - r ≤ 2 ^ t := hle
    have hr : 1 - 1 / 2 ^ 53 ≤ r := by
      have ht : t ≤ -53 := by
        rcases ht2 with rfl | h52
        · norm_num
        · by_contra hgt
          have h' : (2 : ℝ) ^ (0 : ℤ) ≤ 2 ^ (t + 52) := zpow_le_zpow_right₀ (by norm_num) (by omega)
          rw [zpow_zero] at h'
          linarith
      have := zpow_le_zpow_right₀ (by norm_num : (1 : ℝ) ≤ 2) ht
      norm_num at this ⊢
      linarith
  · rw [abs_of_pos (by norm_num at hr; linarith)]
    norm_num at hr ⊢
    linarith
  · rw [hb, abs_le]
    push_cast
    norm_num at hr ⊢
    constructor <;> linarith

/-! ### The domains -/

theorem angleInDomain_bounds {w : B64} (h : angleInDomain w = true) :
    0 < realOf w ∧ realOf w < Real.pi ∧ realOf w ≤ 3 := by
  have hm : angleMax = .fin false ⟨0x40069E9565708F01, by decide⟩ := by decide +kernel
  have hmf : isFinite64 angleMax = true := by rw [hm]; rfl
  have hmr : realOf angleMax = 6366813976825601 / 2 ^ 51 := by
    rw [hm]; simp [realOf, ratOf, signed, sigOf, expOf, fmt64]; norm_num
  have hz : isFinite64 .posZero = true := rfl
  have hz0 : realOf .posZero = 0 := realOf_zero64 false
  simp only [angleInDomain, Bool.and_eq_true, Bool.or_eq_true] at h
  obtain ⟨h1, h2⟩ := h
  have k1 : key64 .posZero ≤ key64 w := by
    simp only [lt64, decide_eq_true_eq] at h1
    exact h1.2.2.le
  have k2 : w ≠ .nan ∧ key64 w ≤ key64 angleMax := by
    simp only [lt64, eq64, decide_eq_true_eq] at h2
    rcases h2 with h2 | h2
    · exact ⟨h2.1, h2.2.2.le⟩
    · exact ⟨h2.1, h2.2.2.le⟩
  have hf := isFinite64_of_key k2.1 hz hmf k1 k2.2
  have h3 := (lt64_iff hz hf).mp h1
  have h4 := (key64_le_iff hf hmf).mp k2.2
  rw [hz0] at h3
  rw [hmr] at h4
  refine ⟨h3, lt_of_le_of_lt h4 ?_, le_trans h4 (by norm_num)⟩
  have := Real.pi_gt_d4
  norm_num at this ⊢
  linarith

/-- The domain of R503 (c) lies inside [-1, 1]. -/
theorem exponentInDomain_bounds {x : B64} (h : exponentInDomain x = true) : |realOf x| ≤ 1 := by
  have hm : exponentMax = .fin false ⟨0x3FD3333333333333, by decide⟩ := by decide +kernel
  have hmf : isFinite64 exponentMax = true := by rw [hm]; rfl
  have hmr : realOf exponentMax = 5404319552844595 / 2 ^ 54 := by
    rw [hm]; simp [realOf, ratOf, signed, sigOf, expOf, fmt64]; norm_num
  simp only [exponentInDomain, Bool.and_eq_true, Bool.not_eq_true', decide_eq_true_eq] at h
  cases x with
  | nan => exact absurd rfl h.2
  | inf neg =>
    have h1 := h.1
    rw [hm] at h1
    simp [abs64, lt64, key64, signed] at h1
  | fin neg mag =>
    have hf : isFinite64 (abs64 (.fin neg mag)) = true := rfl
    have h1 : ¬ lt64 exponentMax (abs64 (.fin neg mag)) = true := by rw [h.1]; decide
    rw [lt64_iff hmf hf, hmr, abs64, realOf_fin] at h1
    have h0 := magVal_nonneg fmt64 mag.val
    have e : |realOf (.fin neg mag)| = magVal fmt64 mag.val := by
      rw [realOf_fin]; cases neg <;> simp [abs_of_nonneg h0]
    rw [e]
    simp only [Bool.false_eq_true, if_false, not_lt] at h1
    refine le_trans h1 ?_
    norm_num

/-! ### The properties -/

theorem keepBelowOne_spec {y : B64} {r : ℝ} (h : withinUlp y r) (h1 : |r| < 1) :
    -1 < ratOf (keepBelowOne y) ∧ ratOf (keepBelowOne y) < 1 ∧ withinUlp (keepBelowOne y) r := by
  have hneg : ofBits64 0xBFEFFFFFFFFFFFFF = neg64 (ofBits64 0x3FEFFFFFFFFFFFFF) := by decide +kernel
  unfold keepBelowOne
  split
  · next hy =>
    obtain ⟨hw, he⟩ := belowOne_withinUlp h h1 (by unfold realOf; exact_mod_cast hy)
    rw [he]
    exact ⟨by norm_num, by norm_num, hw⟩
  · next hy =>
    split
    · next hy' =>
      obtain ⟨hw, he⟩ := belowOne_withinUlp (withinUlp_neg h) (by rwa [abs_neg]) (by
        have : ((ratOf y : ℚ) : ℝ) ≤ -1 := by exact_mod_cast hy'
        rw [realOf_neg64]; unfold realOf; linarith)
      have hn := withinUlp_neg hw
      rw [neg_neg, ← hneg] at hn
      have e : ratOf (ofBits64 0xBFEFFFFFFFFFFFFF) = -(1 - 1 / 2 ^ 53) := by
        have h' := realOf_neg64 (ofBits64 0x3FEFFFFFFFFFFFFF)
        rw [← hneg] at h'
        unfold realOf at h'
        rw [he] at h'
        exact_mod_cast h'
      rw [e]
      exact ⟨by norm_num, by norm_num, hn⟩
    · next hy' => exact ⟨not_le.mp hy', not_le.mp hy, h⟩

/-- The series for sine and cosine (R503 d). -/
theorem series_sin {w : ℚ} (h : |(w : ℝ)| ≤ 3) :
    |(((expSum 0 w 400).2 : ℚ) : ℝ) - Real.sin w| ≤ 2 ^ (-1080 : ℤ) ∧
    |(((expSum 0 w 400).1 : ℚ) : ℝ) - Real.cos w| ≤ 2 ^ (-1080 : ℤ) := by
  have hn : ‖((0 : ℚ) : ℂ) + (w : ℂ) * Complex.I‖ ≤ 3 := by
    have : ‖((w : ℝ) : ℂ)‖ ≤ 3 := by rwa [Complex.norm_real]
    simpa using this
  obtain ⟨h1, h2⟩ := expSum_error hn
  rw [Rat.cast_zero, Real.exp_zero, one_mul] at h1 h2
  have hle : (2 : ℝ) ^ (-1085 : ℤ) ≤ 2 ^ (-1080 : ℤ) := zpow_le_zpow_right₀ (by norm_num) (by norm_num)
  exact ⟨le_trans h2 hle, le_trans h1 hle⟩

/-- The series for `10^x` (R503 d). -/
theorem series_pow {x : ℚ} (h : |(x : ℝ)| ≤ 1) :
    |(((expSum (x * logTenSum 7777) 0 400).1 : ℚ) : ℝ) - (10 : ℝ) ^ (x : ℝ)| ≤ 2 ^ (-1080 : ℤ) := by
  have hlog := logTenSum_error
  have hl1 : Real.log 10 ≤ 2.5 := by
    rw [Real.log_le_iff_le_exp (by norm_num)]
    have h1 : (2.7 : ℝ) ≤ Real.exp 1 := by have := Real.exp_one_gt_d9; linarith
    have h2 : Real.exp 2.5 = Real.exp 1 ^ 2 * Real.exp 0.5 := by
      rw [← Real.exp_nat_mul, ← Real.exp_add]; norm_num
    have h3 : (1.5 : ℝ) ≤ Real.exp 0.5 := by have := Real.add_one_le_exp (0.5 : ℝ); linarith
    rw [h2]
    nlinarith [pow_le_pow_left₀ (by norm_num : (0 : ℝ) ≤ 2.7) h1 2]
  have hl0 : 0 ≤ Real.log 10 := Real.log_nonneg (by norm_num)
  have hd : (2 : ℝ) ^ (-1100 : ℤ) ≤ 1 / 2 := by
    have := zpow_le_zpow_right₀ (by norm_num : (1 : ℝ) ≤ 2) (show (-1100 : ℤ) ≤ -1 by norm_num)
    simpa using this
  obtain ⟨l, hl⟩ : ∃ l : ℝ, l = ((logTenSum 7777 : ℚ) : ℝ) := ⟨_, rfl⟩
  rw [← hl] at hlog
  obtain ⟨hlog1, hlog2⟩ := abs_le.mp hlog
  have hnorm : ‖((x * logTenSum 7777 : ℚ) : ℂ) + ((0 : ℚ) : ℂ) * Complex.I‖ ≤ 3 := by
    have e : ((x * logTenSum 7777 : ℚ) : ℂ) + ((0 : ℚ) : ℂ) * Complex.I = (((x : ℝ) * l : ℝ) : ℂ) := by
      rw [hl]; push_cast; simp
    rw [e, Complex.norm_real, Real.norm_eq_abs, abs_mul]
    have : |l| ≤ 3 := by rw [abs_le]; constructor <;> linarith
    calc |(x : ℝ)| * |l| ≤ 1 * 3 := mul_le_mul h this (abs_nonneg _) (by norm_num)
      _ = 3 := by norm_num
  have h1 := (expSum_error hnorm).1
  have e1 : Real.exp ((x * logTenSum 7777 : ℚ) : ℝ) = (10 : ℝ) ^ (x : ℝ) * Real.exp (x * (l - Real.log 10)) := by
    rw [Real.rpow_def_of_pos (by norm_num), ← Real.exp_add, hl]
    congr 1; push_cast; ring
  rw [Rat.cast_zero, Real.cos_zero, mul_one, e1] at h1
  have hp0 : (0 : ℝ) < (10 : ℝ) ^ (x : ℝ) := Real.rpow_pos_of_pos (by norm_num) _
  have hp1 : (10 : ℝ) ^ (x : ℝ) ≤ 10 := by
    simpa using Real.rpow_le_rpow_of_exponent_le (x := (10 : ℝ)) (by norm_num) (abs_le.mp h).2
  have hsmall : |(x : ℝ) * (l - Real.log 10)| ≤ 2 ^ (-1100 : ℤ) := by
    rw [abs_mul]
    calc |(x : ℝ)| * |l - Real.log 10| ≤ 1 * 2 ^ (-1100 : ℤ) := mul_le_mul h hlog (abs_nonneg _) (by norm_num)
      _ = _ := one_mul _
  have hexp := Real.abs_exp_sub_one_le (x := (x : ℝ) * (l - Real.log 10)) (by linarith)
  generalize Real.exp ((x : ℝ) * (l - Real.log 10)) = E at *
  generalize (x : ℝ) * (l - Real.log 10) = d at *
  have h2 : |(10 : ℝ) ^ (x : ℝ) * E - (10 : ℝ) ^ (x : ℝ)| ≤ 20 * 2 ^ (-1100 : ℤ) := by
    have e : (10 : ℝ) ^ (x : ℝ) * E - (10 : ℝ) ^ (x : ℝ) = (10 : ℝ) ^ (x : ℝ) * (E - 1) := by ring
    rw [e, abs_mul, abs_of_pos hp0]
    calc (10 : ℝ) ^ (x : ℝ) * |E - 1| ≤ 10 * (2 * 2 ^ (-1100 : ℤ)) :=
          mul_le_mul hp1 (by linarith) (abs_nonneg _) (by norm_num)
      _ = _ := by ring
  have e85 : (2 : ℝ) ^ (-1080 : ℤ) = 2 ^ (-1085 : ℤ) * 32 := by
    rw [show (32 : ℝ) = 2 ^ (5 : ℤ) by norm_num, ← zpow_add₀ (by norm_num), show (-1085 : ℤ) + 5 = -1080 by norm_num]
  have e00 : (2 : ℝ) ^ (-1085 : ℤ) = 2 ^ (-1100 : ℤ) * 32768 := by
    rw [show (32768 : ℝ) = 2 ^ (15 : ℤ) by norm_num, ← zpow_add₀ (by norm_num), show (-1100 : ℤ) + 15 = -1085 by norm_num]
  have hpos := two_zpow_pos (-1100)
  calc _ ≤ |(((expSum (x * logTenSum 7777) 0 400).1 : ℚ) : ℝ) - (10 : ℝ) ^ (x : ℝ) * E| +
        |(10 : ℝ) ^ (x : ℝ) * E - (10 : ℝ) ^ (x : ℝ)| := abs_sub_le _ _ _
    _ ≤ 2 ^ (-1080 : ℤ) := by
      rw [e85]
      rw [e00] at h1 ⊢
      linarith

/-- R503 can be met in full, and computably. -/
theorem referenceLibm_meets : MeetsR503 referenceLibm := by
  have hangle : ∀ {w}, angleInDomain w = true → |((ratOf w : ℚ) : ℝ)| ≤ 3 ∧
      0 < Real.sin ((ratOf w : ℚ) : ℝ) := fun {w} h => by
    obtain ⟨h1, h2, h3⟩ := angleInDomain_bounds h
    exact ⟨(abs_of_pos h1).trans_le h3, Real.sin_pos_of_pos_of_lt_pi h1 h2⟩
  refine ⟨fun neg => ?_, fun w hw => ?_, fun w hw => ?_, fun x hx => ?_⟩
  · have : eq64 (zero64 neg) .posZero = true := by cases neg <;> decide
    simp only [referenceLibm, this, if_true]
  · obtain ⟨h1, h2⟩ := hangle hw
    exact keepPositive_spec (nearest64_withinUlp (series_sin h1).1
      (le_trans (Real.abs_sin_le_one _) (by norm_num))) h2
  · obtain ⟨h1, h2⟩ := hangle hw
    refine keepBelowOne_spec (nearest64_withinUlp (series_sin h1).2
      (le_trans (Real.abs_cos_le_one _) (by norm_num))) ?_
    rw [← abs_one, ← sq_lt_sq]
    have := Real.sin_sq_add_cos_sq ((ratOf w : ℚ) : ℝ)
    nlinarith
  · have h1 := exponentInDomain_bounds hx
    have hp : (0 : ℝ) < (10 : ℝ) ^ ((ratOf x : ℚ) : ℝ) := Real.rpow_pos_of_pos (by norm_num) _
    by_cases hz : eq64 x .posZero = true
    · have e : realOf x = 0 := by
        have hf : isFinite64 x = true := by
          cases x with
          | nan => exact absurd hz (by decide)
          | inf neg => cases neg <;> exact absurd hz (by decide)
          | fin neg mag => rfl
        rw [(eq64_iff hf rfl).mp hz]; exact realOf_zero64 false
      have e' : ratOf x = 0 := by unfold realOf at e; exact_mod_cast e
      have h1' : ratOf one64 = 1 := by
        rw [show one64 = .fin false ⟨0x3FF0000000000000, by decide⟩ by decide +kernel]
        simp [ratOf, signed, sigOf, expOf, fmt64]; norm_num
      simp only [referenceLibm, hz, if_true, h1', e', Rat.cast_zero, Real.rpow_zero]
      refine ⟨by norm_num, by decide +kernel, -1074, le_refl _, .inl rfl, ?_⟩
      rw [h1', Rat.cast_one, sub_self, abs_zero]
      exact (two_zpow_pos _).le
    · have e : referenceLibm.pow10 x = keepPositive (nearest64 (expSum (ratOf x * logTenSum 7777) 0 400).1) := by
        simp only [referenceLibm, hz, Bool.false_eq_true, if_false]
      rw [e]
      refine keepPositive_spec (nearest64_withinUlp (series_pow h1) ?_) hp
      rw [abs_of_pos hp]
      have := Real.rpow_le_rpow_of_exponent_le (x := (10 : ℝ)) (by norm_num) (abs_le.mp h1).2
      rw [Real.rpow_one] at this
      exact le_trans this (by norm_num)

end Sys2Proof.Machine
end

