-- ==== Sys2Proof/Machine/Libm.lean ====
section
/-! DEFINITION. `Sin64`, `Cos64` and `Pow10_64` (spec 00_scope R8; 41_process R503, R504; log entry 4): an opaque member of
the type of all functions that meet R503. -/

namespace Sys2Proof.Machine

/-- The instance's functions, with the proof that they meet R503. -/
def instanceLibm : { lm : Libm // MeetsR503 lm } := @Config.libm ⟨⟨referenceLibm, referenceLibm_meets⟩⟩

/-- The instance's functions (R8, R503). -/
def libm : Libm := instanceLibm.val

end Sys2Proof.Machine
end

