-- ==== Sys2Proof/Machine/Design.lean ====
section
/-! DEFINITION. Coefficient design (spec 41_process R501–R510). Each line is the rule's line, products first, evaluated
left to right, every operation rounded by itself. -/

namespace Sys2Proof.Machine

/-- `f_eff` (R501): the Nyquist clamp, a design input only. -/
def effectiveFreq (freq : Word) (fs : B64) : B64 :=
  let f := widen (ofBits32 freq)
  let fLim := mul64 nyqFrac fs
  if lt64 f fLim then f else fLim

/-- `w0` (R502). -/
def angularFreq (fEff fs : B64) : B64 := div64 (mul64 (mul64 two64 pi64) fEff) fs

/-- `A` (R504). -/
def amplitude (lm : Libm) (gain : Word) : B64 := lm.pow10 (div64 (widen (ofBits32 gain)) forty64)

/-- Peaking band (R505). -/
def rawPeaking (sw cw a : B64) (q : Word) : RawCoeffs :=
  let alpha := div64 sw (mul64 two64 (widen (ofBits32 q)))
  { b0 := add64 one64 (mul64 alpha a)
    b1 := mul64 minusTwo64 cw
    b2 := sub64 one64 (mul64 alpha a)
    a0 := add64 one64 (div64 alpha a)
    a1 := mul64 minusTwo64 cw
    a2 := sub64 one64 (div64 alpha a) }

/-- `t` of the shelves, with slope S = 1; no use of Q (R506). -/
def shelfT (sw a : B64) : B64 :=
  let alpha := mul64 (div64 sw two64) sqrt2
  mul64 (mul64 two64 (sqrt64 a)) alpha

/-- Low shelf (R507). -/
def rawLowShelf (sw cw a : B64) : RawCoeffs :=
  let t := shelfT sw a
  let ap1 := add64 a one64
  let am1 := sub64 a one64
  { b0 := mul64 a (add64 (sub64 ap1 (mul64 am1 cw)) t)
    b1 := mul64 (mul64 two64 a) (sub64 am1 (mul64 ap1 cw))
    b2 := mul64 a (sub64 (sub64 ap1 (mul64 am1 cw)) t)
    a0 := add64 (add64 ap1 (mul64 am1 cw)) t
    a1 := mul64 minusTwo64 (add64 am1 (mul64 ap1 cw))
    a2 := sub64 (add64 ap1 (mul64 am1 cw)) t }

/-- High shelf (R508). -/
def rawHighShelf (sw cw a : B64) : RawCoeffs :=
  let t := shelfT sw a
  let ap1 := add64 a one64
  let am1 := sub64 a one64
  { b0 := mul64 a (add64 (add64 ap1 (mul64 am1 cw)) t)
    b1 := mul64 (mul64 minusTwo64 a) (add64 am1 (mul64 ap1 cw))
    b2 := mul64 a (sub64 (add64 ap1 (mul64 am1 cw)) t)
    a0 := add64 (sub64 ap1 (mul64 am1 cw)) t
    a1 := mul64 two64 (sub64 am1 (mul64 ap1 cw))
    a2 := sub64 (sub64 ap1 (mul64 am1 cw)) t }

/-- The raw coefficients of a band's type (R505, R507, R508). -/
def rawCoeffs (ty : BandType) (sw cw a : B64) (q : Word) : RawCoeffs :=
  match ty with
  | .peaking => rawPeaking sw cw a q
  | .lowShelf => rawLowShelf sw cw a
  | .highShelf => rawHighShelf sw cw a

/-- Normalisation by `a0` (R509). -/
def normalise (r : RawCoeffs) : Coeffs :=
  ⟨div64 r.b0 r.a0, div64 r.b1 r.a0, div64 r.b2 r.a0, div64 r.a1 r.a0, div64 r.a2 r.a0⟩

/-- A band's raw coefficients at a rate (R501–R508). -/
def rawDesign (lm : Libm) (ty : BandType) (band : Band) (rate : Nat) : RawCoeffs :=
  let fs := ofNat64 rate
  let w0 := angularFreq (effectiveFreq band.freq fs) fs
  rawCoeffs ty (lm.sin64 w0) (lm.cos64 w0) (amplitude lm band.gain) band.q

/-- `Design(TYPE, FREQ, GAIN, Q, ACTIVE_RATE)` (R509). -/
def design (lm : Libm) (ty : BandType) (band : Band) (rate : Nat) : Coeffs := normalise (rawDesign lm ty band rate)

/-- `C[b]` for every band, a function of the parameters and ACTIVE_RATE alone (R128, R510, R517). -/
def coeffsOf (lm : Libm) (s : State) : List Coeffs :=
  s.bands.mapIdx fun b band => design lm (bandType s.params.kind b) band s.activeRate.toNat

end Sys2Proof.Machine
end

