-- ==== Sys2Proof/Machine/Stage.lean ====
section
/-! DEFINITION. The filter stage, the flush and the cascade of one lane (spec 41_process R511–R516). -/

namespace Sys2Proof.Machine

/-- `Flush(y)` (R512): every value of magnitude below FLUSH_T becomes +0.0; a NaN is kept. -/
def flush (y : B64) : B64 := if lt64 (abs64 y) flushT then .posZero else y

/-- `y` of one stage before the flush (R511): each product and each sum rounded by itself, in this order. -/
def stageSum (c : Coeffs) (st : StageState) (x : B64) : B64 :=
  let p := mul64 c.c0 x
  let s1 := add64 p (mul64 c.c1 st.x1)
  let s2 := add64 s1 (mul64 c.c2 st.x2)
  let s3 := sub64 s2 (mul64 c.c3 st.y1)
  sub64 s3 (mul64 c.c4 st.y2)

/-- `Stage(C, S[c][b], x)`: the flushed output and the shifted state (R511, R513). -/
def stage (c : Coeffs) (st : StageState) (x : B64) : B64 × StageState :=
  let y := flush (stageSum c st x)
  (y, ⟨x, st.x1, y, st.y1⟩)

/-- The bands in series, in ascending order, each output the next input unrounded (R500, R514). -/
def cascade : List Coeffs → List StageState → B64 → B64 × List StageState
  | c :: cs, st :: sts, v =>
    let r := stage c st v
    let rest := cascade cs sts r.1
    (rest.1, r.2 :: rest.2)
  | [], sts, v => (v, sts)
  | _ :: _, [], v => (v, [])

/-- One sample of a lane: `f64(f32(w))` in, `r32(v)` out (R514, R516). -/
def filterSample (cs : List Coeffs) (l : List StageState) (w : Word) : B32 × List StageState :=
  let r := cascade cs l (widen (ofBits32 w))
  (narrow r.1, r.2)

end Sys2Proof.Machine
end

