-- ==== Sys2Proof/Machine/Process.lean ====
section
/-! DEFINITION. PROCESS (spec 41_process R517–R520, R525): the checks, the rate change, and the walk over the buffer. -/

namespace Sys2Proof.Machine

/-- `MemWrite(i, bits32(v))` (R516). A NaN leaves with the next free pattern (R12, 93 U-5, log entry 3). -/
def writeSample (i : Nat) (v : B32) (s : State) : State :=
  { s with
    mem := memWriteWord s.mem i (toBits32 (nanPattern (Config.freeNan s.nanCount)) v)
    nanCount := if v = .nan then s.nanCount + 1 else s.nanCount }

/-- One word of channel `c`, read, filtered and written back (R517). -/
def sampleStep (cs : List Coeffs) (c : Channel) (i : Nat) (s : State) : Out :=
  match memReadWord s.mem i with
  | none => .fault .unwrittenRead
  | some w =>
    let r := filterSample cs (lane s c) w
    .next (writeSample i r.1 (setLane s c r.2))

/-- `k` frames from word index `i`, lane 0 before lane 1 within a frame (R202, R515, R517). -/
def processFrames (cs : List Coeffs) : Nat → Nat → State → Out
  | 0, _, s => .next s
  | k + 1, i, s =>
    andThen (sampleStep cs .left i s) fun s1 =>
      andThen (sampleStep cs .right (i + 1) s1) fun s2 => processFrames cs k (i + 2) s2

/-- The rate change (R518): a new rate is stored and zeroes the filter state. -/
def applyRate (s : State) : State :=
  if s.arg2 ≠ s.activeRate then clearFilter { s with activeRate := s.arg2 } else s

/-- The first failing check of an enabled PROCESS, on unbounded integers (R517, R525, R703). -/
def processCheck (s : State) : ResultCode :=
  if rateOf s = 0 ∨ maxRate < rateOf s then .badRate
  else if countOf s % 2 ≠ 0 then .badLength
  else if s.params.sampleMemWords < baseOf s + countOf s then .badRange
  else .ok

/-- PROCESS with given functions `Sin64`, `Cos64`, `Pow10_64` (R517). -/
def processWith (lm : Libm) (s : State) : Out :=
  if s.enabled = false then complete opcProcess .ok s
  else if processCheck s ≠ .ok then complete opcProcess (processCheck s) s
  else
    let s1 := applyRate s
    andThen (processFrames (coeffsOf lm s1) (countOf s1 / 2) (baseOf s1) s1) (complete opcProcess .ok)

/-- PROCESS (R517) with the instance's own functions. -/
def execProcess (s : State) : Out := processWith libm s

end Sys2Proof.Machine
end

