-- ==== Sys2Proof/Machine/Dispatch.lean ====
section
/-! DEFINITION. One arm per command (spec 30_encoding R304, R306). -/

namespace Sys2Proof.Machine

def exec (i : Instr) (s : State) : Host.Outcome State Fault Refusal :=
  match i with
  | .nop => Sys2Proof.Machine.execNop s
  | .process => Sys2Proof.Machine.execProcess s
  | .reset => Sys2Proof.Machine.execReset s
  | .setEnabled en => Sys2Proof.Machine.execSetEnabled en s
  | .setFreq b => Sys2Proof.Machine.execSetFreq b s
  | .setGain b => Sys2Proof.Machine.execSetGain b s
  | .setQ b => Sys2Proof.Machine.execSetQ b s
  | .updateParams tag => Sys2Proof.Machine.execUpdateParams tag s

end Sys2Proof.Machine
end

