-- ==== Sys2Proof/Machine/Port.lean ====
section
/-! DEFINITION. What a host event does (spec 20_memory R200, R204, R206–R209, R220, R221; 30_encoding R300, R306;
70_reset_and_hazards R800, R821), and the pseudo-instructions as host accesses (30_encoding R310, R311). -/

namespace Sys2Proof.Machine

/-- The byte size of a space (R103, R201). -/
def spaceBytes (s : State) : Space → Nat
  | .control => ctlBytes
  | .sample => 4 * s.params.sampleMemWords

/-- Which accesses the port admits: aligned words inside their space (R204). -/
def admitted (a : Access) (s : State) : Bool :=
  decide (a.size = .word ∧ a.offset % 4 = 0 ∧ a.offset < spaceBytes s a.space)

/-- A write of a word to CMD: decode and execute, or complete with ILLEGAL and the word's OPC (R300, R306). -/
def issueCommand (w : Word) (s : State) : Out :=
  match decode w with
  | .command i => exec i s
  | .illegal _ => complete (fieldsOf w).opc .illegal s

/-- An admitted read: the value goes to the host, the block is unchanged (R206, R207, R209). -/
def hostRead (sp : Space) (off : Nat) (s : State) : Out :=
  match sp with
  | .control => .next { s with readData := some (ctlRead s (ctlReg off)) }
  | .sample =>
    match memReadWord s.mem (off / 4) with
    | some w => .next { s with readData := some w }
    | none => .fault .unwrittenRead

/-- An admitted write (R206, R209). -/
def hostWrite (sp : Space) (off : Nat) (w : Word) (s : State) : Out :=
  match sp with
  | .control => if ctlReg off = .cmd then issueCommand w s else .next (ctlStore (ctlReg off) w s)
  | .sample => .next { s with mem := memWriteWord s.mem (off / 4) w }

/-! ### The hosts' lock (R224, R730, R821) -/

/-- The register an access writes; none for a read and for a sample access. -/
def writtenReg (a : Access) : Option CtlReg :=
  match a.space, a.op with
  | .control, .write _ => some (ctlReg a.offset)
  | .control, .read => none
  | .sample, _ => none

/-- Whether an agent may write an operand register: no argument sequence is open, or its own is. -/
def mayWriteOperands (ag : Agent) (owner : Option Agent) : Bool := decide (owner = none ∨ owner = some ag)

/-- The lock after an agent's CMD write, which ends its own argument sequence and no other. -/
def lockAfterCmd (ag : Agent) (owner : Option Agent) : Option Agent := if owner = some ag then none else owner

/-- The lock after an access: an operand write opens the agent's argument sequence, its CMD write ends it. -/
def lockAfter (a : Access) (owner : Option Agent) : Option Agent :=
  match writtenReg a with
  | some r => if isOperand r then some a.agent else if r = .cmd then lockAfterCmd a.agent owner else owner
  | none => owner

/-- Whether an access breaks the lock: an operand write inside the other agent's argument sequence. -/
def breaksLock (a : Access) (owner : Option Agent) : Bool :=
  match writtenReg a with
  | some r => isOperand r && !mayWriteOperands a.agent owner
  | none => false

/-- One host access. The block does not look at the agent (R204, R707, R720); the lock does (R821). -/
def performAccess (a : Access) (s : State) : Out :=
  if admitted a s then
    if breaksLock a s.argOwner then .refused .lockBroken
    else
      let s := { s with argOwner := lockAfter a s.argOwner }
      match a.op with
      | .read => hostRead a.space a.offset s
      | .write w => hostWrite a.space a.offset w s
  else .fault .busFault

/-- One host event, whole (R208, R221). -/
def performEvent (e : HostEvent) (s : State) : Out :=
  match e with
  | .access a => performAccess a s
  | .hardwareReset => .next (hardwareReset s)

/-- The next event of the serial order (R220); with none the block holds its state (R726). -/
def serveNext (s : State) : Out :=
  match s.port with
  | [] => .next s
  | e :: rest => performEvent e { s with port := rest }

/-! ### Host accesses in the notation of R310 -/

/-- `wr CTL:<offset>, <word>`. -/
def wrCtl (ag : Agent) (off : Nat) (w : Word) : HostEvent := .access ⟨ag, .control, off, .word, .write w⟩

/-- `rd CTL:<offset>`. -/
def rdCtl (ag : Agent) (off : Nat) : HostEvent := .access ⟨ag, .control, off, .word, .read⟩

/-- `wr SMP:<index>, <word>`. -/
def wrSmp (ag : Agent) (i : Nat) (w : Word) : HostEvent := .access ⟨ag, .sample, 4 * i, .word, .write w⟩

/-- `rd SMP:<index>`. -/
def rdSmp (ag : Agent) (i : Nat) : HostEvent := .access ⟨ag, .sample, 4 * i, .word, .read⟩

/-- The offsets R310 names. -/
def offInfo : Nat := 0x004
def offStatus : Nat := 0x008
def offResult : Nat := 0x00C
def offCmd : Nat := 0x014
def offArg0 : Nat := 0x018
def offArg1 : Nat := 0x01C
def offArg2 : Nat := 0x020
def offPayload (i : Nat) : Nat := 0x040 + 4 * i

/-- The write of a command's word to CMD (R300, R310). -/
def wrCmd (ag : Agent) (i : Instr) : HostEvent := wrCtl ag offCmd (encode i)

/-- PAYLOAD[0], PAYLOAD[1], … from a list of words, in order. -/
def wrPayload (ag : Agent) (ws : List Word) : List HostEvent := ws.mapIdx fun i w => wrCtl ag (offPayload i) w

/-- `process base, count, rate` (R311). -/
def pseudoProcess (ag : Agent) (base count rate : Word) : List HostEvent :=
  [wrCtl ag offArg0 base, wrCtl ag offArg1 count, wrCtl ag offArg2 rate, wrCmd ag .process]

/-- `enable` (R311). -/
def pseudoEnable (ag : Agent) : List HostEvent := [wrCmd ag (.setEnabled 1)]

/-- `disable` (R311). -/
def pseudoDisable (ag : Agent) : List HostEvent := [wrCmd ag (.setEnabled 0)]

/-- `set.freq b, f` (R311). -/
def pseudoSetFreq (ag : Agent) (b : Byte) (f : Word) : List HostEvent := [wrCtl ag offArg0 f, wrCmd ag (.setFreq b)]

/-- `set.gain b, g` (R311). -/
def pseudoSetGain (ag : Agent) (b : Byte) (g : Word) : List HostEvent := [wrCtl ag offArg0 g, wrCmd ag (.setGain b)]

/-- `set.q b, q` (R311). -/
def pseudoSetQ (ag : Agent) (b : Byte) (q : Word) : List HostEvent := [wrCtl ag offArg0 q, wrCmd ag (.setQ b)]

/-- `update.peq`, `update.geq10`, `update.geq31` with the kind's words (R311). -/
def pseudoUpdate (ag : Agent) (k : EqKind) (ws : List Word) : List HostEvent :=
  wrPayload ag (ws.take (payloadUsed k)) ++ [wrCmd ag (.updateParams (BitVec.ofNat 8 (acceptedTag k)))]

/-- `clrerr` (R311). -/
def pseudoClrErr (ag : Agent) : List HostEvent := [wrCtl ag offStatus 0x00000002]

/-- `is_enabled` (R311): bit 0 of the value read. -/
def pseudoIsEnabled (ag : Agent) : List HostEvent := [rdCtl ag offStatus]

/-- `info` (R311). -/
def pseudoInfo (ag : Agent) : List HostEvent := [rdCtl ag offInfo]

/-- `result` (R311): the code is bits [7:0] of the value read. -/
def pseudoResult (ag : Agent) : List HostEvent := [rdCtl ag offResult]

end Sys2Proof.Machine
end

