-- ==== Sys2Proof/Machine/Step.lean ====
section
/-! DEFINITION. One step of the machine: the next host event of the serial order, whole (spec 20_memory R220, R221). -/

namespace Sys2Proof.Machine

/-- One step (R220, R221, R726). -/
def step (s : State) : Host.Outcome State Fault Refusal := serveNext s

/-- `s` with the host's write of the opcode table's word to CMD as its next event (R300; log entry 2). -/
def State.withFetchWord (s : State) (nbits w : Nat) : State :=
  { s with port := wrCtl .control offCmd (tableWord nbits w) :: s.port }

end Sys2Proof.Machine
end

