-- ==== Sys2Proof/Safety.lean ====
section
/-! DEFINITION. The terms claims are stated in: the invariant of every reachable state (spec 10_state R113, R114, R120–R124;
20_memory R201, R205, R206), and what values, ranges and runs mean in the statements. -/

namespace Sys2Proof.Safety

open Sys2Proof.Machine

/-- A non-NaN binary32 pattern in `[lo, hi]` (R120). -/
def wordInRange (lo hi v : Word) : Bool :=
  !isNan32 v && !lt32 (ofBits32 v) (ofBits32 lo) && !lt32 (ofBits32 hi) (ofBits32 v)

/-- R120 for one band. -/
def bandInRange (b : Band) : Bool :=
  wordInRange fMin fMax b.freq && wordInRange gainMin gainMax b.gain && wordInRange qMin qMax b.q

/-- The parts of a band that a graphic kind fixes (R123, R124). -/
def fixedPart (b : Band) : Word × Word := (b.freq, b.q)

/-- Frequencies and Qs of a graphic kind are the reset ones (R123, R124); a parametric kind fixes none. -/
def fixedBandsKept (k : EqKind) (bands : List Band) : Bool :=
  match k with
  | .parametric => true
  | .graphic10 | .graphic31 => bands.map fixedPart == (resetBands k).map fixedPart

/-- RESULT holds an opcode and a code of R700, its reserved bits 0 (R113). -/
def resultShaped (w : Word) : Bool := decide (w.toNat < 0x10000 ∧ w.toNat % 0x100 ≤ 8)

/-- Every listed byte lies in the sample space and belongs to a word written whole (R201, R204, R206). -/
def wholeWords (words : Nat) (m : Memory) : Bool :=
  m.all fun c => decide (c.1 < 4 * words) &&
    (List.range 4).all fun j => (memGet m (c.1 / 4 * 4 + j)).isSome

/-- What holds of every reachable state. -/
structure Invariant (s : State) : Prop where
  /-- R8. -/
  paramsValid : s.params.valid = true
  /-- R3, R118. -/
  bandCount : s.bands.length = nbands s.params.kind
  /-- R127. -/
  leftCount : s.left.length = nbands s.params.kind
  /-- R127. -/
  rightCount : s.right.length = nbands s.params.kind
  /-- R120. -/
  bandsInRange : s.bands.all bandInRange = true
  /-- R123, R124. -/
  bandsFixed : fixedBandsKept s.params.kind s.bands = true
  /-- R114. -/
  rateInRange : s.activeRate.toNat ≤ maxRate
  /-- R113, R700. -/
  resultShape : resultShaped s.result = true
  /-- The canonical form of memory. -/
  memCanonical : Memory.wf s.mem = true
  /-- R201, R206. -/
  memWhole : wholeWords s.params.sampleMemWords s.mem = true

/-- Word `i` has been written since reset (R207). -/
def written (s : State) (i : Nat) : Prop := (memReadWord s.mem i).isSome = true

/-- Every word of the buffer `[base, base + count)` has been written since reset (R810 step 3). -/
def bufferWritten (s : State) : Prop := ∀ i, baseOf s ≤ i → i < baseOf s + countOf s → written s i

/-- PROCESS is enabled and its checks pass (R517). -/
def processAccepted (s : State) : Prop :=
  s.enabled = true ∧ 1 ≤ rateOf s ∧ rateOf s ≤ maxRate ∧ countOf s % 2 = 0 ∧
    baseOf s + countOf s ≤ s.params.sampleMemWords

/-- Two sample words are the same word, or each is a NaN, whose pattern is free (R12, 93 U-5). -/
def sameSample (v w : Word) : Prop := v = w ∨ (isNan32 v = true ∧ isNan32 w = true)

/-- Two optional words: both absent, or the same sample. -/
def sameWord : Option Word → Option Word → Prop
  | none, none => True
  | some v, some w => sameSample v w
  | none, some _ => False
  | some _, none => False

/-- Two states that differ only in the patterns of NaN samples, in memory and in the value last read, and in how many free
patterns have been drawn. -/
def sameUpToNan (s t : State) : Prop :=
  t = { s with mem := t.mem, readData := t.readData, nanCount := t.nanCount } ∧
    (∀ i, sameWord (memReadWord s.mem i) (memReadWord t.mem i)) ∧ sameWord s.readData t.readData

/-- Two outcomes: next states alike up to NaN patterns, or the same stop. -/
def sameOutcome : Out → Out → Prop
  | .next s, .next t => sameUpToNan s t
  | .fault f, .fault g => f = g
  | .refused r, .refused q => r = q
  | .next _, .fault _ => False
  | .next _, .refused _ => False
  | .fault _, .next _ => False
  | .fault _, .refused _ => False
  | .refused _, .next _ => False
  | .refused _, .fault _ => False

/-- A binary32 subnormal pattern. -/
def isSubnormal32 (w : Word) : Bool := decide (w.toNat % 2 ^ 31 ≠ 0 ∧ w.toNat % 2 ^ 31 < 2 ^ 23)

/-- The outputs of one lane on a list of input words, from a lane state: each word through the cascade in turn (R514,
R515), as binary32 values. -/
def laneOutputs (cs : List Coeffs) : List StageState → List Word → List B32
  | _, [] => []
  | l, w :: ws => (filterSample cs l w).1 :: laneOutputs cs (filterSample cs l w).2 ws

/-- The lane state after a list of input words. -/
def laneAfter (cs : List Coeffs) : List StageState → List Word → List StageState
  | l, [] => l
  | l, w :: ws => laneAfter cs (filterSample cs l w).2 ws

/-- A word carries a binary32 value: `bits32` of it, or any NaN encoding where the value is a NaN (R12, R516). -/
def carries (w : Word) (v : B32) : Prop := ofBits32 w = v

/-- The input word of channel `c` in frame `k`, 0 where unwritten (R202). -/
def inputWord (s : State) (c : Channel) (k : Nat) : Word :=
  (memReadWord s.mem (baseOf s + 2 * k + (match c with | .left => 0 | .right => 1))).getD 0

/-- A lane's input words in frame order (R202). -/
def laneInputs (s : State) (c : Channel) : List Word := (List.range (countOf s / 2)).map (inputWord s c)

/-- Nothing but sample memory, the filter state and the counter of free values differs. -/
def sameButAudio (s t : State) : Prop :=
  t = { s with mem := t.mem, left := t.left, right := t.right, nanCount := t.nanCount }

end Sys2Proof.Safety
end

