-- ==== Sys2Proof/Certificates/Slice0/Obligations.lean ====
section
/-! DEFINITION. The statements for the provers, each from the rules of the spec it names. -/

open Sys2Proof Sys2Proof.Machine Sys2Proof.Safety

/-! ### Encoding (30_encoding) -/

/-- Words written out from R305's patterns and from V-E1 decode to the commands they stand for. -/
def Obligations.WrittenOutWordsDecode : Prop :=
  decode 0x00000000 = .command .nop ∧
  decode 0x01000000 = .command .process ∧
  decode 0x02000000 = .command .reset ∧
  decode 0x03000000 = .command (.setEnabled 0) ∧
  decode 0x03000001 = .command (.setEnabled 1) ∧
  decode 0x10010000 = .command (.setFreq 1) ∧
  decode 0x11020000 = .command (.setGain 2) ∧
  decode 0x11FF0000 = .command (.setGain 255) ∧
  decode 0x12800000 = .command (.setQ 128) ∧
  decode 0x20000001 = .command (.updateParams 1) ∧
  decode 0x20000004 = .command (.updateParams 4) ∧
  decode 0x00000001 = .illegal .immField ∧
  decode 0x01000100 = .illegal .reservedField ∧
  decode 0x01010000 = .illegal .bandField ∧
  decode 0x03000002 = .illegal .enableValue ∧
  decode 0x04000000 = .illegal .reservedOpcode ∧
  decode 0x20010001 = .illegal .bandField

/-- No bit of an encoding is dropped: every well-formed command, every operand value. -/
def Obligations.DecodeInvertsEncode : Prop :=
  ∀ i : Instr, i.wellFormed = true → decode (encode i) = .command i

/-- A command has one word: whatever decodes to it is its encoding. -/
def Obligations.EncodeInvertsDecode : Prop :=
  ∀ (w : Word) (i : Instr), decode w = .command i → i.wellFormed = true ∧ encode i = w

/-- R305: the words that are commands are those that match a row of the pattern table, each the row of its command, and
no word matches two rows. -/
def Obligations.CommandWordsMatchOnePatternRow : Prop :=
  (∀ w, (∃ i, decode w = .command i) ↔ ∃ r ∈ patternRows, w &&& r.1 = r.2) ∧
  (∀ w i, decode w = .command i → w &&& rowMask i = rowPattern i) ∧
  (∀ w, ∀ r ∈ patternRows, ∀ r' ∈ patternRows, w &&& r.1 = r.2 → w &&& r'.1 = r'.2 → r = r')

/-- R307: the illegal words are those of its five bullets, each completes with ILLEGAL and changes nothing else; a band
that does not exist and a tag that is not accepted are not illegal but BAD_BAND and BAD_KIND. -/
def Obligations.IllegalWordsOnlyReport : Prop :=
  (∀ w, (∃ r, decode w = .illegal r) ↔
    (fieldsOf w).opc ∉ ([0x00, 0x01, 0x02, 0x03, 0x10, 0x11, 0x12, 0x20] : List Byte) ∨
    (fieldsOf w).rsv ≠ 0 ∨
    ((fieldsOf w).band ≠ 0 ∧ (fieldsOf w).opc ∉ ([0x10, 0x11, 0x12] : List Byte)) ∨
    ((fieldsOf w).imm8 ≠ 0 ∧ (fieldsOf w).opc ∉ ([0x03, 0x20] : List Byte)) ∨
    ((fieldsOf w).opc = 0x03 ∧ 1 < (fieldsOf w).imm8.toNat)) ∧
  (∀ w r s, decode w = .illegal r →
    issueCommand w s =
      .next { s with result := BitVec.ofNat 32 (256 * (fieldsOf w).opc.toNat + 0x01), err := true }) ∧
  (∀ s (b : Byte), nbands s.params.kind ≤ b.toNat →
    issueCommand (wordOf ⟨0x10, b, 0, 0⟩) s = .next { s with result := 0x1002, err := true } ∧
    issueCommand (wordOf ⟨0x11, b, 0, 0⟩) s = .next { s with result := 0x1102, err := true } ∧
    issueCommand (wordOf ⟨0x12, b, 0, 0⟩) s = .next { s with result := 0x1202, err := true }) ∧
  (∀ s (tag : Byte), tag.toNat ≠ kindCode s.params.kind + 1 →
    issueCommand (wordOf ⟨0x20, 0, 0, tag⟩) s = .next { s with result := 0x2005, err := true })

/-! ### The step and the port (20_memory, 30_encoding R300) -/

/-- A step whose next host event writes a command's word to CMD is that command, and nothing else but the event's leaving
the queue and the end of that agent's own argument sequence (R821); so is the step after `withFetchWord`. One event of the
port per step is the model's form (log entry 2). -/
def Obligations.StepRunsTheDecodedCommand : Prop :=
  (∀ (s : State) (ag : Agent) (rest : List HostEvent) (w : Word) (i : Instr), decode w = .command i →
    step { s with port := .access ⟨ag, .control, 0x014, .word, .write w⟩ :: rest } =
      exec i { s with port := rest, argOwner := if s.argOwner = some ag then none else s.argOwner }) ∧
  (∀ (s : State) (nbits w : Nat) (i : Instr), decodeTableWord nbits w = some i →
    step (s.withFetchWord nbits w) =
      exec i { s with argOwner := if s.argOwner = some .control then none else s.argOwner })

/-- R726: between commands the block holds its state (a step with no event is the model's form, log entry 2). -/
def Obligations.IdleBlockHoldsItsState : Prop :=
  ∀ s : State, s.port = [] → step s = .next s

/-- R204: an access of another size, misaligned or outside its space is BUS_FAULT, no other access is, and a read of a
reserved or write-only control offset answers 0. -/
def Obligations.OnlyAlignedWordsInsideAreAdmitted : Prop :=
  ∀ (s : State) (a : Access) (rest : List HostEvent),
    let inside := a.size = .word ∧ a.offset % 4 = 0 ∧
      a.offset < (match a.space with | .control => 0x400 | .sample => 4 * s.params.sampleMemWords)
    (¬ inside → step { s with port := .access a :: rest } = .fault .busFault) ∧
    (inside → step { s with port := .access a :: rest } ≠ .fault .busFault) ∧
    (inside → a.space = .control → a.op = .read →
      (a.offset = 0x014 ∨ (0x024 ≤ a.offset ∧ a.offset < 0x040) ∨ (0x0C0 ≤ a.offset ∧ a.offset < 0x100) ∨
        0x300 ≤ a.offset) →
      step { s with port := .access a :: rest } = .next { s with port := rest, readData := some 0 })

/-- R207: no sample word has a value after reset, and a host read or a PROCESS read of a word without one faults. -/
def Obligations.UnwrittenWordsFault : Prop :=
  (∀ (p : Params) (i : Nat), memReadWord (State.resetWith p).mem i = none) ∧
  (∀ (s : State) (ag : Agent) (rest : List HostEvent) (i : Nat), i < s.params.sampleMemWords →
    memReadWord s.mem i = none → step { s with port := rdSmp ag i :: rest } = .fault .unwrittenRead) ∧
  (∀ s : State, processAccepted s →
    (∃ i, baseOf s ≤ i ∧ i < baseOf s + countOf s ∧ memReadWord s.mem i = none) →
    exec .process s = .fault .unwrittenRead)

/-- R206: a sample word reads as last written, by the host's accesses and by the primitives PROCESS uses; a write leaves every
other word and everything outside sample memory alone; a word without a value faults. -/
def Obligations.SampleMemoryReadsBackWrites : Prop :=
  (∀ (s : State) (ag : Agent) (rest : List HostEvent) (i : Nat) (w : Word), i < s.params.sampleMemWords →
    (∃ t, step { s with port := wrSmp ag i w :: rest } = .next t ∧ t = { s with port := rest, mem := t.mem } ∧
      memReadWord t.mem i = some w ∧ ∀ j, j ≠ i → memReadWord t.mem j = memReadWord s.mem j) ∧
    (∀ v, memReadWord s.mem i = some v →
      step { s with port := rdSmp ag i :: rest } = .next { s with port := rest, readData := some v }) ∧
    (memReadWord s.mem i = none → step { s with port := rdSmp ag i :: rest } = .fault .unwrittenRead)) ∧
  (∀ (m : Memory) (i : Nat) (w : Word), memReadWord (memWriteWord m i w) i = some w ∧
    ∀ a, a < 4 * i ∨ 4 * i + 4 ≤ a → memGet (memWriteWord m i w) a = memGet m a) ∧
  (∀ (cs : List Coeffs) (c : Channel) (s : State) (i : Nat),
    (memReadWord s.mem i = none → sampleStep cs c i s = .fault .unwrittenRead) ∧
    ∀ t, sampleStep cs c i s = .next t → ∃ w, t.mem = memWriteWord s.mem i w)

/-- R203: byte `j` of the word at byte offset `4 i` holds its bits [8j+7 : 8j]. -/
def Obligations.SampleWordsAreLittleEndian : Prop :=
  ∀ (s : State) (ag : Agent) (rest : List HostEvent) (i j : Nat) (w : Word), i < s.params.sampleMemWords → j < 4 →
    ∃ t, step { s with port := wrSmp ag i w :: rest } = .next t ∧
      ∃ x, memGet t.mem (4 * i + j) = some x ∧ ∀ k, k < 8 → x.getLsbD k = w.getLsbD (8 * j + k)

/-- R707, R720: the block answers no access by which agent issued it: the next states agree but for the hosts' lock, the
faults agree, and with no argument sequence open neither agent is refused. -/
def Obligations.AgentsAreNotDistinguished : Prop :=
  ∀ (s : State) (a : Access) (ag : Agent) (rest : List HostEvent),
    let mine := step { s with port := .access a :: rest }
    let other := step { s with port := .access { a with agent := ag } :: rest }
    (∀ t u, mine = .next t → other = .next u → u = { t with argOwner := u.argOwner }) ∧
    (∀ f, mine = .fault f ↔ other = .fault f) ∧
    (s.argOwner = none → (∀ r, mine ≠ .refused r) ∧ ∀ r, other ≠ .refused r)

/-- R821, 92 D30, 93 U-11: inside one agent's argument sequence the other agent's write of ARG0..2 or PAYLOAD has no move, and
that is the only refusal of a step; a sequence opens at an agent's first operand write and ends at its own CMD write, or at
hardware reset (log entry 9: no register shows the lock). -/
def Obligations.BrokenLocksHaveNoMove : Prop :=
  (∀ (s : State) (ag : Agent) (rest : List HostEvent) (off : Nat) (w : Word),
    (off = 0x018 ∨ off = 0x01C ∨ off = 0x020 ∨ (0x040 ≤ off ∧ off < 0x0C0 ∧ off % 4 = 0)) →
    (∀ o, s.argOwner = some o → o ≠ ag → step { s with port := wrCtl ag off w :: rest } = .refused .lockBroken) ∧
    (s.argOwner = none ∨ s.argOwner = some ag →
      ∃ t, step { s with port := wrCtl ag off w :: rest } = .next t ∧ t.argOwner = some ag)) ∧
  (∀ (s : State) (r : Refusal), step s = .refused r → r = .lockBroken ∧ ∃ ag o off w,
    s.port.head? = some (wrCtl ag off w) ∧ s.argOwner = some o ∧ o ≠ ag ∧
      (off = 0x018 ∨ off = 0x01C ∨ off = 0x020 ∨ (0x040 ≤ off ∧ off < 0x0C0))) ∧
  (∀ (s t : State) (o : Agent), s.argOwner = some o → step s = .next t →
    t.argOwner = (if s.port.head? = some .hardwareReset ∨ ∃ w, s.port.head? = some (wrCtl o 0x014 w) then none else some o)) ∧
  (∀ p : Params, (State.resetWith p).argOwner = none)

/-- R311, R820: an operand written before its command is the command's operand, in the seven pseudo-instructions that stage
any, as their expansions. A step performs one access (log entry 2), and the agent must hold the lock (R821). -/
def Obligations.PseudoInstructionsStageTheirOperands : Prop :=
  ∀ (s : State) (ag : Agent) (rest : List HostEvent), (s.argOwner = none ∨ s.argOwner = some ag) →
    (∀ (b : Byte) (v : Word),
      andThen (step { s with port := pseudoSetFreq ag b v ++ rest }) step =
        exec (.setFreq b) { s with arg0 := v, port := rest, argOwner := none } ∧
      andThen (step { s with port := pseudoSetGain ag b v ++ rest }) step =
        exec (.setGain b) { s with arg0 := v, port := rest, argOwner := none } ∧
      andThen (step { s with port := pseudoSetQ ag b v ++ rest }) step =
        exec (.setQ b) { s with arg0 := v, port := rest, argOwner := none }) ∧
    (∀ base count rate : Word,
      andThen (andThen (andThen (step { s with port := pseudoProcess ag base count rate ++ rest }) step) step) step =
        exec .process { s with arg0 := base, arg1 := count, arg2 := rate, port := rest, argOwner := none }) ∧
    (∀ (k : EqKind) (ws : List Word),
      ws.length = (match k with | .parametric => 9 | .graphic10 => 10 | .graphic31 => 31) →
      (fun o => andThen o step)^[ws.length + 1] (.next { s with port := pseudoUpdate ag k ws ++ rest }) =
        exec (.updateParams (match k with | .parametric => 1 | .graphic10 => 2 | .graphic31 => 3))
          { s with
            payload := Vector.ofFn fun i => (ws[i.val]?).getD s.payload[i]
            port := rest
            argOwner := none })

/-! ### Registers (10_state) -/

/-- R110, R111: ID and INFO read their constants, in every state. -/
def Obligations.IdAndInfoReadTheirConstants : Prop :=
  ∀ (s : State) (ag : Agent) (rest : List HostEvent),
    step { s with port := rdCtl ag 0x000 :: rest } = .next { s with port := rest, readData := some 0x42514551 } ∧
    step { s with port := rdCtl ag 0x004 :: rest } = .next { s with
      port := rest
      readData := some (match s.params.kind with
        | .parametric => 0x00120300 | .graphic10 => 0x00120A01 | .graphic31 => 0x00121F02) }

/-- R112: STATUS shows ENABLED, ERR and RATE_SET and nothing else; a write clears ERR by its bit 1 and does nothing else;
after reset it is ENABLED alone. -/
def Obligations.StatusShowsTheFlags : Prop :=
  (∀ (s : State) (ag : Agent) (rest : List HostEvent), ∃ v : Word,
    step { s with port := rdCtl ag 0x008 :: rest } = .next { s with port := rest, readData := some v } ∧
    v.getLsbD 0 = s.enabled ∧ v.getLsbD 1 = s.err ∧ (v.getLsbD 2 = true ↔ s.activeRate ≠ 0) ∧
    ∀ k, 3 ≤ k → v.getLsbD k = false) ∧
  (∀ (s : State) (ag : Agent) (rest : List HostEvent) (w : Word),
    step { s with port := wrCtl ag 0x008 w :: rest } =
      .next { s with port := rest, err := if w.getLsbD 1 then false else s.err }) ∧
  (∀ p : Params, (State.resetWith p).enabled = true ∧ (State.resetWith p).err = false ∧
    (State.resetWith p).activeRate = 0)

/-- R116, R117: ARG0..2 and PAYLOAD read what the host last wrote; no command writes them; they reset to 0. That
a write needs the lock of R821 held or free, and opens the agent's argument sequence, is the model's reading (log entry 9). -/
def Obligations.OperandRegistersAreReadWrite : Prop :=
  (∀ (s : State) (ag : Agent) (rest : List HostEvent) (w : Word),
    let mayWrite := s.argOwner = none ∨ s.argOwner = some ag
    (mayWrite → step { s with port := wrCtl ag 0x018 w :: rest } =
      .next { s with port := rest, arg0 := w, argOwner := some ag }) ∧
    (mayWrite → step { s with port := wrCtl ag 0x01C w :: rest } =
      .next { s with port := rest, arg1 := w, argOwner := some ag }) ∧
    (mayWrite → step { s with port := wrCtl ag 0x020 w :: rest } =
      .next { s with port := rest, arg2 := w, argOwner := some ag }) ∧
    step { s with port := rdCtl ag 0x018 :: rest } = .next { s with port := rest, readData := some s.arg0 } ∧
    step { s with port := rdCtl ag 0x01C :: rest } = .next { s with port := rest, readData := some s.arg1 } ∧
    step { s with port := rdCtl ag 0x020 :: rest } = .next { s with port := rest, readData := some s.arg2 } ∧
    ∀ i : Fin 32,
      (mayWrite → step { s with port := wrCtl ag (0x040 + 4 * i.val) w :: rest } =
        .next { s with port := rest, payload := s.payload.set i w, argOwner := some ag }) ∧
      step { s with port := rdCtl ag (0x040 + 4 * i.val) :: rest } =
        .next { s with port := rest, readData := some s.payload[i] }) ∧
  (∀ (w : Word) (s t : State), issueCommand w s = .next t →
    t.arg0 = s.arg0 ∧ t.arg1 = s.arg1 ∧ t.arg2 = s.arg2 ∧ t.payload = s.payload) ∧
  (∀ p : Params, (State.resetWith p).arg0 = 0 ∧ (State.resetWith p).arg1 = 0 ∧ (State.resetWith p).arg2 = 0 ∧
    ∀ i : Fin 32, (State.resetWith p).payload[i] = 0)

/-- R104: a reserved offset reads 0, a write to it or to a read-only register changes nothing, and a write to STATUS
changes ERR alone, as R112 says. -/
def Obligations.ReservedAndReadOnlyOffsetsIgnoreWrites : Prop :=
  ∀ (s : State) (ag : Agent) (rest : List HostEvent) (off : Nat), off % 4 = 0 → off < 0x400 →
    (∀ w : Word,
      (off = 0x000 ∨ off = 0x004 ∨ off = 0x00C ∨ off = 0x010 ∨ (0x024 ≤ off ∧ off < 0x040) ∨ 0x0C0 ≤ off) →
      step { s with port := wrCtl ag off w :: rest } = .next { s with port := rest }) ∧
    (((0x024 ≤ off ∧ off < 0x040) ∨ (0x0C0 ≤ off ∧ off < 0x100) ∨ 0x300 ≤ off) →
      step { s with port := rdCtl ag off :: rest } = .next { s with port := rest, readData := some 0 }) ∧
    (∀ w : Word, off = 0x008 →
      step { s with port := wrCtl ag off w :: rest } =
        .next { s with port := rest, err := if w.getLsbD 1 then false else s.err })

/-- R118, R119, R121: the BAND registers of an existing band read the band file and the band's TYPE code, those of the others
0, and a write to any of them is ignored. -/
def Obligations.BandRegistersReadTheBandFile : Prop :=
  ∀ (s : State) (ag : Agent) (rest : List HostEvent) (b : Nat), b < 32 →
    (∀ band, b < nbands s.params.kind → s.bands[b]? = some band →
      step { s with port := rdCtl ag (0x100 + 16 * b) :: rest } =
        .next { s with port := rest, readData := some band.freq } ∧
      step { s with port := rdCtl ag (0x104 + 16 * b) :: rest } =
        .next { s with port := rest, readData := some band.gain } ∧
      step { s with port := rdCtl ag (0x108 + 16 * b) :: rest } =
        .next { s with port := rest, readData := some band.q } ∧
      step { s with port := rdCtl ag (0x10C + 16 * b) :: rest } =
        .next { s with
          port := rest
          readData := some (if s.params.kind = .parametric then (if b = 0 then 1 else if b = 1 then 0 else 2) else 0) }) ∧
    (∀ j, j < 4 → nbands s.params.kind ≤ b →
      step { s with port := rdCtl ag (0x100 + 16 * b + 4 * j) :: rest } =
        .next { s with port := rest, readData := some 0 }) ∧
    (∀ j w, j < 4 → step { s with port := wrCtl ag (0x100 + 16 * b + 4 * j) w :: rest } = .next { s with port := rest })

/-- RESULT, ACTIVE_RATE and CMD as read (R113, R114, R115). -/
def Obligations.ReportingRegistersRead : Prop :=
  ∀ (s : State) (ag : Agent) (rest : List HostEvent),
    step { s with port := rdCtl ag 0x00C :: rest } = .next { s with port := rest, readData := some s.result } ∧
    step { s with port := rdCtl ag 0x010 :: rest } = .next { s with port := rest, readData := some s.activeRate } ∧
    step { s with port := rdCtl ag 0x014 :: rest } = .next { s with port := rest, readData := some 0 }

/-- R821's hazard: an operand register changes only by a host write to it, by an agent that holds the lock, and by hardware
reset besides. -/
def Obligations.OperandsChangeOnlyByHostWrites : Prop :=
  ∀ (s t : State), step s = .next t →
    let writtenAt (off : Nat) (w : Word) := ∃ ag, s.port.head? = some (wrCtl ag off w) ∧
      (s.argOwner = none ∨ s.argOwner = some ag) ∧ t.argOwner = some ag
    (t.arg0 ≠ s.arg0 → s.port.head? = some .hardwareReset ∨ writtenAt 0x018 t.arg0) ∧
    (t.arg1 ≠ s.arg1 → s.port.head? = some .hardwareReset ∨ writtenAt 0x01C t.arg1) ∧
    (t.arg2 ≠ s.arg2 → s.port.head? = some .hardwareReset ∨ writtenAt 0x020 t.arg2) ∧
    (∀ i : Fin 32, t.payload[i] ≠ s.payload[i] →
      s.port.head? = some .hardwareReset ∨ writtenAt (0x040 + 4 * i.val) t.payload[i])

/-! ### Control commands (40_control) -/

/-- R400: NOP changes RESULT alone, to 0; its only word is 0. -/
def Obligations.NopOnlyReports : Prop :=
  (∀ s : State, exec .nop s = .next { s with result := 0x00000000 }) ∧
  decode 0x00000000 = .command .nop ∧
  (∀ w : Word, (fieldsOf w).opc = 0x00 → w ≠ 0x00000000 → ∃ r, decode w = .illegal r)

/-- R405: RESET zeroes both lanes' state and reports, enabled or not; every other field, memory included, is kept. -/
def Obligations.ResetZeroesTheFilterState : Prop :=
  decode 0x02000000 = .command .reset ∧
  (∀ s : State, exec .reset s = .next { s with
    result := 0x00000200
    left := List.replicate (nbands s.params.kind) ⟨.posZero, .posZero, .posZero, .posZero⟩
    right := List.replicate (nbands s.params.kind) ⟨.posZero, .posZero, .posZero, .posZero⟩ })

/-- R410: SET_ENABLED writes ENABLED and reports, nothing else; with IMM8 > 1 or another non-zero field the word is illegal
and ENABLED is kept. -/
def Obligations.SetEnabledWritesTheFlag : Prop :=
  decode 0x03000000 = .command (.setEnabled 0) ∧
  decode 0x03000001 = .command (.setEnabled 1) ∧
  (∀ s : State, exec (.setEnabled 0) s = .next { s with enabled := false, result := 0x00000300 } ∧
    exec (.setEnabled 1) s = .next { s with enabled := true, result := 0x00000300 }) ∧
  (∀ (w : Word) (s : State), (fieldsOf w).opc = 0x03 → w ≠ 0x03000000 → w ≠ 0x03000001 →
    issueCommand w s = .next { s with result := 0x00000301, err := true })

/-- R406: two states that differ in their filter state and in the free values drawn so far are alike after RESET, and alike
states stay alike over any sequence of host events, so nothing a later command answers depends on playback before the
RESET (NaN patterns apart, which are free). -/
def Obligations.ResetForgetsPlayback : Prop :=
  (∀ (s : State) (l r : List StageState) (n : Nat), ∃ u u',
    exec .reset s = .next u ∧ exec .reset { s with left := l, right := r, nanCount := n } = .next u' ∧
      sameUpToNan u u') ∧
  (∀ (k : Nat) (s s' : State), sameUpToNan s s' → sameOutcome (core.run k s) (core.run k s'))

/-! ### Parameter commands (42_parameters) -/

/-- R606: SET_FREQ's encoding, its rejections in their priority, and the clamped value stored in band `b` alone. -/
def Obligations.SetFreqStoresTheClampedValue : Prop :=
  ∀ (s : State) (b : Byte),
    decode (wordOf ⟨0x10, b, 0, 0⟩) = .command (.setFreq b) ∧
    (nbands s.params.kind ≤ b.toNat → exec (.setFreq b) s = .next { s with result := 0x1002, err := true }) ∧
    (b.toNat < nbands s.params.kind → s.params.kind ≠ .parametric →
      exec (.setFreq b) s = .next { s with result := 0x1003, err := true }) ∧
    (b.toNat < nbands s.params.kind → s.params.kind = .parametric → isNan32 s.arg0 = true →
      exec (.setFreq b) s = .next { s with result := 0x1004, err := true }) ∧
    (∀ band, b.toNat < nbands s.params.kind → s.params.kind = .parametric → isNan32 s.arg0 = false →
      s.bands[b.toNat]? = some band →
      exec (.setFreq b) s = .next { s with
        result := 0x1000
        bands := s.bands.set b.toNat { band with
          freq := if lt32 (ofBits32 s.arg0) (ofBits32 0x41200000) then 0x41200000
            else if lt32 (ofBits32 0x48F42400) (ofBits32 s.arg0) then 0x48F42400 else s.arg0 } })

/-- R607: SET_GAIN's encoding, its rejections in their priority, and the clamped value stored in band `b` alone, -0.0 as
itself; and -0.0 designs exactly like +0.0, for any functions of R503. -/
def Obligations.SetGainStoresTheClampedValue : Prop :=
  (∀ (lm : Libm) (ty : BandType) (band : Band) (rate : Nat), MeetsR503abc lm →
    design lm ty { band with gain := 0x80000000 } rate = design lm ty { band with gain := 0x00000000 } rate) ∧
  (∀ (s : State) (b : Byte) (band : Band), s.arg0 = 0x80000000 → b.toNat < nbands s.params.kind →
    s.bands[b.toNat]? = some band →
    exec (.setGain b) s =
      .next { s with result := 0x1100, bands := s.bands.set b.toNat { band with gain := 0x80000000 } }) ∧
  ∀ (s : State) (b : Byte),
    decode (wordOf ⟨0x11, b, 0, 0⟩) = .command (.setGain b) ∧
    (nbands s.params.kind ≤ b.toNat → exec (.setGain b) s = .next { s with result := 0x1102, err := true }) ∧
    (b.toNat < nbands s.params.kind → isNan32 s.arg0 = true →
      exec (.setGain b) s = .next { s with result := 0x1104, err := true }) ∧
    (∀ band, b.toNat < nbands s.params.kind → isNan32 s.arg0 = false → s.bands[b.toNat]? = some band →
      exec (.setGain b) s = .next { s with
        result := 0x1100
        bands := s.bands.set b.toNat { band with
          gain := if lt32 (ofBits32 s.arg0) (ofBits32 0xC1400000) then 0xC1400000
            else if lt32 (ofBits32 0x41400000) (ofBits32 s.arg0) then 0x41400000 else s.arg0 } })

/-- R608: SET_Q's encoding, its rejections in their priority, and the clamped value stored in band `b` alone; the Q of bands
0 and 2 of PARAMETRIC, stored like the others, has no effect on their coefficients (R506). -/
def Obligations.SetQStoresTheClampedValue : Prop :=
  (∀ (lm : Libm) (b : Nat) (band : Band) (q : Word) (rate : Nat), b = 0 ∨ b = 2 →
    design lm (bandType .parametric b) { band with q := q } rate = design lm (bandType .parametric b) band rate) ∧
  ∀ (s : State) (b : Byte),
    decode (wordOf ⟨0x12, b, 0, 0⟩) = .command (.setQ b) ∧
    (nbands s.params.kind ≤ b.toNat → exec (.setQ b) s = .next { s with result := 0x1202, err := true }) ∧
    (b.toNat < nbands s.params.kind → s.params.kind ≠ .parametric →
      exec (.setQ b) s = .next { s with result := 0x1203, err := true }) ∧
    (b.toNat < nbands s.params.kind → s.params.kind = .parametric → isNan32 s.arg0 = true →
      exec (.setQ b) s = .next { s with result := 0x1204, err := true }) ∧
    (∀ band, b.toNat < nbands s.params.kind → s.params.kind = .parametric → isNan32 s.arg0 = false →
      s.bands[b.toNat]? = some band →
      exec (.setQ b) s = .next { s with
        result := 0x1200
        bands := s.bands.set b.toNat { band with
          q := if lt32 (ofBits32 s.arg0) (ofBits32 0x3DCCCCCD) then 0x3DCCCCCD
            else if lt32 (ofBits32 0x41200000) (ofBits32 s.arg0) then 0x41200000 else s.arg0 } })

/-- R609: UPDATE_PARAMS accepts one tag, rejects any NaN among the words its kind uses, and otherwise stores the whole
payload clamped; words its kind does not use are ignored. -/
def Obligations.UpdateParamsStoresThePayload : Prop :=
  ∀ (s : State) (tag : Byte),
    let used := match s.params.kind with | .parametric => 9 | .graphic10 => 10 | .graphic31 => 31
    let accepted := tag.toNat = (match s.params.kind with | .parametric => 1 | .graphic10 => 2 | .graphic31 => 3)
    decode (wordOf ⟨0x20, 0, 0, tag⟩) = .command (.updateParams tag) ∧
    (¬ accepted → exec (.updateParams tag) s = .next { s with result := 0x2005, err := true }) ∧
    (accepted → (∃ i, i < used ∧ isNan32 (payloadWord s i) = true) →
      exec (.updateParams tag) s = .next { s with result := 0x2004, err := true }) ∧
    (accepted → s.params.kind = .parametric → (∀ i, i < used → isNan32 (payloadWord s i) = false) →
      exec (.updateParams tag) s = .next { s with
        result := 0x2000
        bands := [
          ⟨clampFreq (payloadWord s 0), clampGain (payloadWord s 1), clampQ (payloadWord s 2)⟩,
          ⟨clampFreq (payloadWord s 3), clampGain (payloadWord s 4), clampQ (payloadWord s 5)⟩,
          ⟨clampFreq (payloadWord s 6), clampGain (payloadWord s 7), clampQ (payloadWord s 8)⟩] }) ∧
    (accepted → s.params.kind ≠ .parametric → (∀ i, i < used → isNan32 (payloadWord s i) = false) →
      ∃ t, exec (.updateParams tag) s = .next t ∧ t = { s with result := 0x2000, bands := t.bands } ∧
        t.bands.length = s.bands.length ∧
        ∀ (b : Nat) (band : Band), s.bands[b]? = some band → t.bands[b]? = some { band with gain := clampGain (payloadWord s b) })

/-- R600: a step changes a band parameter only when it is a host's write of SET_FREQ, SET_GAIN, SET_Q or UPDATE_PARAMS to
CMD, or hardware reset. -/
def Obligations.OnlyParameterCommandsChangeBands : Prop :=
  ∀ (s t : State), step s = .next t → t.bands ≠ s.bands →
    s.port.head? = some .hardwareReset ∨
    ∃ ag w, s.port.head? = some (wrCtl ag 0x014 w) ∧
      ((∃ b, decode w = .command (.setFreq b)) ∨ (∃ b, decode w = .command (.setGain b)) ∨
        (∃ b, decode w = .command (.setQ b)) ∨ ∃ tag, decode w = .command (.updateParams tag))

/-- R601, R602, R603 (with R15), in numbers: a value that is no NaN is stored as itself when it lies in the range, as the
lower bound when it lies below, -Infinity included, and as the upper bound when it lies above; SET_GAIN, SET_Q and SET_FREQ
store that. -/
def Obligations.ClampsStoreTheNearestAdmittedValue : Prop :=
  ∀ v : Word, isNan32 v = false →
    let below (lo : ℚ) := match ofBits32 v with
      | .nan => False | .inf neg => neg = true | .fin neg mag => ratOf32 (.fin neg mag) < lo
    let above (hi : ℚ) := match ofBits32 v with
      | .nan => False | .inf neg => neg = false | .fin neg mag => hi < ratOf32 (.fin neg mag)
    let qMinValue := ratOf32 (ofBits32 0x3DCCCCCD)
    (below (-12) → clampGain v = 0xC1400000) ∧ (above 12 → clampGain v = 0x41400000) ∧
      (¬ below (-12) → ¬ above 12 → clampGain v = v) ∧
    (below qMinValue → clampQ v = 0x3DCCCCCD) ∧ (above 10 → clampQ v = 0x41200000) ∧
      (¬ below qMinValue → ¬ above 10 → clampQ v = v) ∧
    (below 10 → clampFreq v = 0x41200000) ∧ (above 500000 → clampFreq v = 0x48F42400) ∧
      (¬ below 10 → ¬ above 500000 → clampFreq v = v) ∧
    ∀ (s : State) (b : Byte) (band : Band), s.arg0 = v → b.toNat < nbands s.params.kind →
      s.bands[b.toNat]? = some band →
      exec (.setGain b) s =
        .next { s with result := 0x1100, bands := s.bands.set b.toNat { band with gain := clampGain v } } ∧
      (s.params.kind = .parametric →
        exec (.setQ b) s =
          .next { s with result := 0x1200, bands := s.bands.set b.toNat { band with q := clampQ v } } ∧
        exec (.setFreq b) s =
          .next { s with result := 0x1000, bands := s.bands.set b.toNat { band with freq := clampFreq v } })

/-! ### PROCESS (41_process section 3) -/

/-- R519: a disabled PROCESS reads no operand and only reports OK. -/
def Obligations.DisabledProcessIsABypass : Prop :=
  ∀ s : State, s.enabled = false → exec .process s = .next { s with result := 0x00000100 }

/-- The rejections of an enabled PROCESS, in their order, on unbounded integers (R517, R525, R703). -/
def Obligations.ProcessRejectsMalformedCalls : Prop :=
  ∀ s : State, s.enabled = true →
    ((s.arg2.toNat = 0 ∨ 1000000 < s.arg2.toNat) →
      exec .process s = .next { s with result := 0x00000106, err := true }) ∧
    (1 ≤ s.arg2.toNat → s.arg2.toNat ≤ 1000000 → s.arg1.toNat % 2 = 1 →
      exec .process s = .next { s with result := 0x00000107, err := true }) ∧
    (1 ≤ s.arg2.toNat → s.arg2.toNat ≤ 1000000 → s.arg1.toNat % 2 = 0 →
      s.params.sampleMemWords < s.arg0.toNat + s.arg1.toNat →
      exec .process s = .next { s with result := 0x00000108, err := true })

/-- An accepted PROCESS over a written buffer completes: each lane's words become that lane's own filter outputs, from zero
state where the rate is new and from the kept state where it is not, with the coefficients the band file and the rate
give; nothing else changes but ACTIVE_RATE, RESULT and the counter of free values (R202, R500, R514–R518, R520). -/
def Obligations.ProcessFiltersEachLaneInPlace : Prop :=
  ∀ s : State, processAccepted s → bufferWritten s →
    let cs := s.bands.mapIdx fun b band => design libm (bandType s.params.kind b) band s.arg2.toNat
    let start (c : Channel) : List StageState :=
      if s.arg2 = s.activeRate then lane s c
      else List.replicate (nbands s.params.kind) ⟨.posZero, .posZero, .posZero, .posZero⟩
    ∃ t, exec .process s = .next t ∧
      t = { s with
        result := 0x00000100, activeRate := s.arg2, left := t.left, right := t.right, mem := t.mem,
        nanCount := t.nanCount } ∧
      (∀ c, lane t c = laneAfter cs (start c) (laneInputs s c)) ∧
      (∀ k v, (laneOutputs cs (start .left) (laneInputs s .left))[k]? = some v →
        ∃ w, memReadWord t.mem (baseOf s + 2 * k) = some w ∧ carries w v) ∧
      (∀ k v, (laneOutputs cs (start .right) (laneInputs s .right))[k]? = some v →
        ∃ w, memReadWord t.mem (baseOf s + 2 * k + 1) = some w ∧ carries w v) ∧
      (∀ a, a < 4 * baseOf s ∨ 4 * (baseOf s + countOf s) ≤ a → memGet t.mem a = memGet s.mem a)

/-- R518: an accepted PROCESS with a new rate answers what it would answer from zero filter state at that rate, and its
next state has that rate; the first accepted PROCESS after hardware reset always has a new rate. -/
def Obligations.RateChangeClearsTheFilterState : Prop :=
  (∀ s : State, processAccepted s → s.arg2 ≠ s.activeRate →
    exec .process s = exec .process { s with
      activeRate := s.arg2
      left := List.replicate (nbands s.params.kind) ⟨.posZero, .posZero, .posZero, .posZero⟩
      right := List.replicate (nbands s.params.kind) ⟨.posZero, .posZero, .posZero, .posZero⟩ }) ∧
  (∀ s t : State, processAccepted s → exec .process s = .next t → t.activeRate = s.arg2) ∧
  (∀ s : State, processAccepted s → s.activeRate = 0 → s.arg2 ≠ s.activeRate)

/-- R515: what a PROCESS leaves on a lane, in its words and in its state, depends on that lane's own words and state and not
on the other lane's (NaN patterns apart, which are free). -/
def Obligations.LanesDoNotMix : Prop :=
  ∀ (c : Channel) (s s' t t' : State),
    s.params = s'.params → s.bands = s'.bands → s.enabled = s'.enabled → s.activeRate = s'.activeRate →
    s.arg0 = s'.arg0 → s.arg1 = s'.arg1 → s.arg2 = s'.arg2 → lane s c = lane s' c →
    (∀ k, k < countOf s / 2 → inputWord s c k = inputWord s' c k) →
    exec .process s = .next t → exec .process s' = .next t' →
    lane t c = lane t' c ∧
    ∀ k w w', k < countOf s / 2 →
      memReadWord t.mem (baseOf s + 2 * k + (match c with | .left => 0 | .right => 1)) = some w →
      memReadWord t'.mem (baseOf s + 2 * k + (match c with | .left => 0 | .right => 1)) = some w' →
      sameSample w w'

/-- R523, its first two consequences (from a state that meets the invariant, which reset meets and every step keeps): no word an accepted PROCESS writes is a binary32 subnormal or -0.0. -/
def Obligations.OutputsAreNeitherSubnormalNorNegativeZero : Prop :=
  ∀ s t : State, Invariant s → processAccepted s → exec .process s = .next t →
    ∀ i, baseOf s ≤ i → i < baseOf s + countOf s →
      ∃ w, memReadWord t.mem i = some w ∧ (isNan32 w = false → isSubnormal32 w = false ∧ w ≠ 0x80000000)

/-- R521, its first bullet: a NaN input word makes every output of its lane from that sample on a NaN. -/
def Obligations.NanPoisonsItsLane : Prop :=
  ∀ (cs : List Coeffs) (l : List StageState) (w : Word) (ws : List Word), cs ≠ [] → l ≠ [] → isNan32 w = true →
    ∀ v ∈ laneOutputs cs l (w :: ws), v = .nan

/-! ### Reports, stops and frames (60_exceptions, 10_state) -/

/-- R701: RESULT after any completed word is its OPC and one of R700's codes; ERR is set by a non-zero code and kept by OK. -/
def Obligations.EveryCommandReportsOpcodeAndCode : Prop :=
  ∀ (w : Word) (s t : State), issueCommand w s = .next t →
    ∃ code, code ≤ 8 ∧ t.result = BitVec.ofNat 32 (256 * (w.toNat / 2 ^ 24) + code) ∧
      t.err = (if code = 0 then s.err else true)

/-- R702: a command word that completes with a non-zero code changes nothing but RESULT and ERR. -/
def Obligations.RejectionsOnlyReport : Prop :=
  ∀ (w : Word) (s t : State), issueCommand w s = .next t → t.result.toNat % 256 ≠ 0 →
    t = { s with result := t.result, err := true }

/-- No command is refused, and the only stop of one is PROCESS over an unwritten word (R207, R710, R711). -/
def Obligations.OnlyProcessStopsOnUnwrittenWords : Prop :=
  ∀ (i : Instr) (s : State),
    (∀ r, exec i s ≠ .refused r) ∧
    (∀ f, exec i s = .fault f → i = .process ∧ f = .unwrittenRead ∧ processAccepted s ∧ ¬ bufferWritten s)

/-- The frame of every command: construction parameters and operand registers are kept, and ERR is never cleared (R100, R116,
R117, R126); so are the model's own fields, the hosts' lock, their pending events and the value last read, which is the
model's choice (log entries 2, 6 and 9). -/
def Obligations.CommandsKeepOperandsAndParameters : Prop :=
  ∀ (i : Instr) (s t : State), exec i s = .next t →
    t.params = s.params ∧ t.arg0 = s.arg0 ∧ t.arg1 = s.arg1 ∧ t.arg2 = s.arg2 ∧ t.payload = s.payload ∧
      t.argOwner = s.argOwner ∧ t.port = s.port ∧ t.readData = s.readData ∧ (s.err = true → t.err = true)

/-- The frame of sample memory: only an accepted PROCESS writes it, and then no byte outside its buffer, whose length never
changes (R205, R520). -/
def Obligations.OnlyAcceptedProcessWritesSamples : Prop :=
  ∀ (i : Instr) (s t : State), exec i s = .next t →
    (i ≠ .process ∨ ¬ processAccepted s → t.mem = s.mem ∧ t.nanCount = s.nanCount) ∧
    (∀ a, a < 4 * baseOf s ∨ 4 * (baseOf s + countOf s) ≤ a → memGet t.mem a = memGet s.mem a) ∧
    (∀ j, written t j ↔ written s j)

/-- The frame of the filter state: only RESET and an accepted PROCESS write it; while ENABLED is 0 only RESET does (R411,
R513, R610). -/
def Obligations.OnlyResetAndProcessChangeFilterState : Prop :=
  ∀ (i : Instr) (s t : State), exec i s = .next t →
    i ≠ .reset → (i ≠ .process ∨ s.enabled = false ∨ ¬ processAccepted s) → t.left = s.left ∧ t.right = s.right

/-- The frames of ENABLED, ACTIVE_RATE and the band file under commands (R114, R125, R600). -/
def Obligations.FlagRateAndBandFrames : Prop :=
  ∀ (i : Instr) (s t : State), exec i s = .next t →
    (t.enabled ≠ s.enabled → ∃ en, i = .setEnabled en) ∧
    (t.activeRate ≠ s.activeRate → i = .process ∧ processAccepted s ∧ t.activeRate = s.arg2) ∧
    ((i = .nop ∨ i = .process ∨ i = .reset ∨ ∃ en, i = .setEnabled en) → t.bands = s.bands)

/-! ### Reset and invariants (10_state R120–R130, 70_reset_and_hazards) -/

/-- R122, R123, R124: the reset band files, the centres in hertz, and the parametric bands' types; on the graphic kinds no
step but hardware reset, which HardwareResetRestoresEveryRegister states, can change a frequency or a Q. -/
def Obligations.ResetBandFilesHoldTheirTables : Prop :=
  (∀ n, (State.resetWith ⟨.parametric, n⟩).bands =
    [⟨0x42C80000, 0x00000000, 0x3F34FDF4⟩, ⟨0x447A0000, 0x00000000, 0x3F800000⟩,
      ⟨0x461C4000, 0x00000000, 0x3F34FDF4⟩]) ∧
  (bandType .parametric 0 = .lowShelf ∧ bandType .parametric 1 = .peaking ∧ bandType .parametric 2 = .highShelf) ∧
  (∀ n, (State.resetWith ⟨.graphic10, n⟩).bands.map (fun b => ratOf32 (ofBits32 b.freq)) =
      [63 / 2, 63, 125, 250, 500, 1000, 2000, 4000, 8000, 16000] ∧
    ∀ b ∈ (State.resetWith ⟨.graphic10, n⟩).bands, b.gain = 0x00000000 ∧ b.q = 0x3FB504F3) ∧
  (∀ n, (State.resetWith ⟨.graphic31, n⟩).bands.map (fun b => ratOf32 (ofBits32 b.freq)) =
      [20, 25, 63 / 2, 40, 50, 63, 80, 100, 125, 160, 200, 250, 315, 400, 500, 630, 800, 1000, 1250, 1600, 2000, 2500,
        3150, 4000, 5000, 6300, 8000, 10000, 12500, 16000, 20000] ∧
    ∀ b ∈ (State.resetWith ⟨.graphic31, n⟩).bands, b.gain = 0x00000000 ∧ b.q = 0x408A30EE) ∧
  (∀ s t : State, s.params.kind ≠ .parametric → step s = .next t → s.port.head? ≠ some .hardwareReset →
    t.bands.map Band.freq = s.bands.map Band.freq ∧ t.bands.map Band.q = s.bands.map Band.q)

/-- The registers after hardware reset (R130), and hardware reset as a host event (R800; that it keeps the instance's own
construction parameters and the host's later events is the model's reading, log entry 7). -/
def Obligations.HardwareResetRestoresEveryRegister : Prop :=
  (∀ (s : State) (rest : List HostEvent), step { s with port := .hardwareReset :: rest } =
    .next { State.resetWith s.params with port := rest, nanCount := s.nanCount }) ∧
  (∀ p : Params, statusWord (State.resetWith p) = 0x00000001 ∧ (State.resetWith p).result = 0x00000000 ∧
    (State.resetWith p).activeRate = 0 ∧ (State.resetWith p).arg0 = 0 ∧ (State.resetWith p).arg1 = 0 ∧
    (State.resetWith p).arg2 = 0 ∧ (∀ i : Fin 32, (State.resetWith p).payload[i] = 0) ∧
    (State.resetWith p).left = List.replicate (nbands p.kind) ⟨.posZero, .posZero, .posZero, .posZero⟩ ∧
    (State.resetWith p).right = List.replicate (nbands p.kind) ⟨.posZero, .posZero, .posZero, .posZero⟩ ∧
    ∀ a, memGet (State.resetWith p).mem a = none)

/-- R8, R800: an instance exists exactly for parameters in their range. -/
def Obligations.ConstructionRejectsBadParameters : Prop :=
  ∀ p : Params,
    ((4096 ≤ p.sampleMemWords ∧ p.sampleMemWords ≤ 2 ^ 30) → construct p = some (State.resetWith p)) ∧
    (¬ (4096 ≤ p.sampleMemWords ∧ p.sampleMemWords ≤ 2 ^ 30) → construct p = none)

/-- Reset meets the invariant, for every kind and every admitted size. -/
def Obligations.ResetMeetsTheInvariant : Prop :=
  Invariant State.reset ∧ ∀ p s, construct p = some s → Invariant s

/-- Every step from a state that meets the invariant answers one that does: band parameters in range and never NaN (R120), the
graphic kinds' frequencies and Qs fixed (R123, R124), ACTIVE_RATE in range (R114), RESULT's reserved bits 0 (R113), the files'
sizes, and sample memory canonical, inside its space and in whole words. -/
def Obligations.EveryStepKeepsTheInvariant : Prop :=
  ∀ s t : State, Invariant s → step s = .next t → Invariant t

/-- R3, R121: EQ_KIND, and with it the band count and the band types, never changes; nor does the memory size. That hardware
reset keeps them too is the model's reading (log entry 7). -/
def Obligations.ConstructionParametersNeverChange : Prop :=
  ∀ s t : State, step s = .next t → t.params = s.params

/-! ### The datapath (41_process sections 1 and 2) -/

/-- Correct rounding (R12, R526): `+ - * /` and `sqrt` of finite values answer a nearest binary64 to the exact result, the one
with the even pattern where two are nearest, while that result is below the overflow threshold `2^1024 - 2^970` in
magnitude, and the infinity of its sign from there on (log entry 13). -/
def Obligations.OperationsAreCorrectlyRounded : Prop :=
  let threshold : ℝ := 2 ^ 1024 - 2 ^ 970
  let rounded (y : B64) (x : ℝ) : Prop :=
    (|x| < threshold → isFinite64 y = true ∧ ∀ z, isFinite64 z = true →
      |((ratOf y : ℚ) : ℝ) - x| ≤ |((ratOf z : ℚ) : ℝ) - x| ∧
      (|((ratOf y : ℚ) : ℝ) - x| = |((ratOf z : ℚ) : ℝ) - x| → ratOf z ≠ ratOf y →
        ∃ neg mag, y = .fin neg mag ∧ mag.val % 2 = 0)) ∧
    (threshold ≤ x → y = .inf false) ∧ (x ≤ -threshold → y = .inf true)
  ∀ a b : B64, isFinite64 a = true → isFinite64 b = true →
    rounded (add64 a b) ((ratOf a : ℚ) + (ratOf b : ℚ)) ∧
    rounded (sub64 a b) ((ratOf a : ℚ) - (ratOf b : ℚ)) ∧
    rounded (mul64 a b) ((ratOf a : ℚ) * (ratOf b : ℚ)) ∧
    (ratOf b ≠ 0 → rounded (div64 a b) ((ratOf a : ℚ) / (ratOf b : ℚ))) ∧
    (0 < ratOf a → rounded (sqrt64 a) (Real.sqrt (ratOf a : ℚ)))

/-- R501: the effective frequency is the band's own below 0.45·fs and 0.45·fs from there on, so it lies strictly between 0 and
fs/2 for every stored frequency and rate, fs being exact; the rule's two example limits; PROCESS keeps the stored values. -/
def Obligations.EffectiveFrequencyStaysBelowNyquist : Prop :=
  (∀ (freq : Word) (rate : Nat), wordInRange fMin fMax freq = true → 1 ≤ rate → rate ≤ 1000000 →
    ratOf (ofNat64 rate) = rate ∧
    isFinite64 (effectiveFreq freq (ofNat64 rate)) = true ∧
    0 < ratOf (effectiveFreq freq (ofNat64 rate)) ∧ ratOf (effectiveFreq freq (ofNat64 rate)) < (rate : ℚ) / 2 ∧
    (ratOf32 (ofBits32 freq) < ratOf (mul64 nyqFrac (ofNat64 rate)) →
      ratOf (effectiveFreq freq (ofNat64 rate)) = ratOf32 (ofBits32 freq)) ∧
    (ratOf (mul64 nyqFrac (ofNat64 rate)) ≤ ratOf32 (ofBits32 freq) →
      effectiveFreq freq (ofNat64 rate) = mul64 nyqFrac (ofNat64 rate))) ∧
  ratOf (mul64 nyqFrac (ofNat64 48000)) = 21600 ∧ ratOf (mul64 nyqFrac (ofNat64 44100)) = 19845 ∧
  (∀ s t : State, exec .process s = .next t → t.bands = s.bands)

/-- R502: `0 < w0 < 0.9·π·(1 + 2^-50)` for every stored frequency and rate, so `Sin64` and `Cos64` are only asked inside
the domain of R503 (b). -/
def Obligations.AngleStaysInTheDesignDomain : Prop :=
  ∀ (freq : Word) (rate : Nat), wordInRange fMin fMax freq = true → 1 ≤ rate → rate ≤ 1000000 →
    let w0 := angularFreq (effectiveFreq freq (ofNat64 rate)) (ofNat64 rate)
    angleInDomain w0 = true ∧ 0 < ratOf w0 ∧ ((ratOf w0 : ℚ) : ℝ) < 0.9 * Real.pi * (1 + 2 ^ (-50 : ℤ))

/-- R503: the machine's `Sin64`, `Cos64` and `Pow10_64` have its properties (a) to (d); and whatever functions have them lie
in the ranges that follow, the sine at most `1 + 2^-52` and, on its domain, the amplitude in R504's [0.501, 1.996]. -/
def Obligations.MachineFunctionsMeetR503 : Prop :=
  MeetsR503 libm ∧ ∀ lm : Libm, MeetsR503 lm → MeetsR503abc lm

/-- R509: `a0 > 0` for every admitted parameter set, for any functions of R503 (of its properties only (a), (b), the sine's
bound `1 + 2^-52` and R504's range are used), so the division is always defined. -/
def Obligations.DesignDivisorIsPositive : Prop :=
  ∀ (lm : Libm) (ty : BandType) (band : Band) (rate : Nat), MeetsR503abc lm → bandInRange band = true → 1 ≤ rate →
    rate ≤ 1000000 →
    isFinite64 (rawDesign lm ty band rate).a0 = true ∧ 0 < ratOf (rawDesign lm ty band rate).a0

/-- R522: a band with gain ±0.0 designs to c0 = 1.0, c1 = c3 and c2 = c4, as numbers, whatever the functions of R503 are (log
entry 17: c1 and c3 could differ in the sign of a zero). -/
def Obligations.UnityBandsDesignToUnity : Prop :=
  ∀ (lm : Libm) (ty : BandType) (band : Band) (rate : Nat), MeetsR503abc lm → bandInRange band = true → 1 ≤ rate →
    rate ≤ 1000000 → (band.gain = 0x00000000 ∨ band.gain = 0x80000000) →
    (design lm ty band rate).c0 = ofBits64 0x3FF0000000000000 ∧
    eq64 (design lm ty band rate).c1 (design lm ty band rate).c3 = true ∧
    eq64 (design lm ty band rate).c2 (design lm ty band rate).c4 = true

/-- R522, the impulse: a unity stage from zero state answers a finite impulse that the flush of R512 leaves alone (a zero of
either sign, or any of magnitude at least FLUSH_T) with that number, a zero as +0.0, and every later zero input with +0.0. -/
def Obligations.UnityStagePassesAnImpulse : Prop :=
  ∀ (c : Coeffs) (x : B32), c.c0 = ofBits64 0x3FF0000000000000 → eq64 c.c1 c.c3 = true → eq64 c.c2 c.c4 = true →
    lt64 (abs64 c.c1) (ofNat64 1000) = true → lt64 (abs64 c.c2) (ofNat64 1000) = true → isFinite64 (widen x) = true →
    eq64 (flush (widen x)) (widen x) = true →
    (stage c ⟨.posZero, .posZero, .posZero, .posZero⟩ (widen x)).1 = flush (widen x) ∧
    ∀ n, (stage c ((fun st => (stage c st .posZero).2)^[n]
      (stage c ⟨.posZero, .posZero, .posZero, .posZero⟩ (widen x)).2) .posZero).1 = .posZero

/-- R506: a shelf's Q has no effect on its coefficients. -/
def Obligations.ShelvesIgnoreQ : Prop :=
  ∀ (lm : Libm) (ty : BandType) (band : Band) (q : Word) (rate : Nat), ty ≠ .peaking →
    design lm ty { band with q := q } rate = design lm ty band rate

/-- R512: the flush, by magnitude, both zeros and every small value becoming +0.0; FLUSH_T is the binary64 nearest 1.0e-15; every
stage's output is flushed and the flushed value is the one kept as `y1`. -/
def Obligations.FlushZeroesSmallOutputs : Prop :=
  (∀ y : B64, isFinite64 y = true →
    (|ratOf y| < ratOf flushT → flush y = .posZero) ∧ (ratOf flushT ≤ |ratOf y| → flush y = y)) ∧
  flush .nan = .nan ∧ (∀ neg, flush (.inf neg) = .inf neg) ∧
  (∀ z, isFinite64 z = true → |ratOf flushT - 1 / 10 ^ 15| ≤ |ratOf z - 1 / 10 ^ 15|) ∧
  (∀ neg, flush (zero64 neg) = .posZero) ∧
  (∀ c st x, (stage c st x).1 = flush (stageSum c st x) ∧ (stage c st x).2.y1 = (stage c st x).1)
end

