-- ==== Sys2Proof/Laws/Bits.lean ====
section
/-! SUPPORT. Patterns and values of binary32 (spec 00_scope R12, R15; 41_process R516; 42_parameters R601–R604): a value is
read back from its pattern, and what `clamp` can answer. -/

namespace Sys2Proof.Machine

open Sys2Proof.Safety

theorem toNat_signedBits32 {m : Nat} (h : m < 2 ^ 31) (neg : Bool) :
    (signedBits32 neg m).toNat = (if neg then 2 ^ 31 else 0) + m := by
  unfold signedBits32
  rw [BitVec.toNat_ofNat, Nat.mod_eq_of_lt]
  split <;> omega

/-- The value read from a sign and a magnitude pattern. -/
theorem ofBits32_signedBits32 {m : Nat} (h : m < 2 ^ 31) (neg : Bool) :
    ofBits32 (signedBits32 neg m) =
      if h' : m < 0x7F800000 then .fin neg ⟨m, h'⟩ else if m = 0x7F800000 then .inf neg else .nan := by
  have e : (signedBits32 neg m).toNat % 2 ^ 31 = m := by
    rw [toNat_signedBits32 h]; split <;> omega
  have e' : decide (2 ^ 31 ≤ (signedBits32 neg m).toNat) = neg := by
    rw [toNat_signedBits32 h]; cases neg <;> simp; omega
  simp only [ofBits32, e, e']

theorem nanFraction_pos (r : Word) : 0 < nanFraction r := by
  unfold nanFraction; split <;> omega

theorem nanFraction_lt (r : Word) : nanFraction r < 2 ^ 23 := by
  unfold nanFraction; split <;> omega

/-- Whatever the free word, a NaN pattern is a NaN. -/
@[simp] theorem ofBits32_nanPattern (r : Word) : ofBits32 (nanPattern r) = .nan := by
  have h1 := nanFraction_pos r
  have h2 := nanFraction_lt r
  rw [nanPattern, ofBits32_signedBits32 (by omega), dif_neg (by omega), if_neg (by omega)]

/-- Every NaN pattern is the pattern of some free word: the free value excludes none (93 U-5). -/
theorem nanPattern_of_nan {w : Word} (h : ofBits32 w = .nan) : nanPattern w = w := by
  have hw := w.isLt
  unfold ofBits32 at h
  simp only at h
  split at h
  · cases h
  · split at h
    · cases h
    · next h1 h2 =>
      have e : nanFraction w = w.toNat % 2 ^ 23 := if_neg (by omega)
      apply BitVec.eq_of_toNat_eq
      rw [nanPattern, toNat_signedBits32 (by rw [e]; omega), e]
      by_cases hs : 2 ^ 31 ≤ w.toNat
      · simp only [hs, decide_true, if_true]; omega
      · simp only [hs, decide_false, Bool.false_eq_true, if_false]; omega

/-- A value is read back from its pattern, a NaN from any NaN pattern. -/
@[simp] theorem ofBits32_toBits32 (r : Word) (v : B32) : ofBits32 (toBits32 (nanPattern r) v) = v := by
  cases v with
  | nan => simp [toBits32]
  | inf neg => simp [toBits32, ofBits32_signedBits32]
  | fin neg mag =>
    have h : mag.val < 2 ^ 31 := by have := mag.isLt; omega
    rw [toBits32, ofBits32_signedBits32 h, dif_pos mag.isLt]

/-- A pattern that is no NaN is the pattern of its value: registers keep what they were given (R601, R614). -/
theorem toBits32_ofBits32 (r w : Word) (h : ofBits32 w ≠ .nan) : toBits32 r (ofBits32 w) = w := by
  have hw := w.isLt
  revert h
  unfold ofBits32
  simp only
  have e : w.toNat = (if decide (2 ^ 31 ≤ w.toNat) then 2 ^ 31 else 0) + w.toNat % 2 ^ 31 := by
    simp only [decide_eq_true_eq]; split <;> omega
  split
  · intro _
    apply BitVec.eq_of_toNat_eq
    rw [toBits32, toNat_signedBits32 (by simp only; omega)]
    exact e.symm
  · split
    · next h1 h2 =>
      intro _
      apply BitVec.eq_of_toNat_eq
      rw [toBits32, toNat_signedBits32 (by omega), ← h2]
      exact e.symm
    · exact fun h => absurd rfl h

theorem isNan32_iff (w : Word) : isNan32 w = true ↔ ofBits32 w = .nan := by simp [isNan32]

/-! ### clamp -/

/-- What `clamp` answers (R15): one of the bounds, or the value itself when it lies between them. -/
theorem clamp32_cases (v lo hi : Word) :
    (lt32 (ofBits32 v) (ofBits32 lo) = true ∧ clamp32 v lo hi = lo) ∨
    (lt32 (ofBits32 v) (ofBits32 lo) = false ∧ lt32 (ofBits32 hi) (ofBits32 v) = true ∧ clamp32 v lo hi = hi) ∨
    (lt32 (ofBits32 v) (ofBits32 lo) = false ∧ lt32 (ofBits32 hi) (ofBits32 v) = false ∧ clamp32 v lo hi = v) := by
  unfold clamp32
  cases h : lt32 (ofBits32 v) (ofBits32 lo)
  · cases h' : lt32 (ofBits32 hi) (ofBits32 v)
    · exact .inr (.inr ⟨rfl, rfl, rfl⟩)
    · exact .inr (.inl ⟨rfl, rfl, rfl⟩)
  · exact .inl ⟨rfl, rfl⟩

/-- Clamping a value that is no NaN lands in the range, when the bounds do. -/
theorem wordInRange_clamp32 {v lo hi : Word} (hv : isNan32 v = false) (hlo : wordInRange lo hi lo = true)
    (hhi : wordInRange lo hi hi = true) : wordInRange lo hi (clamp32 v lo hi) = true := by
  rcases clamp32_cases v lo hi with ⟨-, h⟩ | ⟨-, -, h⟩ | ⟨h1, h2, h⟩
  · rw [h, hlo]
  · rw [h, hhi]
  · rw [h]; simp [wordInRange, hv, h1, h2]

theorem clampGain_inRange {v : Word} (h : isNan32 v = false) : wordInRange gainMin gainMax (clampGain v) = true :=
  wordInRange_clamp32 h (by decide) (by decide)

theorem clampQ_inRange {v : Word} (h : isNan32 v = false) : wordInRange qMin qMax (clampQ v) = true :=
  wordInRange_clamp32 h (by decide) (by decide)

theorem clampFreq_inRange {v : Word} (h : isNan32 v = false) : wordInRange fMin fMax (clampFreq v) = true :=
  wordInRange_clamp32 h (by decide) (by decide)

/-! ### Ranges -/

/-- A word in a range between finite bounds is finite and its value is between theirs (R120). -/
theorem wordInRange_finite {lo hi v : Word} (h : wordInRange lo hi v = true) {nl nh : Bool} {ml mh : Fin 0x7F800000}
    (hl : ofBits32 lo = .fin nl ml) (hh : ofBits32 hi = .fin nh mh) :
    ∃ n m, ofBits32 v = .fin n m ∧ ratOf32 (.fin nl ml) ≤ ratOf32 (.fin n m) ∧
      ratOf32 (.fin n m) ≤ ratOf32 (.fin nh mh) := by
  simp only [wordInRange, Bool.and_eq_true, Bool.not_eq_true', hl, hh] at h
  obtain ⟨⟨h1, h2⟩, h3⟩ := h
  have hb := ml.isLt
  have hb' := mh.isLt
  cases hv : ofBits32 v with
  | nan => simp [isNan32, hv] at h1
  | inf neg =>
    exfalso
    simp only [hv, lt32, decide_eq_false_iff_not, ne_eq, not_and, not_lt, reduceCtorEq, not_false_eq_true, true_implies,
      key32] at h2 h3
    cases neg <;> cases nl <;> cases nh <;> simp [signed] at h2 h3 <;> omega
  | fin n m =>
    refine ⟨n, m, rfl, ?_, ?_⟩
    · rw [← key32_le_iff]
      simpa [lt32, hv] using h2
    · rw [← key32_le_iff]
      simpa [lt32, hv] using h3

end Sys2Proof.Machine
end

