-- ==== Sys2Proof/Laws/Memory.lean ====
section
/-! SUPPORT. The laws of sample memory (spec 20_memory R203, R206, R207): read after write, writes elsewhere, the
canonical form, and words written whole. -/

namespace Sys2Proof.Machine

open Sys2Proof.Safety

/-! ### Bytes -/

theorem memGet_memPut (m : Memory) (a c : Nat) (v : Byte) :
    memGet (memPut m a v) c = if c = a then some v else memGet m c := by
  induction m with
  | nil => simp [memPut, memGet]
  | cons h m ih =>
    obtain ⟨b, x⟩ := h
    simp only [memPut]
    split
    · simp only [memGet]
    · split
      · next hab => subst hab; simp only [memGet]; split <;> rfl
      · next hab =>
        simp only [memGet, ih]
        by_cases hc : c = b
        · subst hc; simp [Ne.symm hab]
        · simp [hc]

/-- Reading back the byte written. -/
@[simp] theorem memGet_memPut_same (m : Memory) (a : Nat) (v : Byte) : memGet (memPut m a v) a = some v := by
  simp [memGet_memPut]

/-- Every other byte is left alone. -/
theorem memGet_memPut_other {a c : Nat} (h : c ≠ a) (m : Memory) (v : Byte) :
    memGet (memPut m a v) c = memGet m c := by
  simp [memGet_memPut, h]

/-! ### The canonical form -/

/-- The head's offset is below those of a canonical tail. -/
theorem wf_cons {a : Nat} {x : Byte} {m : Memory} :
    Memory.wf ((a, x) :: m) = true ↔ (∀ c ∈ m.head?, a < c.1) ∧ Memory.wf m = true := by
  cases m with
  | nil => simp [Memory.wf]
  | cons h m => obtain ⟨b, y⟩ := h; simp [Memory.wf]

theorem head_memPut (m : Memory) (a : Nat) (v : Byte) :
    ∀ c ∈ (memPut m a v).head?, c.1 = a ∨ c ∈ m.head? := by
  cases m with
  | nil => simp [memPut]
  | cons h m =>
    obtain ⟨b, x⟩ := h
    simp only [memPut]
    split
    · simp
    · split <;> simp

/-- Writing a byte keeps the canonical form. -/
theorem wf_memPut {m : Memory} (h : Memory.wf m = true) (a : Nat) (v : Byte) : Memory.wf (memPut m a v) = true := by
  induction m with
  | nil => rfl
  | cons c m ih =>
    obtain ⟨b, x⟩ := c
    simp only [memPut]
    split
    · next hab => exact wf_cons.mpr ⟨by simpa using hab, h⟩
    · split
      · next hab => subst hab; exact wf_cons.mpr (wf_cons.mp h)
      · next h1 h2 =>
        refine wf_cons.mpr ⟨fun c hc => ?_, ih (wf_cons.mp h).2⟩
        rcases head_memPut m a v c hc with hc | hc
        · omega
        · exact (wf_cons.mp h).1 c hc

/-- Writing a word keeps the canonical form. -/
theorem wf_memWriteWord {m : Memory} (h : Memory.wf m = true) (i : Nat) (w : Word) :
    Memory.wf (memWriteWord m i w) = true :=
  wf_memPut (wf_memPut (wf_memPut (wf_memPut h _ _) _ _) _ _) _ _

/-! ### Words -/

/-- Every byte outside the word written is left alone. -/
theorem memGet_memWriteWord_other {m : Memory} {i : Nat} {w : Word} {a : Nat} (h : a < 4 * i ∨ 4 * i + 4 ≤ a) :
    memGet (memWriteWord m i w) a = memGet m a := by
  unfold memWriteWord
  rw [memGet_memPut_other (by omega), memGet_memPut_other (by omega), memGet_memPut_other (by omega),
    memGet_memPut_other (by omega)]

/-- The four bytes of the word written. -/
theorem memGet_memWriteWord_same (m : Memory) (i : Nat) (w : Word) :
    memGet (memWriteWord m i w) (4 * i) = some (byteOf w 0) ∧
    memGet (memWriteWord m i w) (4 * i + 1) = some (byteOf w 1) ∧
    memGet (memWriteWord m i w) (4 * i + 2) = some (byteOf w 2) ∧
    memGet (memWriteWord m i w) (4 * i + 3) = some (byteOf w 3) := by
  simp [memWriteWord, memGet_memPut]

/-- A word is its four bytes, the least significant first (R203). -/
theorem bytes_append (w : Word) : byteOf w 3 ++ byteOf w 2 ++ byteOf w 1 ++ byteOf w 0 = w := by
  apply BitVec.eq_of_getLsbD_eq
  intro k hk
  simp only [byteOf, BitVec.getLsbD_append, BitVec.getLsbD_extractLsb']
  rcases Nat.lt_or_ge k 8 with h | h
  · simp [h]
  · rcases Nat.lt_or_ge k 16 with h' | h'
    · have e : 8 * 1 + (k - 8) = k := by omega
      simp [Nat.not_lt.mpr h, show k - 8 < 8 by omega, e]
    · rcases Nat.lt_or_ge k 24 with h'' | h''
      · have e : 8 * 2 + (k - 8 - 8) = k := by omega
        simp [Nat.not_lt.mpr h, show ¬ k - 8 < 8 by omega, show k - 8 - 8 < 8 by omega, e]
      · have e : 8 * 3 + (k - 8 - 8 - 8) = k := by omega
        simp [Nat.not_lt.mpr h, show ¬ k - 8 < 8 by omega, show ¬ k - 8 - 8 < 8 by omega,
          show k - 8 - 8 - 8 < 8 by omega, e]

/-- Reading back the word written (R206). -/
@[simp] theorem memReadWord_memWriteWord_same (m : Memory) (i : Nat) (w : Word) :
    memReadWord (memWriteWord m i w) i = some w := by
  obtain ⟨h0, h1, h2, h3⟩ := memGet_memWriteWord_same m i w
  simp [memReadWord, h0, h1, h2, h3, bytes_append]

/-- Every other word is left alone (R206). -/
theorem memReadWord_memWriteWord_other {i j : Nat} (h : j ≠ i) (m : Memory) (w : Word) :
    memReadWord (memWriteWord m i w) j = memReadWord m j := by
  unfold memReadWord
  rw [memGet_memWriteWord_other (by omega), memGet_memWriteWord_other (by omega),
    memGet_memWriteWord_other (by omega), memGet_memWriteWord_other (by omega)]

/-! ### Words written whole -/

/-- A listed offset reads as some byte. -/
theorem memGet_isSome_iff (m : Memory) (a : Nat) : (memGet m a).isSome = true ↔ ∃ v, (a, v) ∈ m := by
  induction m with
  | nil => simp [memGet]
  | cons c m ih =>
    obtain ⟨b, x⟩ := c
    simp only [memGet]
    split
    · next h => subst h; simp
    · next h => simp [ih, h]

/-- `wholeWords` through the reads: a written byte lies in the sample space and so do its word's other bytes. -/
theorem wholeWords_iff (n : Nat) (m : Memory) :
    wholeWords n m = true ↔
      ∀ a, (memGet m a).isSome = true → a < 4 * n ∧ ∀ j < 4, (memGet m (a / 4 * 4 + j)).isSome = true := by
  simp only [wholeWords, List.all_eq_true, Bool.and_eq_true, decide_eq_true_eq, List.mem_range, memGet_isSome_iff]
  constructor
  · rintro h a ⟨v, hv⟩
    exact ⟨(h _ hv).1, fun j hj => (h _ hv).2 j hj⟩
  · rintro h ⟨a, v⟩ hc
    exact ⟨(h a ⟨v, hc⟩).1, fun j hj => (h a ⟨v, hc⟩).2 j hj⟩

/-- Writing a word inside the space keeps words whole. -/
theorem wholeWords_memWriteWord {n : Nat} {m : Memory} (h : wholeWords n m = true) {i : Nat} (hi : i < n) (w : Word) :
    wholeWords n (memWriteWord m i w) = true := by
  rw [wholeWords_iff] at h ⊢
  intro a ha
  have new : ∀ j < 4, (memGet (memWriteWord m i w) (4 * i + j)).isSome = true := by
    obtain ⟨h0, h1, h2, h3⟩ := memGet_memWriteWord_same m i w
    intro j hj
    have : j = 0 ∨ j = 1 ∨ j = 2 ∨ j = 3 := by omega
    rcases this with rfl | rfl | rfl | rfl <;> simp_all
  by_cases hin : 4 * i ≤ a ∧ a < 4 * i + 4
  · refine ⟨by omega, fun j hj => ?_⟩
    have e : a / 4 * 4 + j = 4 * i + j := by omega
    rw [e]; exact new j hj
  · rw [memGet_memWriteWord_other (by omega)] at ha
    refine ⟨(h a ha).1, fun j hj => ?_⟩
    rw [memGet_memWriteWord_other (by omega)]
    exact (h a ha).2 j hj

end Sys2Proof.Machine
end

