-- ==== Sys2Proof/Laws/State.lean ====
section
/-! SUPPORT. The small lemmas of the state: each field after each shared update (spec 60_exceptions R701, R702;
40_control R405; 41_process R517, R518), so that no later proof unfolds a record update. -/

namespace Sys2Proof.Machine

/-! ### finish -/

@[simp] theorem finish_params (opc : Byte) (code : ResultCode) (s : State) :
    (finish opc code s).params = s.params := rfl
@[simp] theorem finish_arg0 (opc : Byte) (code : ResultCode) (s : State) :
    (finish opc code s).arg0 = s.arg0 := rfl
@[simp] theorem finish_arg1 (opc : Byte) (code : ResultCode) (s : State) :
    (finish opc code s).arg1 = s.arg1 := rfl
@[simp] theorem finish_arg2 (opc : Byte) (code : ResultCode) (s : State) :
    (finish opc code s).arg2 = s.arg2 := rfl
@[simp] theorem finish_payload (opc : Byte) (code : ResultCode) (s : State) :
    (finish opc code s).payload = s.payload := rfl
@[simp] theorem finish_result (opc : Byte) (code : ResultCode) (s : State) :
    (finish opc code s).result = resultWord opc code := rfl
@[simp] theorem finish_activeRate (opc : Byte) (code : ResultCode) (s : State) :
    (finish opc code s).activeRate = s.activeRate := rfl
@[simp] theorem finish_enabled (opc : Byte) (code : ResultCode) (s : State) :
    (finish opc code s).enabled = s.enabled := rfl
@[simp] theorem finish_err (opc : Byte) (code : ResultCode) (s : State) :
    (finish opc code s).err = errAfter code s.err := rfl
@[simp] theorem finish_bands (opc : Byte) (code : ResultCode) (s : State) :
    (finish opc code s).bands = s.bands := rfl
@[simp] theorem finish_left (opc : Byte) (code : ResultCode) (s : State) :
    (finish opc code s).left = s.left := rfl
@[simp] theorem finish_right (opc : Byte) (code : ResultCode) (s : State) :
    (finish opc code s).right = s.right := rfl
@[simp] theorem finish_mem (opc : Byte) (code : ResultCode) (s : State) :
    (finish opc code s).mem = s.mem := rfl
@[simp] theorem finish_argOwner (opc : Byte) (code : ResultCode) (s : State) :
    (finish opc code s).argOwner = s.argOwner := rfl
@[simp] theorem finish_port (opc : Byte) (code : ResultCode) (s : State) :
    (finish opc code s).port = s.port := rfl
@[simp] theorem finish_readData (opc : Byte) (code : ResultCode) (s : State) :
    (finish opc code s).readData = s.readData := rfl
@[simp] theorem finish_nanCount (opc : Byte) (code : ResultCode) (s : State) :
    (finish opc code s).nanCount = s.nanCount := rfl

/-! ### clearFilter -/

@[simp] theorem clearFilter_params (s : State) : (clearFilter s).params = s.params := rfl
@[simp] theorem clearFilter_arg0 (s : State) : (clearFilter s).arg0 = s.arg0 := rfl
@[simp] theorem clearFilter_arg1 (s : State) : (clearFilter s).arg1 = s.arg1 := rfl
@[simp] theorem clearFilter_arg2 (s : State) : (clearFilter s).arg2 = s.arg2 := rfl
@[simp] theorem clearFilter_payload (s : State) : (clearFilter s).payload = s.payload := rfl
@[simp] theorem clearFilter_result (s : State) : (clearFilter s).result = s.result := rfl
@[simp] theorem clearFilter_activeRate (s : State) : (clearFilter s).activeRate = s.activeRate := rfl
@[simp] theorem clearFilter_enabled (s : State) : (clearFilter s).enabled = s.enabled := rfl
@[simp] theorem clearFilter_err (s : State) : (clearFilter s).err = s.err := rfl
@[simp] theorem clearFilter_bands (s : State) : (clearFilter s).bands = s.bands := rfl
@[simp] theorem clearFilter_left (s : State) :
    (clearFilter s).left = zeroLane s.params.kind := rfl
@[simp] theorem clearFilter_right (s : State) :
    (clearFilter s).right = zeroLane s.params.kind := rfl
@[simp] theorem clearFilter_mem (s : State) : (clearFilter s).mem = s.mem := rfl
@[simp] theorem clearFilter_argOwner (s : State) : (clearFilter s).argOwner = s.argOwner := rfl
@[simp] theorem clearFilter_port (s : State) : (clearFilter s).port = s.port := rfl
@[simp] theorem clearFilter_readData (s : State) : (clearFilter s).readData = s.readData := rfl
@[simp] theorem clearFilter_nanCount (s : State) : (clearFilter s).nanCount = s.nanCount := rfl

/-! ### updateBand -/

@[simp] theorem updateBand_params (s : State) (b : Nat) (f : Band → Band) : (updateBand s b f).params = s.params := rfl
@[simp] theorem updateBand_arg0 (s : State) (b : Nat) (f : Band → Band) : (updateBand s b f).arg0 = s.arg0 := rfl
@[simp] theorem updateBand_arg1 (s : State) (b : Nat) (f : Band → Band) : (updateBand s b f).arg1 = s.arg1 := rfl
@[simp] theorem updateBand_arg2 (s : State) (b : Nat) (f : Band → Band) : (updateBand s b f).arg2 = s.arg2 := rfl
@[simp] theorem updateBand_payload (s : State) (b : Nat) (f : Band → Band) : (updateBand s b f).payload = s.payload := rfl
@[simp] theorem updateBand_result (s : State) (b : Nat) (f : Band → Band) : (updateBand s b f).result = s.result := rfl
@[simp] theorem updateBand_activeRate (s : State) (b : Nat) (f : Band → Band) : (updateBand s b f).activeRate = s.activeRate := rfl
@[simp] theorem updateBand_enabled (s : State) (b : Nat) (f : Band → Band) : (updateBand s b f).enabled = s.enabled := rfl
@[simp] theorem updateBand_err (s : State) (b : Nat) (f : Band → Band) : (updateBand s b f).err = s.err := rfl
@[simp] theorem updateBand_bands (s : State) (b : Nat) (f : Band → Band) :
    (updateBand s b f).bands = s.bands.modify b f := rfl
@[simp] theorem updateBand_left (s : State) (b : Nat) (f : Band → Band) : (updateBand s b f).left = s.left := rfl
@[simp] theorem updateBand_right (s : State) (b : Nat) (f : Band → Band) : (updateBand s b f).right = s.right := rfl
@[simp] theorem updateBand_mem (s : State) (b : Nat) (f : Band → Band) : (updateBand s b f).mem = s.mem := rfl
@[simp] theorem updateBand_argOwner (s : State) (b : Nat) (f : Band → Band) : (updateBand s b f).argOwner = s.argOwner := rfl
@[simp] theorem updateBand_port (s : State) (b : Nat) (f : Band → Band) : (updateBand s b f).port = s.port := rfl
@[simp] theorem updateBand_readData (s : State) (b : Nat) (f : Band → Band) : (updateBand s b f).readData = s.readData := rfl
@[simp] theorem updateBand_nanCount (s : State) (b : Nat) (f : Band → Band) : (updateBand s b f).nanCount = s.nanCount := rfl

/-! ### writeSample -/

@[simp] theorem writeSample_params (i : Nat) (v : B32) (s : State) : (writeSample i v s).params = s.params := rfl
@[simp] theorem writeSample_arg0 (i : Nat) (v : B32) (s : State) : (writeSample i v s).arg0 = s.arg0 := rfl
@[simp] theorem writeSample_arg1 (i : Nat) (v : B32) (s : State) : (writeSample i v s).arg1 = s.arg1 := rfl
@[simp] theorem writeSample_arg2 (i : Nat) (v : B32) (s : State) : (writeSample i v s).arg2 = s.arg2 := rfl
@[simp] theorem writeSample_payload (i : Nat) (v : B32) (s : State) : (writeSample i v s).payload = s.payload := rfl
@[simp] theorem writeSample_result (i : Nat) (v : B32) (s : State) : (writeSample i v s).result = s.result := rfl
@[simp] theorem writeSample_activeRate (i : Nat) (v : B32) (s : State) : (writeSample i v s).activeRate = s.activeRate := rfl
@[simp] theorem writeSample_enabled (i : Nat) (v : B32) (s : State) : (writeSample i v s).enabled = s.enabled := rfl
@[simp] theorem writeSample_err (i : Nat) (v : B32) (s : State) : (writeSample i v s).err = s.err := rfl
@[simp] theorem writeSample_bands (i : Nat) (v : B32) (s : State) : (writeSample i v s).bands = s.bands := rfl
@[simp] theorem writeSample_left (i : Nat) (v : B32) (s : State) : (writeSample i v s).left = s.left := rfl
@[simp] theorem writeSample_right (i : Nat) (v : B32) (s : State) : (writeSample i v s).right = s.right := rfl
@[simp] theorem writeSample_mem (i : Nat) (v : B32) (s : State) :
    (writeSample i v s).mem = memWriteWord s.mem i (toBits32 (nanPattern (Config.freeNan s.nanCount)) v) := rfl
@[simp] theorem writeSample_argOwner (i : Nat) (v : B32) (s : State) : (writeSample i v s).argOwner = s.argOwner := rfl
@[simp] theorem writeSample_port (i : Nat) (v : B32) (s : State) : (writeSample i v s).port = s.port := rfl
@[simp] theorem writeSample_readData (i : Nat) (v : B32) (s : State) : (writeSample i v s).readData = s.readData := rfl
@[simp] theorem writeSample_nanCount (i : Nat) (v : B32) (s : State) :
    (writeSample i v s).nanCount = if v = .nan then s.nanCount + 1 else s.nanCount := rfl

/-! ### setLane -/

@[simp] theorem setLane_params (s : State) (c : Channel) (l : List StageState) : (setLane s c l).params = s.params := by
  cases c <;> rfl
@[simp] theorem setLane_arg0 (s : State) (c : Channel) (l : List StageState) : (setLane s c l).arg0 = s.arg0 := by
  cases c <;> rfl
@[simp] theorem setLane_arg1 (s : State) (c : Channel) (l : List StageState) : (setLane s c l).arg1 = s.arg1 := by
  cases c <;> rfl
@[simp] theorem setLane_arg2 (s : State) (c : Channel) (l : List StageState) : (setLane s c l).arg2 = s.arg2 := by
  cases c <;> rfl
@[simp] theorem setLane_payload (s : State) (c : Channel) (l : List StageState) : (setLane s c l).payload = s.payload := by
  cases c <;> rfl
@[simp] theorem setLane_result (s : State) (c : Channel) (l : List StageState) : (setLane s c l).result = s.result := by
  cases c <;> rfl
@[simp] theorem setLane_activeRate (s : State) (c : Channel) (l : List StageState) : (setLane s c l).activeRate = s.activeRate := by
  cases c <;> rfl
@[simp] theorem setLane_enabled (s : State) (c : Channel) (l : List StageState) : (setLane s c l).enabled = s.enabled := by
  cases c <;> rfl
@[simp] theorem setLane_err (s : State) (c : Channel) (l : List StageState) : (setLane s c l).err = s.err := by
  cases c <;> rfl
@[simp] theorem setLane_bands (s : State) (c : Channel) (l : List StageState) : (setLane s c l).bands = s.bands := by
  cases c <;> rfl
@[simp] theorem setLane_mem (s : State) (c : Channel) (l : List StageState) : (setLane s c l).mem = s.mem := by
  cases c <;> rfl
@[simp] theorem setLane_argOwner (s : State) (c : Channel) (l : List StageState) : (setLane s c l).argOwner = s.argOwner := by
  cases c <;> rfl
@[simp] theorem setLane_port (s : State) (c : Channel) (l : List StageState) : (setLane s c l).port = s.port := by
  cases c <;> rfl
@[simp] theorem setLane_readData (s : State) (c : Channel) (l : List StageState) : (setLane s c l).readData = s.readData := by
  cases c <;> rfl
@[simp] theorem setLane_nanCount (s : State) (c : Channel) (l : List StageState) : (setLane s c l).nanCount = s.nanCount := by
  cases c <;> rfl

@[simp] theorem lane_setLane_same (s : State) (c : Channel) (l : List StageState) : lane (setLane s c l) c = l := by
  cases c <;> rfl

theorem lane_setLane_other {c d : Channel} (h : c ≠ d) (s : State) (l : List StageState) :
    lane (setLane s c l) d = lane s d := by
  cases c <;> cases d <;> first | rfl | exact absurd rfl h

@[simp] theorem lane_writeSample (i : Nat) (v : B32) (s : State) (c : Channel) :
    lane (writeSample i v s) c = lane s c := by
  cases c <;> rfl

@[simp] theorem lane_clearFilter (s : State) (c : Channel) : lane (clearFilter s) c = zeroLane s.params.kind := by
  cases c <;> rfl

/-! ### applyRate -/

@[simp] theorem applyRate_params (s : State) : (applyRate s).params = s.params := by
  unfold applyRate; split <;> rfl
@[simp] theorem applyRate_arg0 (s : State) : (applyRate s).arg0 = s.arg0 := by
  unfold applyRate; split <;> rfl
@[simp] theorem applyRate_arg1 (s : State) : (applyRate s).arg1 = s.arg1 := by
  unfold applyRate; split <;> rfl
@[simp] theorem applyRate_arg2 (s : State) : (applyRate s).arg2 = s.arg2 := by
  unfold applyRate; split <;> rfl
@[simp] theorem applyRate_payload (s : State) : (applyRate s).payload = s.payload := by
  unfold applyRate; split <;> rfl
@[simp] theorem applyRate_result (s : State) : (applyRate s).result = s.result := by
  unfold applyRate; split <;> rfl
@[simp] theorem applyRate_enabled (s : State) : (applyRate s).enabled = s.enabled := by
  unfold applyRate; split <;> rfl
@[simp] theorem applyRate_err (s : State) : (applyRate s).err = s.err := by
  unfold applyRate; split <;> rfl
@[simp] theorem applyRate_bands (s : State) : (applyRate s).bands = s.bands := by
  unfold applyRate; split <;> rfl
@[simp] theorem applyRate_mem (s : State) : (applyRate s).mem = s.mem := by
  unfold applyRate; split <;> rfl
@[simp] theorem applyRate_argOwner (s : State) : (applyRate s).argOwner = s.argOwner := by
  unfold applyRate; split <;> rfl
@[simp] theorem applyRate_port (s : State) : (applyRate s).port = s.port := by
  unfold applyRate; split <;> rfl
@[simp] theorem applyRate_readData (s : State) : (applyRate s).readData = s.readData := by
  unfold applyRate; split <;> rfl
@[simp] theorem applyRate_nanCount (s : State) : (applyRate s).nanCount = s.nanCount := by
  unfold applyRate; split <;> rfl

@[simp] theorem applyRate_activeRate (s : State) : (applyRate s).activeRate = s.arg2 := by
  unfold applyRate
  split
  · rfl
  · next h => exact (not_not.mp h).symm

theorem applyRate_of_same {s : State} (h : s.arg2 = s.activeRate) : applyRate s = s := if_neg (not_not.mpr h)

theorem applyRate_of_new {s : State} (h : s.arg2 ≠ s.activeRate) :
    applyRate s = clearFilter { s with activeRate := s.arg2 } := if_pos h

theorem lane_applyRate (s : State) (c : Channel) :
    lane (applyRate s) c = if s.arg2 ≠ s.activeRate then zeroLane s.params.kind else lane s c := by
  unfold applyRate
  split <;> cases c <;> rfl

/-! ### andThen -/

@[simp] theorem andThen_next (s : State) (f : State → Out) : andThen (.next s) f = f s := rfl

@[simp] theorem andThen_fault (r : Fault) (f : State → Out) : andThen (.fault r) f = .fault r := rfl

@[simp] theorem andThen_refused (r : Refusal) (f : State → Out) : andThen (.refused r) f = .refused r := rfl

/-- A composed run that answers a next state ran both parts. -/
theorem andThen_eq_next {o : Out} {f : State → Out} {t : State} (h : andThen o f = .next t) :
    ∃ u, o = .next u ∧ f u = .next t := by
  cases o with
  | next u => exact ⟨u, rfl, h⟩
  | fault r => cases h
  | refused r => cases h

end Sys2Proof.Machine
end

