-- ==== Sys2Proof/Laws/Process.lean ====
section
/-! SUPPORT. What the walk of PROCESS over a buffer can do (spec 41_process R514–R520): its frame, when it completes, when
it faults, and what each lane computes. -/

namespace Sys2Proof.Machine

open Sys2Proof.Safety

/-! ### sameButAudio -/

theorem sameButAudio_refl (s : State) : sameButAudio s s := rfl

theorem sameButAudio_trans {s t u : State} (h : sameButAudio s t) (h' : sameButAudio t u) : sameButAudio s u := by
  unfold sameButAudio at *
  rw [h', h]

theorem sameButAudio_writeSample (i : Nat) (v : B32) (s : State) (c : Channel) (l : List StageState) :
    sameButAudio s (writeSample i v (setLane s c l)) := by
  cases c <;> rfl

/-! ### The cascade -/

/-- The cascade keeps the number of stages. -/
@[simp] theorem length_cascade (cs : List Coeffs) (l : List StageState) (v : B64) :
    (cascade cs l v).2.length = l.length := by
  induction cs generalizing l v with
  | nil => rfl
  | cons c cs ih => cases l with
    | nil => rfl
    | cons st l => simp [cascade, ih]

@[simp] theorem length_filterSample (cs : List Coeffs) (l : List StageState) (w : Word) :
    (filterSample cs l w).2.length = l.length := length_cascade _ _ _

/-! ### One sample -/

/-- A sample step that answers a next state read a written word, and is this next state. -/
theorem sampleStep_eq_next {cs : List Coeffs} {c : Channel} {i : Nat} {s t : State}
    (h : sampleStep cs c i s = .next t) :
    ∃ w, memReadWord s.mem i = some w ∧
      t = writeSample i (filterSample cs (lane s c) w).1 (setLane s c (filterSample cs (lane s c) w).2) := by
  unfold sampleStep at h
  split at h
  · cases h
  · next w hw => exact ⟨w, hw, by injection h with h; exact h.symm⟩

/-- A sample step over a written word completes. -/
theorem sampleStep_of_written {cs : List Coeffs} {c : Channel} {i : Nat} {s : State} {w : Word}
    (h : memReadWord s.mem i = some w) :
    sampleStep cs c i s =
      .next (writeSample i (filterSample cs (lane s c) w).1 (setLane s c (filterSample cs (lane s c) w).2)) := by
  simp [sampleStep, h]

theorem sampleStep_of_unwritten {cs : List Coeffs} {c : Channel} {i : Nat} {s : State}
    (h : memReadWord s.mem i = none) : sampleStep cs c i s = .fault .unwrittenRead := by
  simp [sampleStep, h]

/-! ### A property of every sample step is one of the walk -/

/-- A property that every sample step within the walk keeps is kept by the walk. -/
theorem processFrames_induction {cs : List Coeffs} {P : State → Prop} {lo hi : Nat}
    (hstep : ∀ c i s t, lo ≤ i → i < hi → P s → sampleStep cs c i s = .next t → P t) :
    ∀ k i s t, lo ≤ i → i + 2 * k ≤ hi → P s → processFrames cs k i s = .next t → P t := by
  intro k
  induction k with
  | zero =>
    intro i s t _ _ hs h
    injection h with h
    exact h ▸ hs
  | succ k ih =>
    intro i s t h1 h2 hs h
    obtain ⟨u, hu, h⟩ := andThen_eq_next h
    obtain ⟨v, hv, h⟩ := andThen_eq_next h
    exact ih (i + 2) v t (by omega) (by omega)
      (hstep .right (i + 1) u v (by omega) (by omega) (hstep .left i s u h1 (by omega) hs hu) hv) h

/-- The frame of the walk: nothing but audio changes, no byte outside the buffer, and no lane's length. -/
theorem processFrames_frame {cs : List Coeffs} {k i : Nat} {s t : State} (h : processFrames cs k i s = .next t) :
    sameButAudio s t ∧ (∀ a, a < 4 * i ∨ 4 * (i + 2 * k) ≤ a → memGet t.mem a = memGet s.mem a) ∧
      t.left.length = s.left.length ∧ t.right.length = s.right.length := by
  refine processFrames_induction (cs := cs) (lo := i) (hi := i + 2 * k)
    (P := fun u => sameButAudio s u ∧ (∀ a, a < 4 * i ∨ 4 * (i + 2 * k) ≤ a → memGet u.mem a = memGet s.mem a) ∧
      u.left.length = s.left.length ∧ u.right.length = s.right.length) ?_ k i s t (Nat.le_refl _) (Nat.le_refl _)
    ⟨sameButAudio_refl s, fun _ _ => rfl, rfl, rfl⟩ h
  rintro c j u v hj1 hj2 ⟨hs, hm, hl, hr⟩ hv
  obtain ⟨w, -, rfl⟩ := sampleStep_eq_next hv
  refine ⟨sameButAudio_trans hs (sameButAudio_writeSample _ _ _ _ _), fun a ha => ?_, ?_, ?_⟩
  · rw [writeSample_mem, memGet_memWriteWord_other (by omega), setLane_mem, hm a ha]
  · cases c <;> simpa [setLane, lane] using hl
  · cases c <;> simpa [setLane, lane] using hr

/-- The walk keeps memory canonical and its words whole. -/
theorem processFrames_mem {cs : List Coeffs} {n k i : Nat} {s t : State} (h : processFrames cs k i s = .next t)
    (hn : i + 2 * k ≤ n) (hw : Memory.wf s.mem = true) (hm : wholeWords n s.mem = true) :
    Memory.wf t.mem = true ∧ wholeWords n t.mem = true := by
  refine processFrames_induction (cs := cs) (lo := i) (hi := i + 2 * k)
    (P := fun u => Memory.wf u.mem = true ∧ wholeWords n u.mem = true) ?_ k i s t (Nat.le_refl _) (Nat.le_refl _)
    ⟨hw, hm⟩ h
  rintro c j u v hj1 hj2 ⟨h1, h2⟩ hv
  obtain ⟨w, -, rfl⟩ := sampleStep_eq_next hv
  simp only [writeSample_mem, setLane_mem]
  exact ⟨wf_memWriteWord h1 _ _, wholeWords_memWriteWord h2 (by omega) _⟩

/-! ### When the walk completes and when it faults -/

/-- A sample step unwrites nothing. -/
theorem sampleStep_written {cs : List Coeffs} {c : Channel} {i j : Nat} {s t : State}
    (h : sampleStep cs c i s = .next t) : (memReadWord t.mem j).isSome = (memReadWord s.mem j).isSome := by
  obtain ⟨w, hw, rfl⟩ := sampleStep_eq_next h
  simp only [writeSample_mem, setLane_mem]
  by_cases hj : j = i
  · subst hj; simp [hw]
  · rw [memReadWord_memWriteWord_other hj]

/-- Over a written buffer the walk completes. -/
theorem processFrames_completes (cs : List Coeffs) :
    ∀ k i s, (∀ j, i ≤ j → j < i + 2 * k → written s j) → ∃ t, processFrames cs k i s = .next t := by
  intro k
  induction k with
  | zero => exact fun i s _ => ⟨s, rfl⟩
  | succ k ih =>
    intro i s hw
    obtain ⟨w, h1⟩ := Option.isSome_iff_exists.mp (hw i (by omega) (by omega))
    have e1 := sampleStep_of_written (cs := cs) (c := .left) h1
    have h2 := hw (i + 1) (by omega) (by omega)
    rw [written, ← sampleStep_written e1] at h2
    obtain ⟨w', h2⟩ := Option.isSome_iff_exists.mp h2
    have e2 := sampleStep_of_written (cs := cs) (c := .right) h2
    obtain ⟨t, ht⟩ := ih (i + 2) _ fun j hj1 hj2 => by
      rw [written, sampleStep_written e2, sampleStep_written e1]
      exact hw j (by omega) (by omega)
    exact ⟨t, by rw [processFrames, e1, andThen_next, e2, andThen_next, ht]⟩

/-- Over a buffer with an unwritten word the walk faults UNWRITTEN_READ (R207). -/
theorem processFrames_faults (cs : List Coeffs) :
    ∀ k i s, (∃ j, i ≤ j ∧ j < i + 2 * k ∧ ¬ written s j) → processFrames cs k i s = .fault .unwrittenRead := by
  intro k
  induction k with
  | zero => rintro i s ⟨j, h1, h2, -⟩; omega
  | succ k ih =>
    rintro i s ⟨j, h1, h2, h3⟩
    rw [processFrames]
    cases e1 : memReadWord s.mem i with
    | none => rw [sampleStep_of_unwritten e1]; rfl
    | some w =>
      have s1 := sampleStep_of_written (cs := cs) (c := .left) e1
      rw [s1, andThen_next]
      cases e2 : memReadWord (writeSample i (filterSample cs (lane s .left) w).1
          (setLane s .left (filterSample cs (lane s .left) w).2)).mem (i + 1) with
      | none => rw [sampleStep_of_unwritten e2]; rfl
      | some w' =>
        have s2 := sampleStep_of_written (cs := cs) (c := .right) e2
        rw [s2, andThen_next]
        refine ih _ _ ⟨j, ?_, by omega, ?_⟩
        · have i1 : j ≠ i := by
            rintro rfl
            exact h3 (by simp [written, e1])
          have i2 : j ≠ i + 1 := by
            rintro rfl
            refine h3 ?_
            rw [written, ← sampleStep_written s1, e2]; rfl
          omega
        · rw [written, sampleStep_written s2, sampleStep_written s1]
          exact h3

/-- The walk never refuses. -/
theorem processFrames_not_refused (cs : List Coeffs) (k i : Nat) (s : State) (r : Refusal) :
    processFrames cs k i s ≠ .refused r := by
  by_cases h : ∀ j, i ≤ j → j < i + 2 * k → written s j
  · obtain ⟨t, ht⟩ := processFrames_completes cs k i s h
    rw [ht]; exact nofun
  · rw [processFrames_faults cs k i s (by push Not at h; exact h)]
    exact nofun

end Sys2Proof.Machine
end

