-- ==== Sys2Proof/Laws/Lanes.lean ====
section
/-! SUPPORT. What the walk of PROCESS computes on each lane (spec 41_process R514–R517): the outputs are those of the lane's
own filter on the lane's own input words, and nothing of the other lane enters. -/

namespace Sys2Proof.Machine

open Sys2Proof.Safety

/-- The offset of a channel within a frame (R202). -/
def channelOffset : Channel → Nat
  | .left => 0
  | .right => 1

/-- The word at an index, 0 where unwritten. -/
def wordAt (s : State) (i : Nat) : Word := (memReadWord s.mem i).getD 0

/-- A lane's input words in `k` frames from index `i`. -/
def inputsFrom (s : State) (c : Channel) : Nat → Nat → List Word
  | 0, _ => []
  | k + 1, i => wordAt s (i + channelOffset c) :: inputsFrom s c k (i + 2)

theorem inputsFrom_congr {s t : State} {c : Channel} {k i : Nat}
    (h : ∀ j, i ≤ j → memReadWord t.mem j = memReadWord s.mem j) : inputsFrom t c k i = inputsFrom s c k i := by
  induction k generalizing i with
  | zero => rfl
  | succ k ih =>
    simp only [inputsFrom, wordAt]
    rw [h _ (by omega), ih fun j hj => h j (by omega)]

theorem inputsFrom_eq_map (s : State) (c : Channel) (k i : Nat) :
    inputsFrom s c k i = (List.range k).map fun j => wordAt s (i + 2 * j + channelOffset c) := by
  induction k generalizing i with
  | zero => rfl
  | succ k ih =>
    rw [inputsFrom, ih, List.range_succ_eq_map, List.map_cons, List.map_map]
    congr 1
    apply List.map_congr_left
    intro j _
    simp only [Function.comp]
    congr 1; omega

@[simp] theorem length_laneOutputs (cs : List Coeffs) (l : List StageState) (ws : List Word) :
    (laneOutputs cs l ws).length = ws.length := by
  induction ws generalizing l with
  | nil => rfl
  | cons w ws ih => simp [laneOutputs, ih]

theorem channelOffset_lt (c : Channel) : channelOffset c < 2 := by cases c <;> decide

/-- A frame: both lanes' outputs are written and both lanes advance, each by its own input. -/
theorem frame_eq_next {cs : List Coeffs} {i : Nat} {s u v : State} (hu : sampleStep cs .left i s = .next u)
    (hv : sampleStep cs .right (i + 1) u = .next v) (c : Channel) :
    lane v c = (filterSample cs (lane s c) (wordAt s (i + channelOffset c))).2 ∧
      (∃ w, memReadWord v.mem (i + channelOffset c) = some w ∧
        carries w (filterSample cs (lane s c) (wordAt s (i + channelOffset c))).1) ∧
      ∀ j, j ≠ i → j ≠ i + 1 → memReadWord v.mem j = memReadWord s.mem j := by
  obtain ⟨w, hw, rfl⟩ := sampleStep_eq_next hu
  obtain ⟨w', hw', rfl⟩ := sampleStep_eq_next hv
  simp only [writeSample_mem, setLane_mem] at hw'
  rw [memReadWord_memWriteWord_other (by omega)] at hw'
  have other : ∀ x y j, j ≠ i → j ≠ i + 1 → memReadWord (memWriteWord (memWriteWord s.mem i x) (i + 1) y) j =
      memReadWord s.mem j := fun x y j h1 h2 => by
    rw [memReadWord_memWriteWord_other h2, memReadWord_memWriteWord_other h1]
  cases c with
  | left =>
    have e : wordAt s (i + channelOffset .left) = w := by simp [wordAt, channelOffset, hw]
    rw [e]
    refine ⟨?_, ?_, ?_⟩
    · rw [lane_writeSample, lane_setLane_other (by decide), lane_writeSample, lane_setLane_same]
    · rw [writeSample_mem, setLane_mem, memReadWord_memWriteWord_other (by simp [channelOffset]), writeSample_mem,
        setLane_mem, channelOffset, Nat.add_zero, memReadWord_memWriteWord_same]
      exact ⟨_, rfl, ofBits32_toBits32 _ _⟩
    · simpa only [writeSample_mem, setLane_mem] using other _ _
  | right =>
    have e : wordAt s (i + channelOffset .right) = w' := by simp [wordAt, channelOffset, hw']
    rw [e]
    refine ⟨?_, ?_, ?_⟩
    · rw [lane_writeSample, lane_setLane_same, lane_writeSample, lane_setLane_other (by decide)]
    · rw [writeSample_mem, channelOffset, memReadWord_memWriteWord_same, lane_writeSample,
        lane_setLane_other (by decide)]
      exact ⟨_, rfl, ofBits32_toBits32 _ _⟩
    · simpa only [writeSample_mem, setLane_mem] using other _ _

/-- The walk runs each lane's filter on that lane's input words, and leaves its outputs in their places. -/
theorem processFrames_lanes {cs : List Coeffs} {k i : Nat} {s t : State} (h : processFrames cs k i s = .next t)
    (c : Channel) :
    lane t c = laneAfter cs (lane s c) (inputsFrom s c k i) ∧
      ∀ j (hj : j < k), ∃ w, memReadWord t.mem (i + 2 * j + channelOffset c) = some w ∧
        carries w ((laneOutputs cs (lane s c) (inputsFrom s c k i))[j]'(by
          rw [length_laneOutputs, inputsFrom_eq_map, List.length_map, List.length_range]; exact hj)) := by
  induction k generalizing i s with
  | zero =>
    injection h with h
    subst h
    exact ⟨rfl, fun j hj => absurd hj (Nat.not_lt_zero j)⟩
  | succ k ih =>
    obtain ⟨u, hu, h⟩ := andThen_eq_next h
    obtain ⟨v, hv, h⟩ := andThen_eq_next h
    obtain ⟨hl, ⟨w, hw, hc⟩, hm⟩ := frame_eq_next hu hv c
    have hin : inputsFrom v c k (i + 2) = inputsFrom s c k (i + 2) :=
      inputsFrom_congr fun j hj => hm j (by omega) (by omega)
    obtain ⟨il, io⟩ := ih h
    rw [hl, hin] at il
    refine ⟨il, fun j hj => ?_⟩
    cases j with
    | zero =>
      have hf := (processFrames_frame h).2.1
      have hoff := channelOffset_lt c
      refine ⟨w, ?_, hc⟩
      rw [Nat.mul_zero, Nat.add_zero, ← hw]
      unfold memReadWord
      rw [hf _ (by omega), hf _ (by omega), hf _ (by omega), hf _ (by omega)]
    | succ j =>
      obtain ⟨w', hw', hc'⟩ := io j (by omega)
      refine ⟨w', ?_, ?_⟩
      · rw [← hw']; congr 1; omega
      · simp only [inputsFrom, laneOutputs, List.getElem_cons_succ]
        simpa only [hl, hin] using hc'

end Sys2Proof.Machine
end

