-- ==== Sys2Proof/Laws/Commands.lean ====
section
/-! SUPPORT. Everything a command can answer, said once (spec 40_control, 41_process R517–R519, 42_parameters R606–R609,
60_exceptions R701–R703): a rejection that only reports, or its effect and the code OK. -/

namespace Sys2Proof.Machine

open Sys2Proof.Safety

/-! ### The checks of PROCESS -/

/-- When the checks of an enabled PROCESS pass (R517). -/
theorem processCheck_eq_ok_iff (s : State) :
    processCheck s = .ok ↔ (1 ≤ rateOf s ∧ rateOf s ≤ maxRate) ∧ countOf s % 2 = 0 ∧
      baseOf s + countOf s ≤ s.params.sampleMemWords := by
  unfold processCheck
  split
  · constructor
    · exact nofun
    · rintro ⟨h, -⟩; omega
  · split
    · constructor
      · exact nofun
      · rintro ⟨-, h, -⟩; contradiction
    · split
      · constructor
        · exact nofun
        · rintro ⟨-, -, h⟩; omega
      · simp only [true_iff]
        omega

theorem processAccepted_iff (s : State) : processAccepted s ↔ s.enabled = true ∧ processCheck s = .ok := by
  rw [processCheck_eq_ok_iff]
  unfold processAccepted
  tauto

/-- The walk of an accepted PROCESS, from the state after the rate change. -/
def processWalk (lm : Libm) (s : State) : Out :=
  processFrames (coeffsOf lm (applyRate s)) (countOf s / 2) (baseOf s) (applyRate s)

theorem processWith_of_disabled {s : State} (h : s.enabled = false) (lm : Libm) :
    processWith lm s = complete opcProcess .ok s := by
  simp [processWith, h]

theorem processWith_of_rejected {s : State} (h : s.enabled = true) (h' : processCheck s ≠ .ok) (lm : Libm) :
    processWith lm s = complete opcProcess (processCheck s) s := by
  simp [processWith, h, h']

theorem processWith_of_accepted {s : State} (h : processAccepted s) (lm : Libm) :
    processWith lm s = andThen (processWalk lm s) (complete opcProcess .ok) := by
  obtain ⟨h1, h2⟩ := (processAccepted_iff s).mp h
  simp only [processWith, h1, h2, Bool.true_eq_false, if_false, ne_eq, not_true_eq_false, processWalk, countOf, baseOf,
    applyRate_arg1, applyRate_arg0]

/-- The buffer has as many words as its frames hold, when the count is even. -/
theorem two_mul_half {n : Nat} (h : n % 2 = 0) : 2 * (n / 2) = n := by omega

/-- Writing of the buffer is not touched by the rate change. -/
theorem written_applyRate (s : State) (i : Nat) : written (applyRate s) i ↔ written s i := by simp [written]

/-- An accepted PROCESS over a written buffer completes (R517). -/
theorem processWalk_completes {s : State} (h : processAccepted s) (hb : bufferWritten s) (lm : Libm) :
    ∃ u, processWalk lm s = .next u :=
  processFrames_completes _ _ _ _ fun j h1 h2 => by
    have e := two_mul_half h.2.2.2.1
    exact (written_applyRate s j).mpr (hb j h1 (by omega))

/-! ### Effects -/

/-- The effect of a command that completes with OK, apart from RESULT. -/
def commandEffect (i : Instr) (s u : State) : Prop :=
  match i with
  | .nop => u = s
  | .process => (s.enabled = false ∧ u = s) ∨ (processAccepted s ∧ processWalk libm s = .next u)
  | .reset => u = clearFilter s
  | .setEnabled en => en.toNat ≤ 1 ∧ u = { s with enabled := enabledFrom en }
  | .setFreq b => b.toNat < nbands s.params.kind ∧ s.params.kind = .parametric ∧ isNan32 (valueOf s) = false ∧
      u = updateBand s b.toNat fun band => { band with freq := clampFreq (valueOf s) }
  | .setGain b => b.toNat < nbands s.params.kind ∧ isNan32 (valueOf s) = false ∧
      u = updateBand s b.toNat fun band => { band with gain := clampGain (valueOf s) }
  | .setQ b => b.toNat < nbands s.params.kind ∧ s.params.kind = .parametric ∧ isNan32 (valueOf s) = false ∧
      u = updateBand s b.toNat fun band => { band with q := clampQ (valueOf s) }
  | .updateParams tag => tag.toNat = acceptedTag s.params.kind ∧ payloadHasNan s = false ∧
      u = { s with bands := updatedBands s }

theorem complete_eq_next {opc : Byte} {code : ResultCode} {s t : State} (h : complete opc code s = .next t) :
    t = finish opc code s := by
  injection h with h
  exact h.symm

/-- Every next state of a command: a rejection that only reports, or its effect and OK (R701, R702). -/
theorem exec_eq_next {i : Instr} {s t : State} (h : exec i s = .next t) :
    (∃ code, code ≠ .ok ∧ t = finish (opcodeOf i) code s) ∨
      (∃ u, commandEffect i s u ∧ t = finish (opcodeOf i) .ok u) := by
  cases i with
  | nop => exact .inr ⟨s, rfl, complete_eq_next h⟩
  | reset => exact .inr ⟨_, rfl, complete_eq_next h⟩
  | setEnabled en =>
    simp only [exec, execSetEnabled] at h
    split at h
    · next he => exact .inr ⟨_, ⟨he, rfl⟩, complete_eq_next h⟩
    · exact .inl ⟨_, by decide, complete_eq_next h⟩
  | setFreq b =>
    simp only [exec, execSetFreq] at h
    split at h
    · exact .inl ⟨_, by decide, complete_eq_next h⟩
    · split at h
      · exact .inl ⟨_, by decide, complete_eq_next h⟩
      · split at h
        · exact .inl ⟨_, by decide, complete_eq_next h⟩
        · next h1 h2 h3 =>
          exact .inr ⟨_, ⟨Nat.lt_of_not_le h1, not_not.mp h2, by simpa using h3, rfl⟩, complete_eq_next h⟩
  | setGain b =>
    simp only [exec, execSetGain] at h
    split at h
    · exact .inl ⟨_, by decide, complete_eq_next h⟩
    · split at h
      · exact .inl ⟨_, by decide, complete_eq_next h⟩
      · next h1 h3 => exact .inr ⟨_, ⟨Nat.lt_of_not_le h1, by simpa using h3, rfl⟩, complete_eq_next h⟩
  | setQ b =>
    simp only [exec, execSetQ] at h
    split at h
    · exact .inl ⟨_, by decide, complete_eq_next h⟩
    · split at h
      · exact .inl ⟨_, by decide, complete_eq_next h⟩
      · split at h
        · exact .inl ⟨_, by decide, complete_eq_next h⟩
        · next h1 h2 h3 =>
          exact .inr ⟨_, ⟨Nat.lt_of_not_le h1, not_not.mp h2, by simpa using h3, rfl⟩, complete_eq_next h⟩
  | updateParams tag =>
    simp only [exec, execUpdateParams] at h
    split at h
    · exact .inl ⟨_, by decide, complete_eq_next h⟩
    · split at h
      · exact .inl ⟨_, by decide, complete_eq_next h⟩
      · next h1 h2 => exact .inr ⟨_, ⟨not_not.mp h1, by simpa using h2, rfl⟩, complete_eq_next h⟩
  | process =>
    simp only [exec, execProcess] at h
    cases he : s.enabled with
    | false =>
      rw [processWith_of_disabled he] at h
      exact .inr ⟨s, .inl ⟨he, rfl⟩, complete_eq_next h⟩
    | true =>
      by_cases hc : processCheck s = .ok
      · have ha := (processAccepted_iff s).mpr ⟨he, hc⟩
        rw [processWith_of_accepted ha] at h
        obtain ⟨u, hu, h⟩ := andThen_eq_next h
        exact .inr ⟨u, .inr ⟨ha, hu⟩, complete_eq_next h⟩
      · rw [processWith_of_rejected he hc] at h
        exact .inl ⟨_, hc, complete_eq_next h⟩

/-- The fields no command writes: the construction parameters, the operand registers, the hosts' lock and events and the
value last read (R100, R116, R117, R821). -/
theorem commandEffect_operands {i : Instr} {s u : State} (h : commandEffect i s u) :
    u.params = s.params ∧ u.arg0 = s.arg0 ∧ u.arg1 = s.arg1 ∧ u.arg2 = s.arg2 ∧ u.payload = s.payload ∧
      u.argOwner = s.argOwner ∧ u.port = s.port ∧ u.readData = s.readData ∧ u.result = s.result ∧ u.err = s.err := by
  cases i with
  | nop => subst h; simp
  | reset => subst h; simp
  | setEnabled en => rw [h.2]; simp
  | setFreq b => rw [h.2.2.2]; simp
  | setGain b => rw [h.2.2]; simp
  | setQ b => rw [h.2.2.2]; simp
  | updateParams tag => rw [h.2.2]; simp
  | process =>
    rcases h with ⟨-, rfl⟩ | ⟨-, h⟩
    · simp
    · have hf := (processFrames_frame h).1
      rw [hf]; simp

end Sys2Proof.Machine
end

