-- ==== Sys2Proof/Laws/Fields.lean ====
section
/-! SUPPORT. A command word and its four fields determine each other (spec 30_encoding R301). -/

namespace Sys2Proof

@[simp] theorem fieldsOf_wordOf (f : Fields) : fieldsOf (wordOf f) = f := by
  cases f
  simp only [fieldsOf, wordOf, Fields.mk.injEq]
  refine ⟨?_, ?_, ?_, ?_⟩ <;>
  · apply BitVec.eq_of_getLsbD_eq
    intro k hk
    simp only [BitVec.getLsbD_append, BitVec.getLsbD_extractLsb', hk, decide_true, Bool.true_and]
    simp only [show ¬ 24 + k < 8 by omega, show ¬ 24 + k - 8 < 8 by omega, show ¬ 24 + k - 8 - 8 < 8 by omega,
      show 24 + k - 8 - 8 - 8 = k by omega, show ¬ 16 + k < 8 by omega, show ¬ 16 + k - 8 < 8 by omega,
      show 16 + k - 8 - 8 = k by omega, show ¬ 8 + k < 8 by omega, show 8 + k - 8 = k by omega, hk, Nat.zero_add,
      if_true, if_false]

@[simp] theorem wordOf_fieldsOf (w : Word) : wordOf (fieldsOf w) = w := by
  simpa [wordOf, fieldsOf, Machine.byteOf] using Machine.bytes_append w

/-- A word's opcode, as a number, is its bits [31:24]. -/
theorem toNat_fieldsOf_opc (w : Word) : (fieldsOf w).opc.toNat = w.toNat / 2 ^ 24 := by
  have h := w.isLt
  simp only [fieldsOf, BitVec.extractLsb'_toNat, Nat.shiftRight_eq_div_pow]
  omega

end Sys2Proof
end

