-- ==== Sys2Proof/Laws/PerInstr.lean ====
section
/-! SUPPORT. The family of statements made per command: a command's word lies in its row of the opcode table (spec
30_encoding R305). -/

namespace Sys2Proof.Laws.RowPattern

/-- The word of a well-formed command, under its row's mask, is its row's match. -/
def Statement (i : Instr) : Prop := i.wellFormed = true → encode i &&& rowMask i = rowPattern i

theorem nop : Statement .nop := fun _ => by decide

theorem process : Statement .process := fun _ => by decide

theorem reset : Statement .reset := fun _ => by decide

theorem setEnabled (en : Byte) : Statement (.setEnabled en) := by
  revert en; unfold Statement; decide

theorem setFreq (b : Byte) : Statement (.setFreq b) := by
  revert b; unfold Statement; decide

theorem setGain (b : Byte) : Statement (.setGain b) := by
  revert b; unfold Statement; decide

theorem setQ (b : Byte) : Statement (.setQ b) := by
  revert b; unfold Statement; decide

theorem updateParams (tag : Byte) : Statement (.updateParams tag) := by
  revert tag; unfold Statement; decide

end Sys2Proof.Laws.RowPattern
end

