-- ==== Sys2Proof/Laws/Port.lean ====
section
/-! SUPPORT. What a step can do, said once (spec 20_memory R204, R206, R207, R209, R220; 30_encoding R300, R306; 10_state R103,
R104; 70_reset_and_hazards R821): the register a control offset names, a step on each host event, and every next state of a step. -/

namespace Sys2Proof.Machine

open Sys2Proof.Safety

/-! ### The control map -/

theorem ctlReg_payload (i : Fin 32) : ctlReg (0x040 + 4 * i.val) = .payload i := by
  have h := i.isLt
  unfold ctlReg
  iterate 9 rw [if_neg (by omega)]
  rw [if_neg (by omega), dif_pos (by omega)]
  congr 1
  exact Fin.ext (by simp only; omega)

theorem ctlReg_band (b : Fin 32) :
    ctlReg (0x100 + 16 * b.val) = .bandFreq b ∧ ctlReg (0x104 + 16 * b.val) = .bandGain b ∧
      ctlReg (0x108 + 16 * b.val) = .bandQ b ∧ ctlReg (0x10C + 16 * b.val) = .bandType b := by
  revert b; decide +kernel

/-- The reserved offsets (R104). -/
theorem ctlReg_reserved {off : Nat} (h4 : off % 4 = 0)
    (h : (0x024 ≤ off ∧ off < 0x040) ∨ (0x0C0 ≤ off ∧ off < 0x100) ∨ 0x300 ≤ off) : ctlReg off = .reserved := by
  unfold ctlReg
  iterate 9 rw [if_neg (by omega)]
  rcases h with h | h | h
  · rw [if_pos (by omega)]
  · rw [if_neg (by omega), dif_neg (by omega), if_pos (by omega)]
  · rw [if_neg (by omega), dif_neg (by omega), if_neg (by omega), dif_neg (by omega)]

/-- The offset of a register (R103). -/
def ctlOffset : CtlReg → Nat
  | .id => 0x000
  | .info => 0x004
  | .status => 0x008
  | .result => 0x00C
  | .activeRate => 0x010
  | .cmd => 0x014
  | .arg0 => 0x018
  | .arg1 => 0x01C
  | .arg2 => 0x020
  | .payload i => 0x040 + 4 * i.val
  | .bandFreq b => 0x100 + 16 * b.val
  | .bandGain b => 0x104 + 16 * b.val
  | .bandQ b => 0x108 + 16 * b.val
  | .bandType b => 0x10C + 16 * b.val
  | .reserved => 0x024

/-- An aligned offset that names a register is that register's only offset. -/
theorem eq_ctlOffset {off : Nat} (h4 : off % 4 = 0) {r : CtlReg} (h : ctlReg off = r) (hr : r ≠ .reserved) :
    off = ctlOffset r := by
  have key : ∀ o : Fin 0x300, o.val % 4 = 0 → ctlReg o.val = .reserved ∨ o.val = ctlOffset (ctlReg o.val) := by
    decide +kernel
  rcases Nat.lt_or_ge off 0x300 with hl | hl
  · rcases key ⟨off, hl⟩ h4 with h' | h'
    · exact absurd (h.symm.trans h') hr
    · rw [← h]; exact h'
  · exact absurd (h.symm.trans (ctlReg_reserved h4 (.inr (.inr hl)))) hr

/-! ### A step on a host event -/

theorem step_access (a : Access) (s : State) (rest : List HostEvent) :
    step { s with port := .access a :: rest } = performAccess a { s with port := rest } := rfl

theorem step_of_not_admitted {a : Access} {s : State} {rest : List HostEvent}
    (h : admitted a { s with port := rest } = false) : step { s with port := .access a :: rest } = .fault .busFault := by
  rw [step_access, performAccess, h]; rfl

/-- An admitted access that keeps the lock does what its read or write does, with the lock moved on (R204, R821). -/
theorem step_of_admitted {a : Access} {s : State} {rest : List HostEvent} (h : admitted a { s with port := rest } = true)
    (hl : breaksLock a s.argOwner = false) : step { s with port := .access a :: rest } =
      match a.op with
      | .read => hostRead a.space a.offset { s with port := rest, argOwner := lockAfter a s.argOwner }
      | .write w => hostWrite a.space a.offset w { s with port := rest, argOwner := lockAfter a s.argOwner } := by
  rw [step_access, performAccess, if_pos h]
  rw [hl]
  cases a.op <;> rfl

/-- An operand write inside the other agent's argument sequence has no move (R821). -/
theorem step_of_breaksLock {a : Access} {s : State} {rest : List HostEvent}
    (h : admitted a { s with port := rest } = true) (hl : breaksLock a s.argOwner = true) :
    step { s with port := .access a :: rest } = .refused .lockBroken := by
  rw [step_access, performAccess, if_pos h]
  simp only [hl, if_true]

theorem admitted_ctl {off : Nat} (h4 : off % 4 = 0) (h : off < 0x400) (s : State) (ag : Agent) (op : AccessOp) :
    admitted ⟨ag, .control, off, .word, op⟩ s = true := by
  simp [admitted, spaceBytes, ctlBytes, h4, h]

theorem admitted_smp {i : Nat} {s : State} (h : i < s.params.sampleMemWords) (ag : Agent) (op : AccessOp) :
    admitted ⟨ag, .sample, 4 * i, .word, op⟩ s = true := by
  simp [admitted, spaceBytes, h]

theorem step_rdCtl {off : Nat} (h4 : off % 4 = 0) (h : off < 0x400) (s : State) (ag : Agent) (rest : List HostEvent) :
    step { s with port := rdCtl ag off :: rest } =
      .next { s with port := rest, readData := some (ctlRead { s with port := rest } (ctlReg off)) } := by
  rw [rdCtl, step_of_admitted (admitted_ctl h4 h _ _ _) rfl]
  rfl

/-- A write to CMD is its word's command (R300), and ends the agent's own argument sequence (R821). -/
theorem step_wrCmd (s : State) (ag : Agent) (w : Word) (rest : List HostEvent) :
    step { s with port := wrCtl ag 0x014 w :: rest } =
      issueCommand w { s with port := rest, argOwner := lockAfterCmd ag s.argOwner } := by
  rw [wrCtl, step_of_admitted (admitted_ctl (by decide) (by decide) _ _ _) rfl]
  rfl

/-- A write of a register that is neither an operand nor CMD: no lock is asked for (R730). -/
theorem step_wrCtl {off : Nat} (h4 : off % 4 = 0) (h : off < 0x400) (hc : ctlReg off ≠ .cmd)
    (ho : isOperand (ctlReg off) = false) (s : State) (ag : Agent) (w : Word) (rest : List HostEvent) :
    step { s with port := wrCtl ag off w :: rest } = .next (ctlStore (ctlReg off) w { s with port := rest }) := by
  rw [wrCtl, step_of_admitted (admitted_ctl h4 h _ _ _) (by simp [breaksLock, writtenReg, ho])]
  simp [hostWrite, hc, lockAfter, writtenReg, ho]

/-- A write of an operand register opens or goes on with the agent's argument sequence (R116, R117, R821). -/
theorem step_wrOperand {off : Nat} (h4 : off % 4 = 0) (h : off < 0x400) (ho : isOperand (ctlReg off) = true) {s : State}
    {ag : Agent} (hl : mayWriteOperands ag s.argOwner = true) (w : Word) (rest : List HostEvent) :
    step { s with port := wrCtl ag off w :: rest } =
      .next (ctlStore (ctlReg off) w { s with port := rest, argOwner := some ag }) := by
  have hc : ctlReg off ≠ .cmd := fun e => by rw [e] at ho; cases ho
  rw [wrCtl, step_of_admitted (admitted_ctl h4 h _ _ _) (by simp [breaksLock, writtenReg, ho, hl])]
  simp [hostWrite, hc, lockAfter, writtenReg, ho]

/-- The other agent's write of an operand register (R821). -/
theorem step_wrOperand_broken {off : Nat} (h4 : off % 4 = 0) (h : off < 0x400) (ho : isOperand (ctlReg off) = true)
    {s : State} {ag : Agent} (hl : mayWriteOperands ag s.argOwner = false) (w : Word) (rest : List HostEvent) :
    step { s with port := wrCtl ag off w :: rest } = .refused .lockBroken := by
  rw [wrCtl, step_of_breaksLock (admitted_ctl h4 h _ _ _) (by simp [breaksLock, writtenReg, ho, hl])]

theorem step_wrSmp {i : Nat} {s : State} (h : i < s.params.sampleMemWords) (ag : Agent) (w : Word)
    (rest : List HostEvent) :
    step { s with port := wrSmp ag i w :: rest } =
      .next { s with port := rest, mem := memWriteWord s.mem i w } := by
  rw [wrSmp, step_of_admitted (admitted_smp (s := { s with port := rest }) h _ _) rfl]
  simp only [hostWrite, Nat.mul_div_cancel_left i (by decide : 0 < 4)]
  rfl

theorem step_rdSmp {i : Nat} {s : State} (h : i < s.params.sampleMemWords) (ag : Agent) (rest : List HostEvent) :
    step { s with port := rdSmp ag i :: rest } =
      match memReadWord s.mem i with
      | some w => .next { s with port := rest, readData := some w }
      | none => .fault .unwrittenRead := by
  rw [rdSmp, step_of_admitted (admitted_smp (s := { s with port := rest }) h _ _) rfl]
  simp only [hostRead, Nat.mul_div_cancel_left i (by decide : 0 < 4)]
  rfl

/-! ### Every next state of a step -/

/-- What one host event can do, when it does not stop the model. -/
inductive StepEffect (s t : State) : Prop where
  /-- No event: R726. -/
  | idle (empty : s.port = []) (eq : t = s)
  /-- R800. -/
  | hardwareReset (rest : List HostEvent) (event : s.port = .hardwareReset :: rest)
      (eq : t = Machine.hardwareReset { s with port := rest })
  /-- A read: only the value read is new (R209). -/
  | read (rest : List HostEvent) (a : Access) (isRead : a.op = .read) (event : s.port = .access a :: rest)
      (eq : t = { s with port := rest, readData := t.readData })
  /-- A write of a control register that is neither an operand nor CMD. -/
  | store (rest : List HostEvent) (ag : Agent) (off : Nat) (w : Word) (aligned : off % 4 = 0) (inside : off < 0x400)
      (notCmd : ctlReg off ≠ .cmd) (notOperand : isOperand (ctlReg off) = false) (event : s.port = wrCtl ag off w :: rest)
      (eq : t = ctlStore (ctlReg off) w { s with port := rest })
  /-- A write of an operand register, inside the agent's own argument sequence or with none open. -/
  | operand (rest : List HostEvent) (ag : Agent) (off : Nat) (w : Word) (aligned : off % 4 = 0) (inside : off < 0x400)
      (isOperand : isOperand (ctlReg off) = true) (owner : mayWriteOperands ag s.argOwner = true)
      (event : s.port = wrCtl ag off w :: rest)
      (eq : t = ctlStore (ctlReg off) w { s with port := rest, argOwner := some ag })
  /-- A write of CMD. -/
  | issue (rest : List HostEvent) (ag : Agent) (w : Word) (event : s.port = wrCtl ag 0x014 w :: rest)
      (eq : issueCommand w { s with port := rest, argOwner := lockAfterCmd ag s.argOwner } = .next t)
  /-- A write of a sample word. -/
  | sample (rest : List HostEvent) (ag : Agent) (i : Nat) (w : Word) (inside : i < s.params.sampleMemWords)
      (event : s.port = wrSmp ag i w :: rest) (eq : t = { s with port := rest, mem := memWriteWord s.mem i w })

/-- Every next state of a step (R204, R206, R209, R220, R300, R726, R800, R821). -/
theorem step_eq_next {s t : State} (h : step s = .next t) : StepEffect s t := by
  have hs : ∀ p, s.port = p → s = { s with port := p } := fun p hp => by rw [← hp]
  cases hp : s.port with
  | nil =>
    rw [step, serveNext, hp] at h
    injection h with h
    exact .idle hp h.symm
  | cons e rest =>
    rw [hs _ hp] at h
    cases e with
    | hardwareReset =>
      injection h with h
      exact .hardwareReset rest hp h.symm
    | access a =>
      cases hadm : admitted a { s with port := rest } with
      | false => rw [step_of_not_admitted hadm] at h; cases h
      | true =>
        cases hl : breaksLock a s.argOwner with
        | true => rw [step_of_breaksLock hadm hl] at h; cases h
        | false =>
          obtain ⟨ag, sp, off, size, op⟩ := a
          have hadm' := hadm
          simp only [admitted, decide_eq_true_eq] at hadm
          obtain ⟨rfl, h4, hin⟩ := hadm
          cases sp with
          | control =>
            cases op with
            | read =>
              rw [show HostEvent.access _ = rdCtl ag off from rfl, step_rdCtl h4 hin] at h
              injection h with h
              exact .read rest _ rfl hp (by rw [← h])
            | write w =>
              have hev : s.port = wrCtl ag off w :: rest := hp
              rw [show HostEvent.access _ = wrCtl ag off w from rfl] at h
              by_cases hc : ctlReg off = .cmd
              · obtain rfl := eq_ctlOffset h4 hc (by decide)
                rw [show ctlOffset .cmd = 0x014 from rfl, step_wrCmd] at h
                exact .issue rest ag w hev h
              · cases ho : isOperand (ctlReg off) with
                | false =>
                  rw [step_wrCtl h4 hin hc ho] at h
                  injection h with h
                  exact .store rest ag off w h4 hin hc ho hev h.symm
                | true =>
                  have hl' : mayWriteOperands ag s.argOwner = true := by
                    simpa [breaksLock, writtenReg, ho] using hl
                  rw [step_wrOperand h4 hin ho hl'] at h
                  injection h with h
                  exact .operand rest ag off w h4 hin ho hl' hev h.symm
          | sample =>
            have e : 4 * (off / 4) = off := by omega
            simp only [spaceBytes] at hin
            have hin' : off / 4 < s.params.sampleMemWords := by omega
            cases op with
            | read =>
              rw [← e, show HostEvent.access _ = rdSmp ag (off / 4) from rfl, step_rdSmp hin'] at h
              split at h
              · injection h with h
                exact .read rest _ rfl hp (by rw [← h])
              · cases h
            | write w =>
              have hev : s.port = wrSmp ag (off / 4) w :: rest := by rw [wrSmp, e]; exact hp
              rw [← e, show HostEvent.access _ = wrSmp ag (off / 4) w from rfl, step_wrSmp hin'] at h
              injection h with h
              exact .sample rest ag (off / 4) w hin' hev h.symm

/-- Every next state of a command word (R306): a report of ILLEGAL, or its command's. -/
theorem issueCommand_eq_next {w : Word} {s t : State} (h : issueCommand w s = .next t) :
    (∃ r, decode w = .illegal r ∧ t = finish (fieldsOf w).opc .illegal s) ∨
      ∃ i, decode w = .command i ∧ exec i s = .next t := by
  unfold issueCommand at h
  split at h
  · next i hi => exact .inr ⟨i, hi, h⟩
  · next r hr => exact .inl ⟨r, hr, complete_eq_next h⟩

end Sys2Proof.Machine
end

