-- ==== Sys2Proof/Tests/Slice0.lean ====
section
/-! SUPPORT. The model's own tests: small steps against the vectors of spec/95_test_vectors.md, words written out from
30_encoding R301 and R305, and a witness for every statement that has hypotheses. -/

namespace Sys2Proof.Tests

open Sys2Proof.Machine Sys2Proof.Safety

-- One theorem at a time, so that the kernel evaluations below do not each hold a thread.
set_option Elab.async false

/-! ### Helpers -/

def nextOf : Out → Option State
  | .next s => some s
  | .fault _ => none
  | .refused _ => none

def faultOf : Out → Option Fault
  | .next _ => none
  | .fault f => some f
  | .refused _ => none

def refusalOf : Out → Option Refusal
  | .next _ => none
  | .fault _ => none
  | .refused r => some r

/-- RESULT and ERR of a command. -/
def report (o : Out) : Option (Word × Bool) := (nextOf o).map fun s => (s.result, s.err)

/-- One band after a command. -/
def bandAfter (b : Nat) (o : Out) : Option Band := (nextOf o).bind fun s => s.bands[b]?

def peq : State := State.reset
def geq10 : State := State.resetWith ⟨.graphic10, 8192⟩
def geq31 : State := State.resetWith ⟨.graphic31, 8192⟩

/-- Words from an index on. -/
def fill (m : Memory) (i : Nat) : List Word → Memory
  | [] => m
  | w :: ws => fill (memWriteWord m i w) (i + 1) ws

/-- 0.5, inside every range of R503. -/
def half64 : B64 := ofBits64 0x3FE0000000000000

/-- A functions table: the vectors' own values where one is listed. -/
def table (l : List (BitVec 64 × BitVec 64)) (x : B64) : B64 :=
  match l with
  | [] => half64
  | (a, b) :: rest => if x = ofBits64 a then ofBits64 b else table rest x

/-- The vectors' libm at V-D1's angle and exponents (95 V-D1, V-D7). -/
def vectorLibm : Libm where
  sin64 := table [(0x3FC0C152382D7365, 0x3FC0B5150F6DA2D0)]
  cos64 := table [(0x3FC0C152382D7365, 0x3FEFB9EA92EC689B)]
  pow10 := table [(0x3FC3333333333333, 0x3FF699C0F7E86E10), (0x0000000000000000, 0x3FF0000000000000)]

/-- Constant functions inside the ranges of R503. -/
def constantLibm : Libm := ⟨fun _ => half64, fun _ => half64, fun _ => one64⟩

/-- The words 0..3 of a state. -/
def firstWords (o : Out) : Option (List (Option Word)) :=
  (nextOf o).map fun s => (List.range 4).map (memReadWord s.mem)

/-! ### Well-formedness and decoding -/

/-- R302: `en` is 0 or 1. -/
theorem test_wellFormed_refuses_enable_above_one :
    (Instr.setEnabled 2).wellFormed = false ∧ (Instr.setEnabled 255).wellFormed = false ∧
      (Instr.setEnabled 1).wellFormed = true := by decide

/-- Format F0 written out: OPC, BAND, RSV, IMM8 (R301, R304). -/
theorem test_decode_control_words :
    decode 0b00000000000000000000000000000000 = .command .nop ∧
    decode 0b00000001000000000000000000000000 = .command .process ∧
    decode 0b00000010000000000000000000000000 = .command .reset ∧
    decode 0b00000011000000000000000000000001 = .command (.setEnabled 1) := by decide

theorem test_decode_parameter_words :
    decode 0b00010000100000010000000000000000 = .command (.setFreq 0x81) ∧
    decode 0b00010001000000100000000000000000 = .command (.setGain 2) ∧
    decode 0b00010010111111110000000000000000 = .command (.setQ 255) ∧
    decode 0b00100000000000000000000010000001 = .command (.updateParams 0x81) := by decide

/-- V-E1, its illegal words. -/
theorem test_decode_illegal_words :
    decode 0x00000001 = .illegal .immField ∧ decode 0x01000100 = .illegal .reservedField ∧
    decode 0x01010000 = .illegal .bandField ∧ decode 0x04000000 = .illegal .reservedOpcode ∧
    decode 0x12000100 = .illegal .reservedField ∧ decode 0x10000001 = .illegal .immField ∧
    decode 0x20010001 = .illegal .bandField ∧ decode 0xFF000000 = .illegal .reservedOpcode := by decide

/-- The same words written out by the encoder. -/
theorem test_encode_words :
    encode (.setFreq 0x81) = 0x10810000 ∧ encode (.setGain 2) = 0x11020000 ∧ encode (.setQ 255) = 0x12FF0000 ∧
    encode (.updateParams 3) = 0x20000003 ∧ encode (.setEnabled 1) = 0x03000001 ∧ encode .reset = 0x02000000 := by decide

/-- The opcode table's numbering: the row's bits are the word's, upper bits 0. -/
theorem test_decodeTableWord :
    decodeTableWord 32 0x11020000 = some (.setGain 2) ∧ decodeTableWord 32 0x04000000 = none := by decide

/-! ### Commands -/

/-- V-C1: NOP reports and keeps ERR. -/
theorem test_nop : report (exec .nop { peq with result := 0x1102, err := true }) = some (0x00000000, true) := by decide

/-- V-C4: RESET zeroes S alone. -/
theorem test_reset :
    (nextOf (exec .reset { peq with
      enabled := false, activeRate := 44100, left := List.replicate 3 ⟨one64, one64, one64, one64⟩ })).map
      (fun s => (s.result, s.left, s.enabled, s.activeRate)) =
    some (0x00000200, List.replicate 3 StageState.zero, false, 44100) := by decide +kernel

/-- V-C3. -/
theorem test_setEnabled :
    (nextOf (issueCommand 0x03000000 peq)).map (fun s => (s.enabled, s.result)) = some (false, 0x00000300) ∧
    (nextOf (issueCommand 0x03000001 { peq with enabled := false })).map (fun s => (s.enabled, s.result)) =
      some (true, 0x00000300) ∧
    (nextOf (issueCommand 0x03000002 peq)).map (fun s => (s.enabled, s.result, s.err)) =
      some (true, 0x00000301, true) := by decide +kernel

/-- V-K3. -/
theorem test_setFreq_stores :
    (bandAfter 2 (exec (.setFreq 2) { peq with arg0 := 0x00000000 })).map Band.freq = some 0x41200000 ∧
    (bandAfter 2 (exec (.setFreq 2) { peq with arg0 := 0x4E6E6B28 })).map Band.freq = some 0x48F42400 ∧
    (bandAfter 2 (exec (.setFreq 2) { peq with arg0 := 0x7F800000 })).map Band.freq = some 0x48F42400 ∧
    (bandAfter 2 (exec (.setFreq 2) { peq with arg0 := 0x46EA6000 })).map Band.freq = some 0x46EA6000 := by
  decide +kernel

/-- V-K4, SET_FREQ's rows: the priority of the checks. -/
theorem test_setFreq_rejects :
    report (exec (.setFreq 0) { geq10 with arg0 := 0x42C80000 }) = some (0x1003, true) ∧
    report (exec (.setFreq 10) { geq10 with arg0 := 0x42C80000 }) = some (0x1002, true) ∧
    report (exec (.setFreq 0) { geq10 with arg0 := 0x7FC00000 }) = some (0x1003, true) := by decide +kernel

/-- V-K1. -/
theorem test_setGain_stores :
    (bandAfter 1 (exec (.setGain 1) { peq with arg0 := 0x41A00000 })).map Band.gain = some 0x41400000 ∧
    (bandAfter 1 (exec (.setGain 1) { peq with arg0 := 0xFF800000 })).map Band.gain = some 0xC1400000 ∧
    (bandAfter 1 (exec (.setGain 1) { peq with arg0 := 0x80000000 })).map Band.gain = some 0x80000000 ∧
    (bandAfter 1 (exec (.setGain 1) { peq with arg0 := 0xC0200000 })).map Band.gain = some 0xC0200000 := by
  decide +kernel

/-- V-K1's last row and V-K4's SET_GAIN rows. -/
theorem test_setGain_reports :
    report (exec (.setGain 1) { peq with arg0 := 0x7FC00000 }) = some (0x1104, true) ∧
    report (exec (.setGain 10) { geq10 with arg0 := 0x3F800000 }) = some (0x1102, true) ∧
    report (exec (.setGain 9) { geq10 with arg0 := 0x41400000 }) = some (0x1100, false) := by decide +kernel

/-- V-K2. -/
theorem test_setQ_stores :
    (bandAfter 1 (exec (.setQ 1) { peq with arg0 := 0x00000000 })).map Band.q = some 0x3DCCCCCD ∧
    (bandAfter 1 (exec (.setQ 1) { peq with arg0 := 0xC0400000 })).map Band.q = some 0x3DCCCCCD ∧
    (bandAfter 1 (exec (.setQ 1) { peq with arg0 := 0x41300000 })).map Band.q = some 0x41200000 ∧
    (bandAfter 0 (exec (.setQ 0) { peq with arg0 := 0x41200000 })).map Band.q = some 0x41200000 := by decide +kernel

/-- V-K4's SET_Q row. -/
theorem test_setQ_rejects : report (exec (.setQ 3) { geq10 with arg0 := 0x40000000 }) = some (0x1203, true) := by
  decide +kernel

/-- V-K5's payload. -/
def payloadK5 : Vector Word 32 :=
  (((((((((Vector.replicate 32 0).set 0 0x42C80000).set 1 0x40400000).set 2 0x3F333333).set 3 0x447A0000).set 4
    0xC0800000).set 5 0x40000000).set 6 0x460CA000).set 7 0x40C00000).set 8 0x3F333333

/-- V-K5. -/
theorem test_updateParams_parametric :
    (nextOf (exec (.updateParams 1) { peq with payload := payloadK5 })).map (fun s => (s.result, s.bands)) =
      some (0x00002000, [⟨0x42C80000, 0x40400000, 0x3F333333⟩, ⟨0x447A0000, 0xC0800000, 0x40000000⟩,
        ⟨0x460CA000, 0x40C00000, 0x3F333333⟩]) ∧
    report (exec (.updateParams 1) { peq with payload := payloadK5.set 8 0x7FC00000 }) = some (0x2004, true) ∧
    report (exec (.updateParams 2) { peq with payload := payloadK5 }) = some (0x2005, true) := by decide +kernel

/-- V-K7. -/
theorem test_updateParams_graphic :
    report (exec (.updateParams 2) { geq10 with payload := payloadK5.set 10 0x7FC00000 }) = some (0x2000, false) ∧
    report (exec (.updateParams 3) geq10) = some (0x2005, true) ∧
    (bandAfter 0 (exec (.updateParams 2) { geq10 with payload := payloadK5 })) =
      some ⟨0x41FC0000, 0x41400000, 0x3FB504F3⟩ := by decide +kernel

/-- V-P2 and V-P3. -/
theorem test_process_reports :
    report (exec .process { peq with enabled := false, arg1 := 3 }) = some (0x00000100, false) ∧
    report (exec .process { peq with arg1 := 4 }) = some (0x106, true) ∧
    report (exec .process { peq with arg1 := 4, arg2 := 1000001 }) = some (0x106, true) ∧
    report (exec .process { peq with arg1 := 3, arg2 := 48000 }) = some (0x107, true) ∧
    report (exec .process { peq with arg1 := 3 }) = some (0x106, true) ∧
    report (exec .process { peq with arg0 := 8190, arg1 := 4, arg2 := 48000 }) = some (0x108, true) ∧
    report (exec .process { peq with arg0 := 0xFFFFFFFE, arg1 := 4, arg2 := 48000 }) = some (0x108, true) ∧
    report (exec .process { peq with arg0 := 8191, arg1 := 3, arg2 := 48000 }) = some (0x107, true) := by decide +kernel

/-- V-P5's first row, two frames of it: band 1 at 6 dB, both lanes fed an impulse, the vectors' libm.  V-P1 and V-S3: unity
bands pass an impulse, whatever the functions are, and -0.0 becomes +0.0. -/
theorem test_process_filters :
    firstWords (processWith vectorLibm { peq with
      arg1 := 4, arg2 := 48000, bands := peq.bands.modify 1 fun b => { b with gain := 0x40C00000 }
      mem := fill [] 0 [0x3F800000, 0x3F800000, 0, 0] }) =
    some [some 0x3F85A041, some 0x3F85A041, some 0x3DAA9BEA, some 0x3DAA9BEA] ∧
    firstWords (processWith constantLibm { peq with
      arg1 := 4, arg2 := 48000, mem := fill [] 0 [0x3F800000, 0x80000000, 0, 0] }) =
    some [some 0x3F800000, some 0, some 0, some 0] := by decide +kernel

/-! ### The datapath -/

/-- V-D1. -/
theorem test_design_peaking :
    design vectorLibm .peaking ⟨0x447A0000, 0x40C00000, 0x3F800000⟩ 48000 =
      ⟨ofBits64 0x3FF0B40826F2E860, ofBits64 0xBFFE533BD2CBD1D1, ofBits64 0x3FEBC4618661BA3B,
        ofBits64 0xBFFE533BD2CBD1D1, ofBits64 0x3FED2C71D4478AFA⟩ := by decide +kernel

/-- V-S2: -9.99e-16 (0xBCD1FF130772E185), 1.0e-15, -2.0e-15, -0.0, NaN, +Infinity. -/
theorem test_flush :
    flush (ofBits64 0xBCD1FF130772E185) = .posZero ∧ flush flushT = flushT ∧
    flush (ofBits64 0xBCE203AF9EE75616) = ofBits64 0xBCE203AF9EE75616 ∧ flush (zero64 true) = .posZero ∧
    flush .nan = .nan ∧ flush (.inf false) = .inf false := by decide +kernel

/-- V-D5, V-D6, V-D7: the Nyquist limits. -/
theorem test_nyquist_limits :
    mul64 nyqFrac (ofNat64 48000) = ofNat64 21600 ∧ mul64 nyqFrac (ofNat64 44100) = ofNat64 19845 ∧
    effectiveFreq 0x46BB8000 (ofNat64 48000) = ofNat64 21600 ∧
    effectiveFreq 0x46A8BE00 (ofNat64 48000) = ofNat64 21599 := by decide +kernel

/-! ### Registers and the port -/

/-- The value a control read answers. -/
def readAt (s : State) (off : Nat) : Option Word :=
  (nextOf (step { s with port := [rdCtl .audio off] })).bind State.readData

/-- V-R1. -/
theorem test_reset_registers :
    readAt peq 0x000 = some 0x42514551 ∧ readAt peq 0x004 = some 0x00120300 ∧ readAt geq10 0x004 = some 0x00120A01 ∧
    readAt geq31 0x004 = some 0x00121F02 ∧ readAt peq 0x008 = some 0x00000001 ∧ readAt peq 0x10C = some 0x00000001 ∧
    readAt geq10 0x100 = some 0x41FC0000 ∧ readAt geq31 0x100 = some 0x41A00000 ∧ readAt geq31 0x118 = some 0x408A30EE := by
  decide +kernel

/-- V-R2: reads of CMD, of a reserved offset and of a band that does not exist; the last existing BAND registers. -/
theorem test_zero_reads :
    readAt peq 0x014 = some 0 ∧ readAt peq 0x024 = some 0 ∧ readAt peq 0x150 = some 0 ∧ readAt geq31 0x2F0 = some 0 ∧
    readAt geq31 0x2E0 = some 0x469C4000 ∧ readAt geq10 0x190 = some 0x467A0000 := by decide +kernel

/-- V-R2: STATUS writes. -/
theorem test_status_writes :
    (nextOf (step { peq with err := true, result := 0x1102, port := [wrCtl .control 0x008 0x2] })).map
      (fun s => (s.err, s.result, s.enabled)) = some (false, 0x1102, true) ∧
    (nextOf (step { peq with err := true, port := [wrCtl .control 0x008 0x1] })).map
      (fun s => (s.err, s.enabled)) = some (true, true) := by decide +kernel

/-- V-R3. -/
theorem test_faults :
    faultOf (step { peq with port := [.access ⟨.audio, .control, 0, .byte, .read⟩] }) = some .busFault ∧
    faultOf (step { peq with port := [rdCtl .audio 0x002] }) = some .busFault ∧
    faultOf (step { peq with port := [rdCtl .audio 0x400] }) = some .busFault ∧
    faultOf (step { peq with port := [rdSmp .audio 8192] }) = some .busFault ∧
    faultOf (step { peq with port := [rdSmp .audio 5] }) = some .unwrittenRead := by decide +kernel

/-- R203: a word's bytes lie least significant first. -/
theorem test_little_endian : memWriteWord [] 1 0x11223344 = [(4, 0x44), (5, 0x33), (6, 0x22), (7, 0x11)] := by
  decide +kernel

/-- The fetch the host asks about: the word placed runs as the first command after reset. -/
theorem test_withFetchWord :
    (nextOf (step (State.reset.withFetchWord 32 0x03000000))).map (fun s => (s.enabled, s.result)) =
      some (false, 0x00000300) := by decide +kernel

/-! ### Witnesses: concrete states and operands that meet each statement's hypotheses, at the ends of its ranges -/

/-- A written buffer at the top of sample memory, and a PROCESS of it at 48000. -/
def ready : State := { peq with
  arg0 := 8188, arg1 := 4, arg2 := 48000, mem := fill [] 8188 [0x3F800000, 0x3F000000, 0x80000000, 0x00000000] }

/-- The same with another right lane. -/
def readyOther : State := { ready with
  right := List.replicate 3 ⟨one64, one64, one64, one64⟩
  mem := fill [] 8188 [0x3F800000, 0xBF800000, 0x80000000, 0x40000000] }

/-- The same with another left lane. -/
def readyLeft : State := { ready with
  left := List.replicate 3 ⟨one64, one64, one64, one64⟩
  mem := fill [] 8188 [0xBF800000, 0x3F000000, 0x40000000, 0x00000000] }

theorem ready_accepted : processAccepted ready := ⟨by decide, by decide, by decide, by decide, by decide⟩

theorem readyOther_accepted : processAccepted readyOther := ⟨by decide, by decide, by decide, by decide, by decide⟩

theorem readyLeft_accepted : processAccepted readyLeft := ⟨by decide, by decide, by decide, by decide, by decide⟩

theorem written_of_all {s : State} (h : ∀ j : Fin 4, (memReadWord s.mem (8188 + j.val)).isSome = true)
    (hb : baseOf s = 8188) (hc : countOf s = 4) : bufferWritten s := fun i h1 h2 => by
  rw [hb] at h1 h2
  rw [hc] at h2
  have := h ⟨i - 8188, by omega⟩
  rwa [show 8188 + (i - 8188) = i by omega] at this

theorem ready_written : bufferWritten ready := written_of_all (by decide +kernel) (by decide) (by decide)

theorem readyOther_written : bufferWritten readyOther := written_of_all (by decide +kernel) (by decide) (by decide)

theorem readyLeft_written : bufferWritten readyLeft := written_of_all (by decide +kernel) (by decide) (by decide)

/-- An accepted PROCESS over a written buffer answers some next state, whatever the functions of R503 are. -/
theorem process_next {s : State} (h : processAccepted s) (hb : bufferWritten s) : ∃ t, exec .process s = .next t := by
  obtain ⟨u, hu⟩ := processWalk_completes h hb libm
  exact ⟨_, by rw [exec, execProcess, processWith_of_accepted h, hu]; rfl⟩

theorem ready_invariant : Invariant ready :=
  ⟨by decide, by decide, by decide, by decide, by decide +kernel, by decide, by decide, by decide, by decide +kernel,
    by decide +kernel⟩

/-- What `nextOf` answers is the next state. -/
theorem eq_next {o : Out} {s : State} (h : nextOf o = some s) : o = .next s := by
  cases o with
  | next t => injection h with h; rw [h]
  | fault f => cases h
  | refused r => cases h

theorem test_witness_DecodeInvertsEncode :
    (Instr.setEnabled 1).wellFormed = true ∧ (Instr.setQ 255).wellFormed = true ∧
      (Instr.updateParams 255).wellFormed = true := by decide

theorem test_witness_EncodeInvertsDecode :
    decode 0x03000001 = .command (.setEnabled 1) ∧ decode 0x20FF0000 = .illegal .bandField := by decide

theorem test_witness_CommandWordsMatchOnePatternRow :
    (0x12FF0000 : Word) &&& 0xFF00FFFF = 0x12000000 ∧ decode 0x12FF0000 = .command (.setQ 255) ∧
      ((0xFF00FFFF, 0x12000000) : Word × Word) ∈ patternRows := by decide

theorem test_witness_IllegalWordsOnlyReport :
    decode 0x03000002 = .illegal .enableValue ∧ nbands peq.params.kind ≤ (3 : Byte).toNat ∧
      nbands geq31.params.kind ≤ (31 : Byte).toNat ∧ (0 : Byte).toNat ≠ kindCode peq.params.kind + 1 ∧
      (2 : Byte).toNat ≠ kindCode peq.params.kind + 1 := by decide

theorem test_witness_StepRunsTheDecodedCommand :
    decode 0x10020000 = .command (.setFreq 2) ∧ decodeTableWord 32 0x10020000 = some (.setFreq 2) := by decide

theorem test_witness_IdleBlockHoldsItsState : State.reset.port = [] := rfl

/-- Both sides of the end of each space, and the ends of each zero-reading range. -/
theorem test_witness_OnlyAlignedWordsInsideAreAdmitted :
    admitted ⟨.audio, .control, 0x3FC, .word, .read⟩ peq = true ∧
    admitted ⟨.audio, .control, 0x400, .word, .read⟩ peq = false ∧
    admitted ⟨.control, .sample, 4 * 8191, .word, .read⟩ peq = true ∧
    admitted ⟨.control, .sample, 4 * 8192, .word, .read⟩ peq = false ∧
    admitted ⟨.audio, .sample, 2, .word, .write 0⟩ peq = false ∧
    admitted ⟨.audio, .sample, 0, .half, .write 0⟩ peq = false ∧
    ([0x014, 0x024, 0x03C, 0x0C0, 0x0FC, 0x300, 0x3FC] : List Nat).all
      (fun o => admitted ⟨.audio, .control, o, .word, .read⟩ peq) = true := by decide

theorem test_witness_UnwrittenWordsFault :
    (8191 < peq.params.sampleMemWords ∧ memReadWord peq.mem 8191 = none) ∧
    (processAccepted { ready with mem := [] } ∧
      ∃ i, baseOf ready ≤ i ∧ i < baseOf ready + countOf ready ∧ memReadWord [] i = none) :=
  ⟨by decide, ⟨by decide, by decide, by decide, by decide, by decide⟩, 8191, by decide⟩

theorem test_witness_SampleMemoryReadsBackWrites :
    8191 < ready.params.sampleMemWords ∧ memReadWord ready.mem 8191 = some 0x00000000 ∧
      memReadWord ready.mem 0 = none ∧ ∃ t, sampleStep [] .right 8191 ready = .next t :=
  ⟨by decide, by decide +kernel, by decide +kernel, _, sampleStep_of_written (w := 0x00000000) (by decide +kernel)⟩

theorem test_witness_SampleWordsAreLittleEndian : 8191 < peq.params.sampleMemWords ∧ 3 < 4 ∧ 7 < 8 := by decide

theorem test_witness_ReservedAndReadOnlyOffsetsIgnoreWrites :
    ([0x000, 0x004, 0x00C, 0x010, 0x024, 0x03C, 0x0C0, 0x0FC, 0x100, 0x2FC, 0x300, 0x3FC] : List Nat).all
      (fun off => off % 4 = 0 ∧ off < 0x400 ∧
        (off = 0x000 ∨ off = 0x004 ∨ off = 0x00C ∨ off = 0x010 ∨ (0x024 ≤ off ∧ off < 0x040) ∨ 0x0C0 ≤ off)) = true ∧
    ([0x024, 0x03C, 0x0C0, 0x0FC, 0x300, 0x3FC] : List Nat).all
      (fun off => (0x024 ≤ off ∧ off < 0x040) ∨ (0x0C0 ≤ off ∧ off < 0x100) ∨ 0x300 ≤ off) = true := by decide

theorem test_witness_BandRegistersReadTheBandFile :
    (2 < nbands peq.params.kind ∧ peq.bands[2]? = some ⟨0x461C4000, 0x00000000, 0x3F34FDF4⟩) ∧
    (30 < nbands geq31.params.kind ∧ geq31.bands[30]? = some ⟨0x469C4000, 0x00000000, 0x408A30EE⟩) ∧
    nbands peq.params.kind ≤ 3 ∧ nbands geq31.params.kind ≤ 31 := by decide +kernel

theorem test_witness_OperandsChangeOnlyByHostWrites :
    (∃ t, step { peq with port := [wrCtl .audio 0x018 7] } = .next t ∧ t.arg0 ≠ peq.arg0) ∧
    (∃ t, step { peq with port := [wrCtl .audio 0x01C 7] } = .next t ∧ t.arg1 ≠ peq.arg1) ∧
    (∃ t, step { peq with port := [wrCtl .audio 0x020 7] } = .next t ∧ t.arg2 ≠ peq.arg2) ∧
    (∃ t, step { peq with port := [wrCtl .control 0x0BC 7] } = .next t ∧
      t.payload[(31 : Fin 32)] ≠ peq.payload[(31 : Fin 32)]) ∧
    (∃ t, step { peq with arg0 := 7, port := [.hardwareReset] } = .next t ∧ t.arg0 ≠ 7) := by
  refine ⟨⟨{ peq with arg0 := 7, argOwner := some .audio }, ?_⟩, ⟨{ peq with arg1 := 7, argOwner := some .audio }, ?_⟩,
    ⟨{ peq with arg2 := 7, argOwner := some .audio }, ?_⟩,
    ⟨{ peq with payload := peq.payload.set 31 7, argOwner := some .control }, ?_⟩, ⟨peq, ?_⟩⟩ <;>
  exact ⟨eq_next (by decide +kernel), by decide +kernel⟩

theorem test_witness_OperandRegistersAreReadWrite :
    issueCommand 0x00000000 peq = .next { peq with result := 0 } ∧ peq.argOwner = none ∧
      ({ peq with argOwner := some .audio } : State).argOwner = some .audio := ⟨eq_next (by decide), rfl, rfl⟩

/-- R821: the control agent's operand writes at both ends of the ranges, inside the audio agent's sequence. -/
theorem test_lock :
    ([0x018, 0x01C, 0x020, 0x040, 0x0BC] : List Nat).all (fun off =>
      decide (refusalOf (step { peq with argOwner := some .audio, port := [wrCtl .control off 7] }) = some .lockBroken)) = true ∧
    ([0x008, 0x024, 0x03C, 0x0C0] : List Nat).all (fun off =>
      decide (refusalOf (step { peq with argOwner := some .audio, port := [wrCtl .control off 7] }) = none)) = true := by
  decide +kernel

theorem test_witness_AgentsAreNotDistinguished :
    peq.argOwner = none ∧
    step { peq with port := [wrCtl .audio 0x018 7] } = .next { peq with arg0 := 7, argOwner := some .audio } ∧
    step { peq with port := [wrCtl .control 0x018 7] } = .next { peq with arg0 := 7, argOwner := some .control } ∧
    faultOf (step { peq with port := [rdCtl .control 0x400] }) = some .busFault :=
  ⟨rfl, eq_next (by decide +kernel), eq_next (by decide +kernel), by decide +kernel⟩

/-- The control agent inside the audio agent's sequence: refused at both ends of the operand ranges, its own CMD write does not
end the sequence, the audio agent's does. -/
theorem test_witness_BrokenLocksHaveNoMove :
    (Agent.audio ≠ .control ∧ (0x0BC : Nat) % 4 = 0 ∧ (0x040 : Nat) ≤ 0x0BC ∧ (0x0BC : Nat) < 0x0C0) ∧
    (step { peq with argOwner := some .audio, port := [wrCtl .control 0x0BC 7] } = .refused .lockBroken) ∧
    (step { peq with argOwner := some .audio, port := [wrCtl .control 0x014 0] } =
      .next { peq with argOwner := some .audio }) ∧
    step { peq with argOwner := some .audio, port := [wrCtl .audio 0x014 0] } = .next peq :=
  ⟨by decide, step_wrOperand_broken (off := 0x0BC) (s := { peq with argOwner := some .audio }) (ag := .control) (by decide)
    (by decide) (by decide) (by decide) 7 [], eq_next (by decide +kernel),
    eq_next (by decide +kernel)⟩

theorem test_witness_PseudoInstructionsStageTheirOperands :
    (peq.argOwner = none ∧ ({ peq with argOwner := some .audio } : State).argOwner = some .audio) ∧
    (List.replicate 9 (0x3F800000 : Word)).length = 9 ∧ (List.replicate 10 (0 : Word)).length = 10 ∧
      (List.replicate 31 (0 : Word)).length = 31 := by decide

theorem test_witness_NopOnlyReports : (fieldsOf 0x00000001).opc = 0x00 ∧ (0x00000001 : Word) ≠ 0x00000000 := by decide

theorem test_witness_SetEnabledWritesTheFlag :
    (fieldsOf 0x03000002).opc = 0x03 ∧ (fieldsOf 0x03010000).opc = 0x03 := by decide

/-- Two NaN encodings of one sample, and two counts of free values. -/
theorem test_witness_ResetForgetsPlayback :
    sameUpToNan { peq with mem := fill [] 8191 [0x7FC00000], readData := some 0xFFC00000, nanCount := 1 }
      { peq with mem := fill [] 8191 [0xFF800001], readData := some 0x7FC00001, nanCount := 2 } := by
  refine ⟨rfl, fun i => ?_, .inr (by decide)⟩
  by_cases h : i = 8191
  · subst h
    rw [fill, fill, memReadWord_memWriteWord_same, fill, fill, memReadWord_memWriteWord_same]
    exact .inr (by decide)
  · rw [fill, fill, memReadWord_memWriteWord_other h, fill, fill, memReadWord_memWriteWord_other h]
    exact trivial

theorem constantLibm_meets : MeetsR503abc constantLibm :=
  ⟨fun _ => rfl, fun _ _ => (by decide +kernel : sineInRange half64 = true),
    fun _ _ => (by decide +kernel : cosineInRange half64 = true),
    fun _ _ => (by decide +kernel : amplitudeInRange one64 = true)⟩

theorem test_witness_SetFreqStoresTheClampedValue :
    nbands peq.params.kind ≤ (3 : Byte).toNat ∧
    ((9 : Byte).toNat < nbands geq10.params.kind ∧ geq10.params.kind ≠ .parametric) ∧
    ((2 : Byte).toNat < nbands peq.params.kind ∧ peq.params.kind = .parametric ∧ isNan32 0x7F800001 = true) ∧
    (isNan32 0x7F800000 = false ∧ peq.bands[(2 : Byte).toNat]? = some ⟨0x461C4000, 0x00000000, 0x3F34FDF4⟩) := by
  decide +kernel

theorem test_witness_SetGainStoresTheClampedValue :
    nbands geq10.params.kind ≤ (10 : Byte).toNat ∧
    ((9 : Byte).toNat < nbands geq10.params.kind ∧ isNan32 0xFFFFFFFF = true) ∧
    (isNan32 0xFF800000 = false ∧ geq10.bands[(9 : Byte).toNat]? = some ⟨0x467A0000, 0x00000000, 0x3FB504F3⟩) ∧
    MeetsR503abc constantLibm :=
  ⟨by decide +kernel, by decide +kernel, by decide +kernel, constantLibm_meets⟩

theorem test_witness_SetQStoresTheClampedValue :
    nbands peq.params.kind ≤ (255 : Byte).toNat ∧
    ((30 : Byte).toNat < nbands geq31.params.kind ∧ geq31.params.kind ≠ .parametric) ∧
    ((0 : Byte).toNat < nbands peq.params.kind ∧ peq.params.kind = .parametric ∧ isNan32 0xFF800001 = true) ∧
    (isNan32 0x00000000 = false ∧ peq.bands[(0 : Byte).toNat]? = some ⟨0x42C80000, 0x00000000, 0x3F34FDF4⟩) := by
  decide +kernel

theorem test_witness_UpdateParamsStoresThePayload :
    (2 : Byte).toNat ≠ 1 ∧
    ((1 : Byte).toNat = 1 ∧ 8 < 9 ∧ isNan32 (payloadWord { peq with payload := payloadK5.set 8 0x7FC00000 } 8) = true) ∧
    (peq.params.kind = .parametric ∧
      ∀ i : Fin 9, isNan32 (payloadWord { peq with payload := payloadK5.set 9 0x7FC00000 } i.val) = false) ∧
    ((3 : Byte).toNat = 3 ∧ geq31.params.kind = .graphic31 ∧
      ∀ i : Fin 31, isNan32 (payloadWord { geq31 with payload := payloadK5.set 31 0x7FC00000 } i.val) = false) := by
  decide +kernel

theorem test_witness_OnlyParameterCommandsChangeBands :
    (∃ t, step { peq with arg0 := 0x3F800000, port := [wrCtl .control 0x014 0x11020000] } = .next t ∧
      t.bands ≠ peq.bands) ∧
    (∃ t, step { peq with bands := [], port := [.hardwareReset] } = .next t ∧ t.bands ≠ []) := by
  refine ⟨⟨{ peq with arg0 := 0x3F800000, result := 0x1100, bands := peq.bands.modify 2 fun b =>
    { b with gain := 0x3F800000 } }, eq_next (by decide +kernel), by decide⟩, ⟨peq, eq_next (by decide +kernel), by decide⟩⟩

/-- The bounds and their neighbours on both sides. -/
theorem test_witness_ClampsStoreTheNearestAdmittedValue :
    (ratOf32 (ofBits32 0xC1400001) < -12 ∧ ratOf32 (ofBits32 0xC1400000) = -12 ∧ ratOf32 (ofBits32 0x41400000) = 12 ∧
      12 < ratOf32 (ofBits32 0x41400001)) ∧
    (ratOf32 (ofBits32 0x3DCCCCCC) < ratOf32 (ofBits32 0x3DCCCCCD) ∧ ratOf32 (ofBits32 0x41200000) = 10 ∧
      10 < ratOf32 (ofBits32 0x41200001)) ∧
    (ratOf32 (ofBits32 0x411FFFFF) < 10 ∧ ratOf32 (ofBits32 0x48F42400) = 500000 ∧
      500000 < ratOf32 (ofBits32 0x48F42401)) ∧
    ofBits32 0xFF800000 = .inf true ∧ ofBits32 0x7F800000 = .inf false ∧
    ([0xC1400001, 0xC1400000, 0x41400000, 0x41400001, 0x3DCCCCCC, 0x3DCCCCCD, 0x41200000, 0x41200001, 0x411FFFFF,
      0x48F42400, 0x48F42401, 0xFF800000, 0x7F800000] : List Word).all (fun v => !isNan32 v) = true ∧
    ((2 : Byte).toNat < nbands peq.params.kind ∧ peq.params.kind = .parametric ∧
      peq.bands[(2 : Byte).toNat]? = some ⟨0x461C4000, 0x00000000, 0x3F34FDF4⟩) := by
  decide +kernel

theorem test_witness_DisabledProcessIsABypass : ({ peq with enabled := false } : State).enabled = false := rfl

theorem test_witness_ProcessRejectsMalformedCalls :
    peq.enabled = true ∧ (0 : Word).toNat = 0 ∧ 1000000 < (1000001 : Word).toNat ∧
    (1 ≤ (1 : Word).toNat ∧ (1000000 : Word).toNat ≤ 1000000 ∧ (1 : Word).toNat % 2 = 1) ∧
    ((4 : Word).toNat % 2 = 0 ∧ peq.params.sampleMemWords < (8189 : Word).toNat + (4 : Word).toNat) := by decide

theorem test_witness_ProcessFiltersEachLaneInPlace : processAccepted ready ∧ bufferWritten ready :=
  ⟨ready_accepted, ready_written⟩

theorem test_witness_RateChangeClearsTheFilterState :
    processAccepted ready ∧ ready.arg2 ≠ ready.activeRate ∧ ready.activeRate = 0 ∧ ∃ t, exec .process ready = .next t :=
  ⟨ready_accepted, by decide, rfl, process_next ready_accepted ready_written⟩

theorem test_witness_LanesDoNotMix :
    (ready.params = readyOther.params ∧ ready.bands = readyOther.bands ∧ ready.enabled = readyOther.enabled ∧
      ready.activeRate = readyOther.activeRate ∧ ready.arg0 = readyOther.arg0 ∧ ready.arg1 = readyOther.arg1 ∧
      ready.arg2 = readyOther.arg2 ∧ lane ready .left = lane readyOther .left ∧
      (∀ k : Fin 2, inputWord ready .left k.val = inputWord readyOther .left k.val)) ∧
    (ready.params = readyLeft.params ∧ ready.bands = readyLeft.bands ∧ ready.enabled = readyLeft.enabled ∧
      ready.activeRate = readyLeft.activeRate ∧ ready.arg0 = readyLeft.arg0 ∧ ready.arg1 = readyLeft.arg1 ∧
      ready.arg2 = readyLeft.arg2 ∧ lane ready .right = lane readyLeft .right ∧
      (∀ k : Fin 2, inputWord ready .right k.val = inputWord readyLeft .right k.val)) ∧
    countOf ready / 2 = 2 ∧ (∃ t, exec .process ready = .next t) ∧ (∃ t, exec .process readyOther = .next t) ∧
    ∃ t, exec .process readyLeft = .next t :=
  ⟨⟨rfl, rfl, rfl, rfl, rfl, rfl, rfl, rfl, by decide +kernel⟩, ⟨rfl, rfl, rfl, rfl, rfl, rfl, rfl, rfl, by decide +kernel⟩,
    by decide, process_next ready_accepted ready_written, process_next readyOther_accepted readyOther_written,
    process_next readyLeft_accepted readyLeft_written⟩

theorem test_witness_OutputsAreNeitherSubnormalNorNegativeZero :
    Invariant ready ∧ processAccepted ready ∧ ∃ t, exec .process ready = .next t :=
  ⟨ready_invariant, ready_accepted, process_next ready_accepted ready_written⟩

theorem test_witness_NanPoisonsItsLane :
    ([⟨one64, one64, one64, one64, one64⟩] : List Coeffs) ≠ [] ∧ [StageState.zero] ≠ [] ∧ isNan32 0x7FC00000 = true ∧
      laneOutputs [⟨one64, one64, one64, one64, one64⟩] [StageState.zero] [0x7FC00000, 0] = [.nan, .nan] := by
  decide +kernel

theorem test_witness_EveryCommandReportsOpcodeAndCode :
    issueCommand 0x00000000 peq = .next { peq with result := 0 } ∧
      ∃ t, issueCommand 0x01000000 ready = .next t :=
  ⟨eq_next (by decide), process_next ready_accepted ready_written⟩

theorem test_witness_RejectionsOnlyReport :
    issueCommand 0x11030000 peq = .next { peq with result := 0x1102, err := true } ∧ (0x1102 : Word).toNat % 256 ≠ 0 :=
  ⟨eq_next (by decide), by decide⟩

theorem test_witness_OnlyProcessStopsOnUnwrittenWords :
    faultOf (exec .process { peq with arg1 := 2, arg2 := 48000 }) = some .unwrittenRead := by decide +kernel

theorem test_witness_CommandsKeepOperandsAndParameters :
    exec .nop { peq with err := true } = .next { peq with err := true, result := 0 } := rfl

theorem test_witness_OnlyAcceptedProcessWritesSamples :
    (exec .nop ready = .next { ready with result := 0 } ∧ Instr.nop ≠ .process) ∧
    (¬ processAccepted { ready with enabled := false } ∧
      exec .process { ready with enabled := false } = .next { ready with enabled := false, result := 0x100 }) ∧
    (∃ t, exec .process ready = .next t) ∧
    (4 * 8188 - 1 < 4 * baseOf ready ∧ 4 * (baseOf ready + countOf ready) ≤ 4 * 8192) :=
  ⟨⟨rfl, by decide⟩, ⟨fun h => Bool.noConfusion h.1, rfl⟩, process_next ready_accepted ready_written, by decide⟩

theorem test_witness_OnlyResetAndProcessChangeFilterState :
    (exec .nop peq = .next { peq with result := 0 } ∧ Instr.nop ≠ .reset ∧ Instr.nop ≠ .process) ∧
    exec .process { ready with enabled := false } = .next { ready with enabled := false, result := 0x100 } ∧
    (¬ processAccepted peq ∧ exec .process peq = .next { peq with result := 0x106, err := true }) :=
  ⟨⟨rfl, by decide⟩, rfl, fun h => absurd h.2.1 (by decide), eq_next (by decide)⟩

theorem test_witness_FlagRateAndBandFrames :
    (exec (.setEnabled 0) peq = .next { peq with enabled := false, result := 0x300 } ∧ peq.enabled ≠ false) ∧
    (∃ t, exec .process ready = .next t ∧ t.activeRate ≠ ready.activeRate) := by
  refine ⟨⟨rfl, by decide⟩, ?_⟩
  obtain ⟨t, ht⟩ := process_next ready_accepted ready_written
  refine ⟨t, ht, ?_⟩
  rw [exec, execProcess, processWith_of_accepted ready_accepted] at ht
  obtain ⟨u, hu, ht⟩ := andThen_eq_next ht
  rw [complete_eq_next ht, finish_activeRate, (processFrames_frame hu).1, applyRate_activeRate]
  decide

theorem test_witness_ConstructionRejectsBadParameters :
    Params.valid ⟨.parametric, 4096⟩ = true ∧ Params.valid ⟨.graphic10, 2 ^ 30⟩ = true ∧
    Params.valid ⟨.parametric, 4095⟩ = false ∧ Params.valid ⟨.graphic31, 2 ^ 30 + 1⟩ = false := by decide

theorem test_witness_ResetMeetsTheInvariant : construct ⟨.graphic31, 2 ^ 30⟩ = some (State.resetWith ⟨.graphic31, 2 ^ 30⟩) := by
  decide

theorem test_witness_ResetBandFilesHoldTheirTables :
    geq10.params.kind ≠ .parametric ∧
    (∃ t, step { geq10 with arg0 := 0x3F800000, port := [wrCtl .control 0x014 0x11090000] } = .next t ∧
      t.bands ≠ geq10.bands) := by
  refine ⟨by decide, { geq10 with arg0 := 0x3F800000, result := 0x1100, bands := geq10.bands.modify 9 fun b =>
    { b with gain := 0x3F800000 } }, eq_next (by decide +kernel), by decide +kernel⟩

theorem test_witness_EveryStepKeepsTheInvariant :
    Invariant { ready with port := [wrCtl .control 0x014 0x01000000] } ∧
      ∃ t, step { ready with port := [wrCtl .control 0x014 0x01000000] } = .next t := by
  obtain ⟨h1, h2, h3, h4, h5, h6, h7, h8, h9, h10⟩ := ready_invariant
  refine ⟨⟨h1, h2, h3, h4, h5, h6, h7, h8, h9, h10⟩, ?_⟩
  rw [step_wrCmd]
  exact process_next ready_accepted ready_written

theorem test_witness_ConstructionParametersNeverChange :
    step { peq with port := [.hardwareReset] } = .next peq := eq_next (by decide)

/-- A tie: 2^53 + 1 lies midway between 2^53 and 2^53 + 2. The overflow threshold: the greatest finite value and 2^970 make
it, the greatest finite value and the number below 2^970 do not. -/
theorem test_witness_OperationsAreCorrectlyRounded :
    isFinite64 (ofBits64 0x4340000000000000) = true ∧ isFinite64 one64 = true ∧ isFinite64 (ofBits64 0x4340000000000001) = true ∧
    add64 (ofBits64 0x4340000000000000) one64 = ofBits64 0x4340000000000000 ∧
    ratOf (ofBits64 0x4340000000000000) = 2 ^ 53 ∧ ratOf one64 = 1 ∧ ratOf (ofBits64 0x4340000000000001) = 2 ^ 53 + 2 ∧
    ratOf (ofBits64 0x7FEFFFFFFFFFFFFF) + ratOf (ofBits64 0x7C90000000000000) = 2 ^ 1024 - 2 ^ 970 ∧
    add64 (ofBits64 0x7FEFFFFFFFFFFFFF) (ofBits64 0x7C90000000000000) = .inf false ∧
    add64 (ofBits64 0x7FEFFFFFFFFFFFFF) (ofBits64 0x7C8FFFFFFFFFFFFF) = ofBits64 0x7FEFFFFFFFFFFFFF ∧
    sub64 (ofBits64 0xFFEFFFFFFFFFFFFF) (ofBits64 0x7C90000000000000) = .inf true := by
  decide +kernel

/-- The ends of the frequency range and of the rates; 21600 Hz at 48000 is the limit itself. -/
theorem test_witness_EffectiveFrequencyStaysBelowNyquist :
    wordInRange fMin fMax 0x41200000 = true ∧ wordInRange fMin fMax 0x48F42400 = true ∧
    lt64 (widen (ofBits32 0x41200000)) (mul64 nyqFrac (ofNat64 1000000)) = true ∧
    lt64 (widen (ofBits32 0x41200000)) (mul64 nyqFrac (ofNat64 1)) = false ∧
    eq64 (widen (ofBits32 0x46A8C000)) (mul64 nyqFrac (ofNat64 48000)) = true ∧
    ∃ t, exec .process ready = .next t :=
  ⟨by decide +kernel, by decide +kernel, by decide +kernel, by decide +kernel, by decide +kernel,
    process_next ready_accepted ready_written⟩

theorem test_witness_AngleStaysInTheDesignDomain :
    wordInRange fMin fMax 0x48F42400 = true ∧
    angularFreq (effectiveFreq 0x48F42400 (ofNat64 1)) (ofNat64 1) = ofBits64 0x40069E9565708EFC ∧
    angleInDomain (ofBits64 0x40069E9565708EFC) = true := by decide +kernel

theorem test_witness_MachineFunctionsMeetR503 : MeetsR503 referenceLibm := referenceLibm_meets

theorem test_witness_DesignDivisorIsPositive :
    MeetsR503abc constantLibm ∧ bandInRange ⟨0x41200000, 0xC1400000, 0x3DCCCCCD⟩ = true ∧
      bandInRange ⟨0x48F42400, 0x41400000, 0x41200000⟩ = true :=
  ⟨constantLibm_meets, by decide +kernel, by decide +kernel⟩

theorem test_witness_UnityBandsDesignToUnity :
    MeetsR503abc constantLibm ∧ bandInRange ⟨0x41200000, 0x00000000, 0x41200000⟩ = true ∧
      bandInRange ⟨0x48F42400, 0x80000000, 0x3DCCCCCD⟩ = true :=
  ⟨constantLibm_meets, by decide +kernel, by decide +kernel⟩

/-- 1.0, -0.0, and the least binary32 not below FLUSH_T. -/
theorem test_witness_UnityStagePassesAnImpulse :
    ofBits64 0x3FF0000000000000 = one64 ∧ eq64 (zero64 true) (zero64 false) = true ∧ eq64 two64 two64 = true ∧
    lt64 (abs64 minusTwo64) (ofNat64 1000) = true ∧
    ([0x3F800000, 0x80000000, 0x26901D7D] : List Word).all (fun w => isFinite64 (widen (ofBits32 w)) &&
      eq64 (flush (widen (ofBits32 w))) (widen (ofBits32 w))) = true := by decide +kernel

theorem test_witness_ShelvesIgnoreQ : BandType.lowShelf ≠ .peaking ∧ BandType.highShelf ≠ .peaking := by decide

/-- Just below FLUSH_T and FLUSH_T itself. -/
theorem test_witness_FlushZeroesSmallOutputs :
    isFinite64 (ofBits64 0xBCD203AF9EE75615) = true ∧ lt64 (abs64 (ofBits64 0xBCD203AF9EE75615)) flushT = true ∧
      lt64 (abs64 flushT) flushT = false := by decide +kernel

end Sys2Proof.Tests
end

/-! The control registers as the host sees them, the reset band files, and what a graphic kind fixes (spec 10_state R103, R104,
R110–R112, R118–R124): rules for a read and for an ignored write by what the offset names, the bits of STATUS, the centre
frequencies as exact halves, and the part of the band file that every step but hardware reset keeps. -/

namespace Sys2Proof.Machine

open Sys2Proof.Safety

/-! ### Control registers as the host reads and writes them (10_state R103, R104, R118, R119) -/

/-- The registers on which a write has no effect: the read-only ones and the reserved offsets (R104, R119). -/
def ignoresWrites : CtlReg → Bool
  | .id | .info | .result | .activeRate | .bandFreq _ | .bandGain _ | .bandQ _ | .bandType _ | .reserved => true
  | .status | .cmd | .arg0 | .arg1 | .arg2 | .payload _ => false

@[simp] theorem ctlRead_setPort (s : State) (p : List HostEvent) (r : CtlReg) :
    ctlRead { s with port := p } r = ctlRead s r := by
  cases r <;> rfl

/-- A read of a register's offset answers the register and changes nothing else (R209). -/
theorem step_rdCtl_of_ctlReg {off : Nat} {r : CtlReg} (hr : ctlReg off = r) (h4 : off % 4 = 0) (h : off < 0x400)
    (s : State) (ag : Agent) (rest : List HostEvent) :
    step { s with port := rdCtl ag off :: rest } = .next { s with port := rest, readData := some (ctlRead s r) } := by
  rw [step_rdCtl h4 h, hr, ctlRead_setPort]

theorem ctlStore_of_ignoresWrites {r : CtlReg} (h : ignoresWrites r = true) (w : Word) (s : State) :
    ctlStore r w s = s := by
  cases r with
  | status | cmd | arg0 | arg1 | arg2 | payload i => cases h
  | _ => rfl

/-- A write to a read-only register or a reserved offset is ignored, whoever holds the lock (R104, R730). -/
theorem step_wrCtl_of_ignoresWrites {off : Nat} (hr : ignoresWrites (ctlReg off) = true) (h4 : off % 4 = 0)
    (h : off < 0x400) (s : State) (ag : Agent) (w : Word) (rest : List HostEvent) :
    step { s with port := wrCtl ag off w :: rest } = .next { s with port := rest } := by
  have hc : ctlReg off ≠ .cmd := fun e => by rw [e] at hr; cases hr
  have ho : isOperand (ctlReg off) = false := by
    generalize ctlReg off = r at hr
    cases r with
    | status | cmd | arg0 | arg1 | arg2 | payload i => cases hr
    | _ => rfl
  rw [step_wrCtl h4 h hc ho, ctlStore_of_ignoresWrites hr]

/-- A STATUS write clears ERR by bit 1 of its word and changes nothing else (R112). -/
theorem step_wrStatus (s : State) (ag : Agent) (w : Word) (rest : List HostEvent) :
    step { s with port := wrCtl ag 0x008 w :: rest } =
      .next { s with port := rest, err := if w.getLsbD 1 then false else s.err } :=
  step_wrCtl (by decide) (by decide) (by decide) (by decide) s ag w rest

/-- The four words of band `b`'s block are its four registers (R103). -/
theorem ctlReg_bandBlock {b j : Nat} (hb : b < 32) (hj : j < 4) :
    ctlReg (0x100 + 16 * b + 4 * j) = .bandFreq ⟨b, hb⟩ ∨ ctlReg (0x100 + 16 * b + 4 * j) = .bandGain ⟨b, hb⟩ ∨
      ctlReg (0x100 + 16 * b + 4 * j) = .bandQ ⟨b, hb⟩ ∨ ctlReg (0x100 + 16 * b + 4 * j) = .bandType ⟨b, hb⟩ := by
  obtain ⟨hf, hg, hq, ht⟩ := ctlReg_band ⟨b, hb⟩
  obtain rfl | rfl | rfl | rfl : j = 0 ∨ j = 1 ∨ j = 2 ∨ j = 3 := by omega
  · exact .inl hf
  · exact .inr (.inl ((congrArg ctlReg (by simp only; omega)).trans hg))
  · exact .inr (.inr (.inl ((congrArg ctlReg (by simp only; omega)).trans hq)))
  · exact .inr (.inr (.inr ((congrArg ctlReg (by simp only; omega)).trans ht)))

theorem ignoresWrites_bandBlock {b j : Nat} (hb : b < 32) (hj : j < 4) :
    ignoresWrites (ctlReg (0x100 + 16 * b + 4 * j)) = true := by
  rcases ctlReg_bandBlock hb hj with h | h | h | h <;> rw [h] <;> rfl

/-- R104's read-only and reserved offsets: everything but STATUS, CMD and the operand registers. -/
theorem ignoresWrites_ctlReg {off : Nat} (h4 : off % 4 = 0) (h : off < 0x400)
    (hoff : off = 0x000 ∨ off = 0x004 ∨ off = 0x00C ∨ off = 0x010 ∨ (0x024 ≤ off ∧ off < 0x040) ∨ 0x0C0 ≤ off) :
    ignoresWrites (ctlReg off) = true := by
  by_cases hband : 0x100 ≤ off ∧ off < 0x300
  · have e : off = 0x100 + 16 * ((off - 0x100) / 16) + 4 * (off % 16 / 4) := by omega
    rw [e]
    exact ignoresWrites_bandBlock (by omega) (by omega)
  · rcases hoff with rfl | rfl | rfl | rfl | hres
    · rfl
    · rfl
    · rfl
    · rfl
    · rw [ctlReg_reserved h4 (by omega)]; rfl

/-! ### The band registers (10_state R118, R119, R121) -/

theorem bandField_of_exists {s : State} {b : Nat} {band : Band} (h : b < nbands s.params.kind)
    (hb : s.bands[b]? = some band) (f : Band → Word) : bandField s b f = f band := by
  simp [bandField, h, hb]

theorem bandField_of_absent {s : State} {b : Nat} (h : nbands s.params.kind ≤ b) (f : Band → Word) :
    bandField s b f = 0 :=
  if_neg (Nat.not_lt.mpr h)

/-- The TYPE codes of the existing bands (R121). -/
theorem bandTypeCode_bandType {k : EqKind} {b : Nat} (h : b < nbands k) :
    bandTypeCode (bandType k b) = if k = .parametric then (if b = 0 then 1 else if b = 1 then 0 else 2) else 0 := by
  cases k with
  | parametric => revert b; decide
  | graphic10 => rfl
  | graphic31 => rfl

/-- All four registers of a band that does not exist read 0 (R119). -/
theorem ctlRead_bandBlock_of_absent {s : State} {b j : Nat} (hb : b < 32) (hj : j < 4)
    (h : nbands s.params.kind ≤ b) : ctlRead s (ctlReg (0x100 + 16 * b + 4 * j)) = 0 := by
  rcases ctlReg_bandBlock hb hj with e | e | e | e
  · rw [e, ctlRead, bandField_of_absent h]
  · rw [e, ctlRead, bandField_of_absent h]
  · rw [e, ctlRead, bandField_of_absent h]
  · rw [e, ctlRead, if_neg (Nat.not_lt.mpr h)]

/-! ### STATUS (10_state R112) -/

/-- Three flags packed in bits 0, 1 and 2 are those bits. -/
theorem testBit_flags (a b c : Bool) :
    (bit a + 2 * bit b + 4 * bit c).testBit 0 = a ∧ (bit a + 2 * bit b + 4 * bit c).testBit 1 = b ∧
      (bit a + 2 * bit b + 4 * bit c).testBit 2 = c := by
  revert a b c; decide

theorem flags_lt (a b c : Bool) : bit a + 2 * bit b + 4 * bit c < 2 ^ 3 := by
  revert a b c; decide

theorem statusWord_bits (s : State) :
    (statusWord s).getLsbD 0 = s.enabled ∧ (statusWord s).getLsbD 1 = s.err ∧
      (statusWord s).getLsbD 2 = rateSet s := by
  obtain ⟨h0, h1, h2⟩ := testBit_flags s.enabled s.err (rateSet s)
  simp only [statusWord, BitVec.getLsbD_ofNat, h0, h1, h2]
  exact ⟨rfl, rfl, rfl⟩

theorem statusWord_high_bits (s : State) {k : Nat} (hk : 3 ≤ k) : (statusWord s).getLsbD k = false := by
  have hlt := Nat.lt_of_lt_of_le (flags_lt s.enabled s.err (rateSet s)) (Nat.pow_le_pow_right (by decide) hk)
  rw [statusWord, BitVec.getLsbD_ofNat, Nat.testBit_lt_two_pow hlt, Bool.and_false]

/-! ### The centre frequencies (10_state R123, R124) -/

/-- A half-integer below 2^23 is a binary32 magnitude. -/
theorem magVal32_half {n : Nat} (hn : n < 2 ^ 24) :
    ∃ z, z < 0x7F800000 ∧ magVal fmt32 z = (n : ℝ) * 2 ^ (-1 : ℤ) := by
  by_cases h0 : n = 0
  · exact ⟨0, by norm_num, by rw [magVal_zero, h0]; simp⟩
  · have hlog1 : 2 ^ Nat.log2 n ≤ n := Nat.log2_self_le h0
    have hlog2 : n < 2 ^ (Nat.log2 n + 1) := Nat.lt_log2_self
    generalize Nat.log2 n = L at hlog1 hlog2
    have hL : L < 24 := (Nat.pow_lt_pow_iff_right (by norm_num)).mp (hlog1.trans_lt hn)
    -- `n` shifted up to a full significand of 24 bits
    have hm1 : 2 ^ fmt32.fracBits ≤ n * 2 ^ (23 - L) :=
      calc 2 ^ 23 = 2 ^ L * 2 ^ (23 - L) := by rw [← pow_add]; congr 1; omega
        _ ≤ n * 2 ^ (23 - L) := Nat.mul_le_mul_right _ hlog1
    have hm2 : n * 2 ^ (23 - L) < 2 ^ (fmt32.fracBits + 1) :=
      calc n * 2 ^ (23 - L) < 2 ^ (L + 1) * 2 ^ (23 - L) := Nat.mul_lt_mul_of_pos_right hlog2 (Nat.two_pow_pos _)
        _ = 2 ^ 24 := by rw [← pow_add]; congr 1; omega
    refine ⟨(L + 125) * 2 ^ fmt32.fracBits + n * 2 ^ (23 - L), ?_, ?_⟩
    · simp only [fmt32] at hm2 ⊢; omega
    · have e : n * 2 ^ (23 - L) * 2 ^ (L + 125) = n * 2 ^ 148 := by
        rw [mul_assoc, ← pow_add]; congr 2; omega
      rw [magVal, magUnits_binade fmt32 (.inr hm1) hm2.le, e]
      norm_num [fmt32]
      ring

/-- The pattern `halves n` is exactly `n / 2`. -/
theorem ratOf32_halves {n : Nat} (hn : n < 2 ^ 24) : ratOf32 (ofBits32 (halves n)) = (n : ℚ) / 2 := by
  obtain ⟨z, hz, hv⟩ := magVal32_half hn
  have e : ofBits32 (halves n) = .fin false ⟨z, hz⟩ := by
    rw [halves, roundMag_exact (by decide) hv.symm, ofMag32, dif_pos hz, toBits32, ofBits32_signedBits32 (by omega),
      dif_pos hz]
  have hr := ratOf32_fin false ⟨z, hz⟩
  rw [if_neg (by decide), hv] at hr
  rw [e, ← Rat.cast_inj (α := ℝ), hr]
  push_cast
  ring

/-- A graphic band file's frequencies in hertz are its list of half hertz, halved. -/
theorem graphicBands_freqs {l : List Nat} (hl : ∀ n ∈ l, n < 2 ^ 24) (gain q : Word) :
    (l.map fun n => (⟨halves n, gain, q⟩ : Band)).map (fun b => ratOf32 (ofBits32 b.freq)) =
      l.map fun n : Nat => (n : ℚ) / 2 := by
  rw [List.map_map]
  exact List.map_congr_left fun n hn => ratOf32_halves (hl n hn)

theorem graphicBands_gain_q {l : List Nat} {f : Nat → Word} {gain q : Word} {b : Band}
    (hb : b ∈ l.map fun n => (⟨f n, gain, q⟩ : Band)) : b.gain = gain ∧ b.q = q := by
  obtain ⟨n, -, rfl⟩ := List.mem_map.mp hb
  exact ⟨rfl, rfl⟩

/-! ### What a graphic kind fixes (10_state R123, R124) -/

/-- Changing one element in a way that a view does not show leaves the view of the list alone. -/
theorem map_modify_of_view_kept {α β : Type} {g : α → β} {f : α → α} (h : ∀ a, g (f a) = g a) (l : List α) (i : Nat) :
    (l.modify i f).map g = l.map g := by
  refine List.ext_getElem? fun j => ?_
  rw [List.getElem?_map, List.getElem?_modify, List.getElem?_map]
  split
  · cases l[j]? <;> simp [h]
  · simp

@[simp] theorem ctlStore_bands (r : CtlReg) (w : Word) (s : State) : (ctlStore r w s).bands = s.bands := by
  cases r <;> rfl

theorem updatedBands_fixedPart {s : State} (hk : s.params.kind ≠ .parametric) :
    (updatedBands s).map fixedPart = s.bands.map fixedPart := by
  have e : updatedBands s = s.bands.mapIdx fun b band => { band with gain := clampGain (payloadWord s b) } := by
    cases h : s.params.kind with
    | parametric => exact absurd h hk
    | graphic10 => simp only [updatedBands, h]
    | graphic31 => simp only [updatedBands, h]
  rw [e]
  refine List.ext_getElem? fun j => ?_
  simp only [List.getElem?_map, List.getElem?_mapIdx, Option.map_map]
  rfl

theorem commandEffect_fixedPart {i : Instr} {s u : State} (hk : s.params.kind ≠ .parametric)
    (h : commandEffect i s u) : u.bands.map fixedPart = s.bands.map fixedPart := by
  cases i with
  | nop => rw [show u = s from h]
  | reset => rw [show u = clearFilter s from h, clearFilter_bands]
  | setEnabled en => obtain ⟨-, hu⟩ := h; rw [hu]
  | setFreq b => obtain ⟨-, hp, -⟩ := h; exact absurd hp hk
  | setGain b =>
    obtain ⟨-, -, hu⟩ := h
    rw [hu, updateBand_bands]
    exact map_modify_of_view_kept (fun _ => by rfl) _ _
  | setQ b => obtain ⟨-, hp, -⟩ := h; exact absurd hp hk
  | updateParams tag =>
    obtain ⟨-, -, hu⟩ := h
    rw [hu]
    exact updatedBands_fixedPart hk
  | process =>
    rcases h with ⟨-, rfl⟩ | ⟨-, hw⟩
    · rfl
    · rw [(processFrames_frame hw).1, applyRate_bands]

/-- No command word changes a frequency or a Q of a graphic kind. -/
theorem issueCommand_fixedPart {w : Word} {s t : State} (hk : s.params.kind ≠ .parametric)
    (h : issueCommand w s = .next t) : t.bands.map fixedPart = s.bands.map fixedPart := by
  rcases issueCommand_eq_next h with ⟨r, -, rfl⟩ | ⟨i, -, hi⟩
  · rfl
  · rcases exec_eq_next hi with ⟨code, -, rfl⟩ | ⟨u, hu, rfl⟩
    · rfl
    · exact commandEffect_fixedPart (u := u) hk hu

/-- No step but hardware reset changes a frequency or a Q of a graphic kind (R123, R124). -/
theorem step_fixedPart {s t : State} (hk : s.params.kind ≠ .parametric) (h : step s = .next t)
    (hr : s.port.head? ≠ some .hardwareReset) : t.bands.map fixedPart = s.bands.map fixedPart := by
  cases step_eq_next h with
  | idle empty eq => rw [eq]
  | hardwareReset rest event eq => exact absurd (by rw [event]; rfl) hr
  | read rest a isRead event eq => rw [eq]
  | store rest ag off w aligned inside notCmd notOperand event eq => rw [eq, ctlStore_bands]
  | operand rest ag off w aligned inside isOperand owner event eq => rw [eq, ctlStore_bands]
  | issue rest ag w event eq => exact issueCommand_fixedPart (s := { s with port := rest, argOwner := _ }) hk eq
  | sample rest ag i w inside event eq => rw [eq]

theorem map_freq_q_of_fixedPart {l m : List Band} (h : l.map fixedPart = m.map fixedPart) :
    l.map Band.freq = m.map Band.freq ∧ l.map Band.q = m.map Band.q := by
  have hf := congrArg (List.map Prod.fst) h
  have hq := congrArg (List.map Prod.snd) h
  simp only [List.map_map] at hf hq
  exact ⟨hf, hq⟩

/-! ### The statements about the registers -/

/-- Settles O16: the read shows the bits of `statusWord`, the write is STATUS's own store. -/
theorem statusShowsTheFlags : Obligations.StatusShowsTheFlags := by
  unfold Obligations.StatusShowsTheFlags
  refine ⟨fun s ag rest => ?_, fun s ag rest w => step_wrStatus s ag w rest, fun p => ⟨rfl, rfl, rfl⟩⟩
  obtain ⟨h0, h1, h2⟩ := statusWord_bits s
  exact ⟨statusWord s, step_rdCtl_of_ctlReg (r := .status) rfl (by decide) (by decide) s ag rest, h0, h1,
    by rw [h2, rateSet, decide_eq_true_eq], fun k hk => statusWord_high_bits s hk⟩

/-- Settles O18, by what each offset names. -/
theorem reservedAndReadOnlyOffsetsIgnoreWrites : Obligations.ReservedAndReadOnlyOffsetsIgnoreWrites := by
  unfold Obligations.ReservedAndReadOnlyOffsetsIgnoreWrites
  intro s ag rest off h4 h
  refine ⟨fun w hoff => ?_, fun hres => ?_, ?_⟩
  · exact step_wrCtl_of_ignoresWrites (ignoresWrites_ctlReg h4 h hoff) h4 h s ag w rest
  · exact step_rdCtl_of_ctlReg (ctlReg_reserved h4 hres) h4 h s ag rest
  · rintro w rfl
    exact step_wrStatus s ag w rest

/-- Settles O19, by the four registers of a band's block. -/
theorem bandRegistersReadTheBandFile : Obligations.BandRegistersReadTheBandFile := by
  unfold Obligations.BandRegistersReadTheBandFile
  intro s ag rest b hb
  refine ⟨fun band hn hband => ?_, fun j hj hn => ?_, fun j w hj => ?_⟩
  · obtain ⟨hf, hg, hq, ht⟩ := ctlReg_band ⟨b, hb⟩
    refine ⟨?_, ?_, ?_, ?_⟩
    · rw [step_rdCtl_of_ctlReg hf (by omega) (by omega), ctlRead, bandField_of_exists hn hband]
    · rw [step_rdCtl_of_ctlReg hg (by omega) (by omega), ctlRead, bandField_of_exists hn hband]
    · rw [step_rdCtl_of_ctlReg hq (by omega) (by omega), ctlRead, bandField_of_exists hn hband]
    · rw [step_rdCtl_of_ctlReg ht (by omega) (by omega), ctlRead, if_pos hn, bandTypeCode_bandType hn]
  · rw [step_rdCtl_of_ctlReg rfl (by omega) (by omega), ctlRead_bandBlock_of_absent hb hj hn]
  · exact step_wrCtl_of_ignoresWrites (ignoresWrites_bandBlock hb hj) (by omega) (by omega) s ag w rest

/-- Settles O46: the tables are lists of exact halves, and a graphic kind's fixed part is kept by every step but hardware
reset. -/
theorem resetBandFilesHoldTheirTables : Obligations.ResetBandFilesHoldTheirTables := by
  unfold Obligations.ResetBandFilesHoldTheirTables
  refine ⟨fun n => rfl, ⟨rfl, rfl, rfl⟩, fun n => ⟨?_, fun b => graphicBands_gain_q⟩,
    fun n => ⟨?_, fun b => graphicBands_gain_q⟩, fun s t hk h hr => map_freq_q_of_fixedPart (step_fixedPart hk h hr)⟩
  · refine (graphicBands_freqs (l := octaveHalfHz) (by decide) _ _).trans ?_
    norm_num [octaveHalfHz]
  · refine (graphicBands_freqs (l := thirdOctaveHalfHz) (by decide) _ _).trans ?_
    norm_num [thirdOctaveHalfHz]

/-- Settles O15, by kind. -/
theorem idAndInfoReadTheirConstants : Obligations.IdAndInfoReadTheirConstants := by
  unfold Obligations.IdAndInfoReadTheirConstants
  intro s ag rest
  refine ⟨step_rdCtl_of_ctlReg (r := .id) rfl (by decide) (by decide) s ag rest, ?_⟩
  rw [step_rdCtl_of_ctlReg (r := .info) rfl (by decide) (by decide), ctlRead]
  cases s.params.kind with
  | parametric => rfl
  | graphic10 => rfl
  | graphic31 => rfl

end Sys2Proof.Machine

/-! The port's admission rule and sample memory as the host and PROCESS see it (spec 20_memory R204, R206, R207): the one fault
a command can raise and when, the one fault an admitted access can raise, and reads of written and unwritten sample words. -/

namespace Sys2Proof.Machine

open Sys2Proof.Safety

/-! ### What a command can fault on (20_memory R207, 60_exceptions R710, R711) -/

/-- Every command but PROCESS completes, whatever the state. -/
theorem exec_completes {i : Instr} (hi : i ≠ .process) (s : State) : ∃ t, exec i s = .next t := by
  cases i with
  | process => exact absurd rfl hi
  | nop => exact ⟨_, rfl⟩
  | reset => exact ⟨_, rfl⟩
  | setEnabled en => simp only [exec, execSetEnabled, complete]; split_ifs <;> exact ⟨_, rfl⟩
  | setFreq b => simp only [exec, execSetFreq, complete]; split_ifs <;> exact ⟨_, rfl⟩
  | setGain b => simp only [exec, execSetGain, complete]; split_ifs <;> exact ⟨_, rfl⟩
  | setQ b => simp only [exec, execSetQ, complete]; split_ifs <;> exact ⟨_, rfl⟩
  | updateParams tag => simp only [exec, execUpdateParams, complete]; split_ifs <;> exact ⟨_, rfl⟩

/-- The walk of an accepted PROCESS faults where its buffer holds an unwritten word (R207). -/
theorem processWalk_faults {s : State} (h : processAccepted s) (hb : ¬ bufferWritten s) (lm : Libm) :
    processWalk lm s = .fault .unwrittenRead := by
  have heven := two_mul_half h.2.2.2.1
  unfold bufferWritten at hb
  push Not at hb
  obtain ⟨j, hlo, hhi, hj⟩ := hb
  exact processFrames_faults _ _ _ _ ⟨j, hlo, by omega, fun hw => hj ((written_applyRate s j).mp hw)⟩

theorem exec_process_faults {s : State} (h : processAccepted s) (hb : ¬ bufferWritten s) :
    exec .process s = .fault .unwrittenRead := by
  rw [exec, execProcess, processWith_of_accepted h, processWalk_faults h hb, andThen_fault]

/-- PROCESS completes unless it is accepted over a buffer with an unwritten word. -/
theorem exec_process_completes {s : State} (h : processAccepted s → bufferWritten s) :
    ∃ t, exec .process s = .next t := by
  rw [exec, execProcess]
  by_cases ha : processAccepted s
  · obtain ⟨u, hu⟩ := processWalk_completes ha (h ha) libm
    exact ⟨_, by rw [processWith_of_accepted ha, hu, andThen_next, complete]⟩
  · cases he : s.enabled with
    | false => exact ⟨_, processWith_of_disabled he libm⟩
    | true =>
      exact ⟨_, processWith_of_rejected he (fun hc => ha ((processAccepted_iff s).mpr ⟨he, hc⟩)) libm⟩

/-- The one fault of a command: UNWRITTEN_READ of an accepted PROCESS over a buffer with an unwritten word. -/
theorem exec_eq_fault {i : Instr} {s : State} {f : Fault} (h : exec i s = .fault f) :
    i = .process ∧ f = .unwrittenRead ∧ processAccepted s ∧ ¬ bufferWritten s := by
  by_cases hi : i = .process
  · subst hi
    by_cases hp : processAccepted s → bufferWritten s
    · obtain ⟨t, ht⟩ := exec_process_completes hp
      rw [ht] at h; cases h
    · rw [Classical.not_imp] at hp
      obtain ⟨ha, hb⟩ := hp
      rw [exec_process_faults ha hb] at h
      injection h with h
      exact ⟨rfl, h.symm, ha, hb⟩
  · obtain ⟨t, ht⟩ := exec_completes hi s
    rw [ht] at h; cases h

/-! ### What an admitted access can fault on (20_memory R204, R207) -/

theorem admitted_iff (a : Access) (s : State) :
    admitted a s = true ↔ a.size = .word ∧ a.offset % 4 = 0 ∧ a.offset < spaceBytes s a.space :=
  decide_eq_true_iff

theorem issueCommand_eq_fault {w : Word} {s : State} {f : Fault} (h : issueCommand w s = .fault f) :
    f = .unwrittenRead := by
  unfold issueCommand at h
  split at h
  · exact (exec_eq_fault h).2.1
  · cases h

theorem hostRead_eq_fault {sp : Space} {off : Nat} {s : State} {f : Fault} (h : hostRead sp off s = .fault f) :
    f = .unwrittenRead := by
  cases sp with
  | control => cases h
  | sample =>
    simp only [hostRead] at h
    split at h
    · cases h
    · injection h with h; exact h.symm

theorem hostWrite_eq_fault {sp : Space} {off : Nat} {w : Word} {s : State} {f : Fault}
    (h : hostWrite sp off w s = .fault f) : f = .unwrittenRead := by
  cases sp with
  | control =>
    simp only [hostWrite] at h
    split at h
    · exact issueCommand_eq_fault h
    · cases h
  | sample => cases h

/-- An admitted access faults on nothing but an unwritten word, read by the host or by the PROCESS it starts. -/
theorem step_eq_fault_of_admitted {a : Access} {s : State} {rest : List HostEvent} {f : Fault}
    (ha : admitted a { s with port := rest } = true) (h : step { s with port := .access a :: rest } = .fault f) :
    f = .unwrittenRead := by
  cases hl : breaksLock a s.argOwner with
  | true => rw [step_of_breaksLock ha hl] at h; cases h
  | false =>
    rw [step_of_admitted ha hl] at h
    split at h
    · exact hostRead_eq_fault h
    · exact hostWrite_eq_fault h

/-! ### Reads of sample words (20_memory R206, R207) -/

theorem memReadWord_reset (p : Params) (i : Nat) : memReadWord (State.resetWith p).mem i = none := rfl

theorem step_rdSmp_of_written {s : State} {i : Nat} {v : Word} (hi : i < s.params.sampleMemWords)
    (h : memReadWord s.mem i = some v) (ag : Agent) (rest : List HostEvent) :
    step { s with port := rdSmp ag i :: rest } = .next { s with port := rest, readData := some v } := by
  rw [step_rdSmp hi, h]

theorem step_rdSmp_of_unwritten {s : State} {i : Nat} (hi : i < s.params.sampleMemWords)
    (h : memReadWord s.mem i = none) (ag : Agent) (rest : List HostEvent) :
    step { s with port := rdSmp ag i :: rest } = .fault .unwrittenRead := by
  rw [step_rdSmp hi, h]

theorem not_bufferWritten_of_unwritten {s : State} {i : Nat} (hlo : baseOf s ≤ i) (hhi : i < baseOf s + countOf s)
    (h : memReadWord s.mem i = none) : ¬ bufferWritten s := fun hb => by
  have hw := hb i hlo hhi
  rw [written, h] at hw
  cases hw

/-- A sample step writes one word, at its own index (R516). -/
theorem sampleStep_mem {cs : List Coeffs} {c : Channel} {i : Nat} {s t : State} (h : sampleStep cs c i s = .next t) :
    ∃ w, t.mem = memWriteWord s.mem i w := by
  obtain ⟨w, -, rfl⟩ := sampleStep_eq_next h
  exact ⟨_, by rw [writeSample_mem, setLane_mem]⟩

/-! ### The statements about the port and sample memory -/

/-- Settles O8: what is not admitted faults, what is faults on unwritten words alone, and the offsets listed are CMD's,
which reads 0, and the reserved ones. -/
theorem onlyAlignedWordsInsideAreAdmitted : Obligations.OnlyAlignedWordsInsideAreAdmitted := by
  unfold Obligations.OnlyAlignedWordsInsideAreAdmitted
  intro s a rest inside
  have hadm : admitted a { s with port := rest } = true ↔ inside := by
    rw [admitted_iff]
    cases h : a.space <;> simp only [inside, h, spaceBytes, ctlBytes]
  refine ⟨fun hout => ?_, fun hin hf => ?_, fun hin hsp hop hoff => ?_⟩
  · exact step_of_not_admitted (Bool.eq_false_iff.mpr fun ha => hout (hadm.mp ha))
  · cases step_eq_fault_of_admitted (hadm.mpr hin) hf
  · obtain ⟨ag, sp, off, size, op⟩ := a
    obtain ⟨rfl, h4, h⟩ := hin
    cases hsp
    cases hop
    rcases hoff with rfl | hres
    · exact step_rdCtl_of_ctlReg (r := .cmd) rfl h4 h s ag rest
    · exact step_rdCtl_of_ctlReg (ctlReg_reserved h4 hres) h4 h s ag rest

/-- Settles O9: memory is empty at reset, and both readers stop at a word without a value. -/
theorem unwrittenWordsFault : Obligations.UnwrittenWordsFault := by
  unfold Obligations.UnwrittenWordsFault
  refine ⟨memReadWord_reset, fun s ag rest i hi h => step_rdSmp_of_unwritten hi h ag rest, ?_⟩
  rintro s ha ⟨i, hlo, hhi, h⟩
  exact exec_process_faults ha (not_bufferWritten_of_unwritten hlo hhi h)

/-- Settles O10, by the rules for a sample word's read and write. -/
theorem sampleMemoryReadsBackWrites : Obligations.SampleMemoryReadsBackWrites := by
  unfold Obligations.SampleMemoryReadsBackWrites
  refine ⟨fun s ag rest i w hi => ⟨?_, ?_, ?_⟩, fun m i w => ⟨?_, fun a ha => ?_⟩, fun cs c s i => ⟨?_, fun t ht => ?_⟩⟩
  · exact ⟨_, step_wrSmp hi ag w rest, rfl, memReadWord_memWriteWord_same s.mem i w,
      fun j hj => memReadWord_memWriteWord_other hj s.mem w⟩
  · exact fun v h => step_rdSmp_of_written hi h ag rest
  · exact fun h => step_rdSmp_of_unwritten hi h ag rest
  · exact memReadWord_memWriteWord_same m i w
  · exact memGet_memWriteWord_other ha
  · exact sampleStep_of_unwritten
  · exact sampleStep_mem ht

end Sys2Proof.Machine

/-! Decoding, the pattern table and the illegal words (spec 30_encoding R302, R304–R307): a word decodes to a command exactly
when it is the encoding of that command, a row of R305 is read byte by byte, and what CMD answers follows from the decoded
word. -/

namespace Sys2Proof

/-! ### Which words decode to a command (30_encoding R302, R306) -/

theorem eq_of_plain_eq_command {f : Fields} {o : Byte} {i j : Instr} (hr : ¬f.rsv ≠ 0) (ho : f.opc = o)
    (h : decodeFields.plain f i = .command j) : i = j ∧ f = ⟨o, 0, 0, 0⟩ := by
  obtain ⟨opc, band, rsv, imm8⟩ := f
  unfold decodeFields.plain at h
  split_ifs at h with hb hi
  cases not_not.mp hr; cases ho; cases not_not.mp hb; cases not_not.mp hi
  exact ⟨Decoded.command.inj h, rfl⟩

theorem eq_of_banded_eq_command {f : Fields} {o : Byte} {mk : Byte → Instr} {j : Instr} (hr : ¬f.rsv ≠ 0)
    (ho : f.opc = o) (h : decodeFields.banded f mk = .command j) : ∃ b, mk b = j ∧ f = ⟨o, b, 0, 0⟩ := by
  obtain ⟨opc, band, rsv, imm8⟩ := f
  unfold decodeFields.banded at h
  split_ifs at h with hi
  cases not_not.mp hr; cases ho; cases not_not.mp hi
  exact ⟨band, Decoded.command.inj h, rfl⟩

theorem decodeFields_encodeFields {i : Instr} (h : i.wellFormed = true) :
    decodeFields (encodeFields i) = .command i := by
  cases i with
  | setEnabled en => exact if_pos (of_decide_eq_true h)
  | _ => rfl

/-- What decodes to a command has that command's fields, and an operand within R302's limits. -/
theorem wellFormed_and_encodeFields_of_decodeFields {f : Fields} {i : Instr} (h : decodeFields f = .command i) :
    i.wellFormed = true ∧ encodeFields i = f := by
  unfold decodeFields at h
  split_ifs at h with hr h0 h1 h2 h3 hb he h10 h11 h12 h20 hb
  · obtain ⟨rfl, rfl⟩ := eq_of_plain_eq_command hr h0 h
    exact ⟨rfl, rfl⟩
  · obtain ⟨rfl, rfl⟩ := eq_of_plain_eq_command hr h1 h
    exact ⟨rfl, rfl⟩
  · obtain ⟨rfl, rfl⟩ := eq_of_plain_eq_command hr h2 h
    exact ⟨rfl, rfl⟩
  · obtain ⟨opc, band, rsv, imm8⟩ := f
    cases not_not.mp hr; cases h3; cases not_not.mp hb; cases h
    exact ⟨decide_eq_true he, rfl⟩
  · obtain ⟨b, rfl, rfl⟩ := eq_of_banded_eq_command hr h10 h
    exact ⟨rfl, rfl⟩
  · obtain ⟨b, rfl, rfl⟩ := eq_of_banded_eq_command hr h11 h
    exact ⟨rfl, rfl⟩
  · obtain ⟨b, rfl, rfl⟩ := eq_of_banded_eq_command hr h12 h
    exact ⟨rfl, rfl⟩
  · obtain ⟨opc, band, rsv, imm8⟩ := f
    cases not_not.mp hr; cases h20; cases not_not.mp hb; cases h
    exact ⟨rfl, rfl⟩

theorem decodeFields_eq_command_iff {f : Fields} {i : Instr} :
    decodeFields f = .command i ↔ i.wellFormed = true ∧ encodeFields i = f := by
  refine ⟨wellFormed_and_encodeFields_of_decodeFields, ?_⟩
  rintro ⟨h, rfl⟩
  exact decodeFields_encodeFields h

theorem decode_encode {i : Instr} (h : i.wellFormed = true) : decode (encode i) = .command i := by
  rw [decode, encode, fieldsOf_wordOf, decodeFields_encodeFields h]

/-- A word decodes to a command exactly when it is that command's word (R302). -/
theorem decode_eq_command_iff {w : Word} {i : Instr} :
    decode w = .command i ↔ i.wellFormed = true ∧ encode i = w := by
  rw [decode, decodeFields_eq_command_iff, encode]
  exact and_congr_right fun _ => ⟨fun h => by rw [h, wordOf_fieldsOf], fun h => by rw [← h, fieldsOf_wordOf]⟩

/-! ### The pattern table (30_encoding R305) -/

/-- A command's word lies in its own row. -/
theorem encode_and_rowMask {i : Instr} (h : i.wellFormed = true) : encode i &&& rowMask i = rowPattern i := by
  cases i with
  | nop => exact Laws.RowPattern.nop h
  | process => exact Laws.RowPattern.process h
  | reset => exact Laws.RowPattern.reset h
  | setEnabled en => exact Laws.RowPattern.setEnabled en h
  | setFreq b => exact Laws.RowPattern.setFreq b h
  | setGain b => exact Laws.RowPattern.setGain b h
  | setQ b => exact Laws.RowPattern.setQ b h
  | updateParams tag => exact Laws.RowPattern.updateParams tag h

/-- The rows of the table are the rows of the commands. -/
theorem mem_patternRows_iff {r : Word × Word} : r ∈ patternRows ↔ ∃ i, (rowMask i, rowPattern i) = r := by
  constructor
  · intro hr
    simp only [patternRows, List.mem_cons, List.not_mem_nil, or_false] at hr
    rcases hr with rfl | rfl | rfl | rfl | rfl | rfl | rfl | rfl
    · exact ⟨.nop, rfl⟩
    · exact ⟨.process, rfl⟩
    · exact ⟨.reset, rfl⟩
    · exact ⟨.setEnabled 0, rfl⟩
    · exact ⟨.setFreq 0, rfl⟩
    · exact ⟨.setGain 0, rfl⟩
    · exact ⟨.setQ 0, rfl⟩
    · exact ⟨.updateParams 0, rfl⟩
  · rintro ⟨i, rfl⟩
    cases i <;> simp [rowMask, rowPattern, patternRows]

/-- Masking a word masks each of its bytes. -/
theorem fieldsOf_and (w m : Word) :
    fieldsOf (w &&& m) = ⟨(fieldsOf w).opc &&& (fieldsOf m).opc, (fieldsOf w).band &&& (fieldsOf m).band,
      (fieldsOf w).rsv &&& (fieldsOf m).rsv, (fieldsOf w).imm8 &&& (fieldsOf m).imm8⟩ := by
  simp only [fieldsOf, BitVec.extractLsb'_and]

/-- A word that matches a row matches it in each byte. -/
theorem bytes_of_and_eq {w : Word} {m p : Fields} (h : w &&& wordOf m = wordOf p) :
    (fieldsOf w).opc &&& m.opc = p.opc ∧ (fieldsOf w).band &&& m.band = p.band ∧
      (fieldsOf w).rsv &&& m.rsv = p.rsv ∧ (fieldsOf w).imm8 &&& m.imm8 = p.imm8 := by
  have hf := congrArg fieldsOf h
  rw [fieldsOf_and, fieldsOf_wordOf, fieldsOf_wordOf] at hf
  exact Fields.mk.inj hf

theorem eq_of_and_full {x p : Byte} (h : x &&& 0xFF = p) : x = p := BitVec.and_allOnes.symm.trans h

theorem wordOf_eq_of_bytes {w : Word} {o b r i : Byte} (ho : (fieldsOf w).opc = o) (hb : (fieldsOf w).band = b)
    (hr : (fieldsOf w).rsv = r) (hi : (fieldsOf w).imm8 = i) : wordOf ⟨o, b, r, i⟩ = w := by
  subst ho hb hr hi
  exact wordOf_fieldsOf w

/-- The mask of SET_FREQ, SET_GAIN and SET_Q leaves BAND free. -/
theorem wordOf_band_of_and {w : Word} {o : Byte} (h : w &&& wordOf ⟨0xFF, 0, 0xFF, 0xFF⟩ = wordOf ⟨o, 0, 0, 0⟩) :
    wordOf ⟨o, (fieldsOf w).band, 0, 0⟩ = w := by
  obtain ⟨ho, -, hr, hi⟩ := bytes_of_and_eq h
  exact wordOf_eq_of_bytes (eq_of_and_full ho) rfl (eq_of_and_full hr) (eq_of_and_full hi)

/-- The masks of SET_ENABLED and UPDATE_PARAMS leave bits of IMM8 free. -/
theorem wordOf_imm8_of_and {w : Word} {o m : Byte} (h : w &&& wordOf ⟨0xFF, 0xFF, 0xFF, m⟩ = wordOf ⟨o, 0, 0, 0⟩) :
    (fieldsOf w).imm8 &&& m = 0 ∧ wordOf ⟨o, 0, 0, (fieldsOf w).imm8⟩ = w := by
  obtain ⟨ho, hb, hr, hi⟩ := bytes_of_and_eq h
  exact ⟨hi, wordOf_eq_of_bytes (eq_of_and_full ho) (eq_of_and_full hb) (eq_of_and_full hr) rfl⟩

/-- A byte with no bit but bit 0 is 0 or 1. -/
theorem toNat_le_one_of_and {en : Byte} (h : en &&& 0xFE = 0) : en.toNat ≤ 1 := by
  revert en; decide

/-- A word that matches a command's row is a command's word, its operand the byte that the row's mask leaves free. -/
theorem exists_command_of_row {w : Word} {i : Instr} (h : w &&& rowMask i = rowPattern i) :
    ∃ j, decode w = .command j := by
  suffices ∃ j, j.wellFormed = true ∧ encode j = w by simpa only [decode_eq_command_iff]
  cases i with
  | nop => exact ⟨.nop, rfl, (BitVec.and_allOnes.symm.trans h).symm⟩
  | process => exact ⟨.process, rfl, (BitVec.and_allOnes.symm.trans h).symm⟩
  | reset => exact ⟨.reset, rfl, (BitVec.and_allOnes.symm.trans h).symm⟩
  | setEnabled en =>
    obtain ⟨hi, hw⟩ := wordOf_imm8_of_and (o := opcSetEnabled) (m := 0xFE) h
    exact ⟨.setEnabled (fieldsOf w).imm8, decide_eq_true (toNat_le_one_of_and hi), hw⟩
  | setFreq b => exact ⟨.setFreq (fieldsOf w).band, rfl, wordOf_band_of_and h⟩
  | setGain b => exact ⟨.setGain (fieldsOf w).band, rfl, wordOf_band_of_and h⟩
  | setQ b => exact ⟨.setQ (fieldsOf w).band, rfl, wordOf_band_of_and h⟩
  | updateParams tag =>
    exact ⟨.updateParams (fieldsOf w).imm8, rfl, (wordOf_imm8_of_and (m := 0) h).2⟩

/-- A decoded word lies in the row of its command. -/
theorem and_rowMask_of_decode {w : Word} {i : Instr} (h : decode w = .command i) : w &&& rowMask i = rowPattern i := by
  obtain ⟨hi, rfl⟩ := decode_eq_command_iff.mp h
  exact encode_and_rowMask hi

theorem patternRows_masks_fix_opc : ∀ r ∈ patternRows, (fieldsOf r.1).opc = 0xFF := by
  simp [patternRows, fieldsOf]

theorem patternRows_opcodes_nodup : (patternRows.map fun r => (fieldsOf r.2).opc).Nodup := by
  simp [patternRows, fieldsOf]

theorem opc_of_row {w : Word} {r : Word × Word} (hr : r ∈ patternRows) (h : w &&& r.1 = r.2) :
    (fieldsOf w).opc = (fieldsOf r.2).opc := by
  rw [← h, fieldsOf_and, patternRows_masks_fix_opc r hr]
  exact BitVec.and_allOnes.symm

/-- The rows do not overlap, because a row fixes the whole of OPC and no two rows have the same. -/
theorem row_unique {w : Word} {r r' : Word × Word} (hr : r ∈ patternRows) (hr' : r' ∈ patternRows)
    (h : w &&& r.1 = r.2) (h' : w &&& r'.1 = r'.2) : r = r' :=
  List.inj_on_of_nodup_map patternRows_opcodes_nodup hr hr' ((opc_of_row hr h).symm.trans (opc_of_row hr' h'))

/-! ### The illegal words (30_encoding R307) -/

theorem isIllegal_iff_not_isCommand (w : Word) : (∃ r, decode w = .illegal r) ↔ ¬ ∃ i, decode w = .command i := by
  cases decode w with
  | command i => simp
  | illegal r => simp

/-- The five bullets of R307. -/
def breaksR307 (f : Fields) : Prop :=
  f.opc ∉ ([0x00, 0x01, 0x02, 0x03, 0x10, 0x11, 0x12, 0x20] : List Byte) ∨ f.rsv ≠ 0 ∨
    (f.band ≠ 0 ∧ f.opc ∉ ([0x10, 0x11, 0x12] : List Byte)) ∨
    (f.imm8 ≠ 0 ∧ f.opc ∉ ([0x03, 0x20] : List Byte)) ∨
    (f.opc = 0x03 ∧ 1 < f.imm8.toNat)

/-- No command's word falls under a bullet. -/
theorem not_breaksR307_encodeFields {i : Instr} (h : i.wellFormed = true) : ¬ breaksR307 (encodeFields i) := by
  cases i with
  | setEnabled en =>
    have hen : en.toNat ≤ 1 := of_decide_eq_true h
    simp [breaksR307, encodeFields, opcSetEnabled, hen]
  | nop => simp [breaksR307, encodeFields, opcNop]
  | process => simp [breaksR307, encodeFields, opcProcess]
  | reset => simp [breaksR307, encodeFields, opcReset]
  | setFreq b => simp [breaksR307, encodeFields, opcSetFreq]
  | setGain b => simp [breaksR307, encodeFields, opcSetGain]
  | setQ b => simp [breaksR307, encodeFields, opcSetQ]
  | updateParams tag => simp [breaksR307, encodeFields, opcUpdateParams]

/-- Fields under no bullet are those of a command. -/
theorem exists_command_of_not_breaksR307 {f : Fields} (h : ¬ breaksR307 f) :
    ∃ i : Instr, i.wellFormed = true ∧ encodeFields i = f := by
  obtain ⟨opc, band, rsv, imm8⟩ := f
  simp only [breaksR307, not_or, not_and_or, not_not, not_lt] at h
  obtain ⟨ho, rfl, hb, hi, he⟩ := h
  simp only [List.mem_cons, List.not_mem_nil, or_false] at ho
  rcases ho with rfl | rfl | rfl | rfl | rfl | rfl | rfl | rfl
  · cases hb.resolve_right (by decide); cases hi.resolve_right (by decide)
    exact ⟨.nop, rfl, rfl⟩
  · cases hb.resolve_right (by decide); cases hi.resolve_right (by decide)
    exact ⟨.process, rfl, rfl⟩
  · cases hb.resolve_right (by decide); cases hi.resolve_right (by decide)
    exact ⟨.reset, rfl, rfl⟩
  · cases hb.resolve_right (by decide)
    exact ⟨.setEnabled imm8, decide_eq_true (he.resolve_left (by decide)), rfl⟩
  · cases hi.resolve_right (by decide)
    exact ⟨.setFreq band, rfl, rfl⟩
  · cases hi.resolve_right (by decide)
    exact ⟨.setGain band, rfl, rfl⟩
  · cases hi.resolve_right (by decide)
    exact ⟨.setQ band, rfl, rfl⟩
  · cases hb.resolve_right (by decide)
    exact ⟨.updateParams imm8, rfl, rfl⟩

theorem breaksR307_iff (f : Fields) :
    breaksR307 f ↔ ¬ ∃ i : Instr, i.wellFormed = true ∧ encodeFields i = f := by
  refine ⟨?_, fun h => Classical.not_not.mp fun hf => h (exists_command_of_not_breaksR307 hf)⟩
  rintro hf ⟨i, hi, rfl⟩
  exact not_breaksR307_encodeFields hi hf

/-- The illegal words are those of R307's bullets. -/
theorem isIllegal_iff_breaksR307 (w : Word) : (∃ r, decode w = .illegal r) ↔ breaksR307 (fieldsOf w) := by
  rw [isIllegal_iff_not_isCommand, breaksR307_iff]
  simp only [decode, decodeFields_eq_command_iff]

/-- Settles O4: the commands' words are the words of the rows, and the rows' opcodes are distinct. -/
theorem commandWordsMatchOnePatternRow : Obligations.CommandWordsMatchOnePatternRow := by
  unfold Obligations.CommandWordsMatchOnePatternRow
  refine ⟨fun w => ⟨?_, ?_⟩, fun w i h => and_rowMask_of_decode h, fun w r hr r' hr' h h' => row_unique hr hr' h h'⟩
  · rintro ⟨i, hi⟩
    exact ⟨_, mem_patternRows_iff.mpr ⟨i, rfl⟩, and_rowMask_of_decode hi⟩
  · rintro ⟨r, hr, h⟩
    obtain ⟨i, rfl⟩ := mem_patternRows_iff.mp hr
    exact exists_command_of_row h

end Sys2Proof

namespace Sys2Proof.Machine

/-! ### What CMD answers to a word (30_encoding R306, R307; 42_parameters R605, R609) -/

theorem resultWord_eq_ofNat (opc : Byte) (code : ResultCode) :
    resultWord opc code = BitVec.ofNat 32 (256 * opc.toNat + (codeByte code).toNat) := by
  have h : opc.toNat <<< 8 ||| (codeByte code).toNat = 256 * opc.toNat + (codeByte code).toNat := by
    rw [← Nat.shiftLeft_add_eq_or_of_lt (codeByte code).isLt, Nat.shiftLeft_eq]
    omega
  rw [resultWord, ← BitVec.ofNat_toNat, BitVec.toNat_append, h]

/-- A word that encodes a command runs it. -/
theorem issueCommand_encode {i : Instr} (h : i.wellFormed = true) (s : State) :
    issueCommand (encode i) s = exec i s := by
  rw [issueCommand, decode_encode h]

theorem issueCommand_of_illegal {w : Word} {r : IllegalReason} (h : decode w = .illegal r) (s : State) :
    issueCommand w s = complete (fieldsOf w).opc .illegal s := by
  rw [issueCommand, h]

theorem complete_of_ne_ok {code : ResultCode} (h : code ≠ .ok) (opc : Byte) (s : State) :
    complete opc code s =
      .next { s with result := BitVec.ofNat 32 (256 * opc.toNat + (codeByte code).toNat), err := true } := by
  rw [complete, finish, resultWord_eq_ofNat, errAfter, if_neg h]

/-- The three commands of one band reject a band that does not exist with BAD_BAND (R605). -/
theorem exec_setBand_of_absent {s : State} {b : Byte} (h : nbands s.params.kind ≤ b.toNat) :
    exec (.setFreq b) s = complete opcSetFreq .badBand s ∧ exec (.setGain b) s = complete opcSetGain .badBand s ∧
      exec (.setQ b) s = complete opcSetQ .badBand s :=
  ⟨if_pos h, if_pos h, if_pos h⟩

/-- UPDATE_PARAMS rejects every tag but its kind's own with BAD_KIND (R609). -/
theorem exec_updateParams_of_otherTag {s : State} {tag : Byte} (h : tag.toNat ≠ acceptedTag s.params.kind) :
    exec (.updateParams tag) s = complete opcUpdateParams .badKind s :=
  if_pos h

/-- Settles O5: what is no command is what breaks R307, and the words of absent bands and other tags are commands that
reject them. -/
theorem illegalWordsOnlyReport : Obligations.IllegalWordsOnlyReport := by
  unfold Obligations.IllegalWordsOnlyReport
  refine ⟨isIllegal_iff_breaksR307, fun w r s h => ?_, fun s b hb => ?_, fun s tag htag => ?_⟩
  · exact (issueCommand_of_illegal h s).trans (complete_of_ne_ok (by decide) _ s)
  · obtain ⟨hf, hg, hq⟩ := exec_setBand_of_absent hb
    exact ⟨(issueCommand_encode (i := .setFreq b) rfl s).trans hf,
      (issueCommand_encode (i := .setGain b) rfl s).trans hg, (issueCommand_encode (i := .setQ b) rfl s).trans hq⟩
  · exact (issueCommand_encode (i := .updateParams tag) rfl s).trans (exec_updateParams_of_otherTag htag)

end Sys2Proof.Machine

/-! The control commands (spec 40_control R400, R405, R406, R410), and why nothing after a RESET depends on playback before
it: an operation that does not look at sample memory, the value last read or the count of free patterns answers alike states
alike; PROCESS and the host's accesses to sample memory do look, and a NaN sample is to them only a NaN. -/

namespace Sys2Proof.Machine

open Sys2Proof.Safety

/-! ### The same sample (00_scope R12, 93_implementation_defined U-5) -/

theorem sameSample_refl (w : Word) : sameSample w w := .inl rfl

theorem sameWord_refl (o : Option Word) : sameWord o o := by
  cases o with
  | none => trivial
  | some w => exact sameSample_refl w

/-- The same optional word: no word on either side, or one sample on both. -/
theorem sameWord_cases {o o' : Option Word} (h : sameWord o o') :
    (o = none ∧ o' = none) ∨ ∃ v w, o = some v ∧ o' = some w ∧ sameSample v w := by
  cases o with
  | none => cases o' with
    | none => exact .inl ⟨rfl, rfl⟩
    | some w => exact h.elim
  | some v => cases o' with
    | none => exact h.elim
    | some w => exact .inr ⟨v, w, rfl, rfl, h⟩

/-- The filter sees no difference between two patterns of one sample. -/
theorem ofBits32_eq_of_sameSample {v w : Word} (h : sameSample v w) : ofBits32 v = ofBits32 w := by
  rcases h with rfl | ⟨hv, hw⟩
  · rfl
  · rw [(isNan32_iff v).mp hv, (isNan32_iff w).mp hw]

theorem filterSample_eq_of_sameSample {v w : Word} (h : sameSample v w) (cs : List Coeffs) (l : List StageState) :
    filterSample cs l v = filterSample cs l w := by
  rw [filterSample, filterSample, ofBits32_eq_of_sameSample h]

/-- One value leaves as the same sample, whatever free word a NaN draws. -/
theorem sameSample_toBits32 (r r' : Word) (v : B32) :
    sameSample (toBits32 (nanPattern r) v) (toBits32 (nanPattern r') v) := by
  cases v with
  | nan => exact .inr ⟨(isNan32_iff _).mpr (ofBits32_nanPattern r), (isNan32_iff _).mpr (ofBits32_nanPattern r')⟩
  | inf neg => exact sameSample_refl _
  | fin neg mag => exact sameSample_refl _

/-- Writing the same sample keeps memories alike. -/
theorem sameWord_memWriteWord {m m' : Memory} (hm : ∀ j, sameWord (memReadWord m j) (memReadWord m' j)) {v w : Word}
    (h : sameSample v w) (i j : Nat) :
    sameWord (memReadWord (memWriteWord m i v) j) (memReadWord (memWriteWord m' i w) j) := by
  by_cases hj : j = i
  · subst hj
    rw [memReadWord_memWriteWord_same, memReadWord_memWriteWord_same]
    exact h
  · rw [memReadWord_memWriteWord_other hj, memReadWord_memWriteWord_other hj]
    exact hm j

/-! ### Operations that do not look at samples -/

/-- `s` with the three parts in which states alike up to NaN patterns may differ replaced. -/
def setSamples (s : State) (m : Memory) (r : Option Word) (n : Nat) : State :=
  { s with mem := m, readData := r, nanCount := n }

/-- An operation that neither reads nor writes those three parts. -/
def ignoresSamples (f : State → Out) : Prop :=
  ∀ s m r n, f (setSamples s m r n) = andThen (f s) fun u => .next (setSamples u m r n)

theorem sameUpToNan_setSamples {s : State} {m m' : Memory} {r r' : Option Word}
    (hm : ∀ i, sameWord (memReadWord m i) (memReadWord m' i)) (hr : sameWord r r') (n n' : Nat) :
    sameUpToNan (setSamples s m r n) (setSamples s m' r' n') :=
  ⟨rfl, hm, hr⟩

/-- Alike states are one state with alike samples, alike values last read and two counts. -/
theorem exists_of_sameUpToNan {s t : State} (h : sameUpToNan s t) :
    ∃ m r n, t = setSamples s m r n ∧ (∀ i, sameWord (memReadWord s.mem i) (memReadWord m i)) ∧ sameWord s.readData r :=
  ⟨t.mem, t.readData, t.nanCount, h⟩

theorem sameOutcome_of_ignoresSamples {f : State → Out} (hf : ignoresSamples f) {s t : State} (h : sameUpToNan s t) :
    sameOutcome (f s) (f t) := by
  obtain ⟨m, r, n, rfl, hm, hr⟩ := exists_of_sameUpToNan h
  have hs : f s = andThen (f s) fun u => .next (setSamples u s.mem s.readData s.nanCount) :=
    hf s s.mem s.readData s.nanCount
  rw [hs, hf s m r n]
  cases f s with
  | next u => exact sameUpToNan_setSamples hm hr _ _
  | fault f => exact rfl
  | refused r => exact rfl

/-- An update that touches none of the three parts keeps states alike. -/
theorem sameUpToNan_map {f : State → State} (hf : ∀ s m r n, f (setSamples s m r n) = setSamples (f s) m r n)
    {s t : State} (h : sameUpToNan s t) : sameUpToNan (f s) (f t) :=
  sameOutcome_of_ignoresSamples (f := fun s => .next (f s)) (fun s m r n => congrArg Host.Outcome.next (hf s m r n)) h

/-- Running on from alike outcomes. -/
theorem sameOutcome_andThen {o o' : Out} {f g : State → Out} (h : sameOutcome o o')
    (hfg : ∀ s t, sameUpToNan s t → sameOutcome (f s) (g t)) : sameOutcome (andThen o f) (andThen o' g) := by
  cases o with
  | next s => cases o' with
    | next t => exact hfg s t h
    | fault r => exact h.elim
    | refused r => exact h.elim
  | fault r => cases o' with
    | next t => exact h.elim
    | fault r' => exact h
    | refused r' => exact h.elim
  | refused r => cases o' with
    | next t => exact h.elim
    | fault r' => exact h.elim
    | refused r' => exact h

theorem ignoresSamples_complete (opc : Byte) (code : ResultCode) : ignoresSamples (complete opc code) :=
  fun _ _ _ _ => rfl

theorem sameOutcome_complete (opc : Byte) (code : ResultCode) {s t : State} (h : sameUpToNan s t) :
    sameOutcome (complete opc code s) (complete opc code t) :=
  sameOutcome_of_ignoresSamples (ignoresSamples_complete opc code) h

/-- A check on which both states agree: a rejection, or going on without a look at samples. -/
theorem ignoresSamples_check {c : State → Prop} [DecidablePred c] {opc : Byte} {code : ResultCode} {f : State → Out}
    (hf : ignoresSamples f) (hc : ∀ s m r n, c (setSamples s m r n) ↔ c s := by exact fun _ _ _ _ => Iff.rfl) :
    ignoresSamples fun s => if c s then complete opc code s else f s := by
  intro s m r n
  by_cases h : c s
  · simp only [if_pos h, if_pos ((hc s m r n).mpr h)]
    exact ignoresSamples_complete opc code s m r n
  · simp only [if_neg h, if_neg fun h' => h ((hc s m r n).mp h')]
    exact hf s m r n

/-- Of the commands, PROCESS alone looks at samples: every check of the others is of a register, and so is what they write. -/
theorem ignoresSamples_exec {i : Instr} (hi : i ≠ .process) : ignoresSamples (exec i) := by
  cases i with
  | process => exact absurd rfl hi
  | nop => exact fun _ _ _ _ => rfl
  | reset => exact fun _ _ _ _ => rfl
  | setEnabled en =>
    intro s m r n
    by_cases h : en.toNat ≤ 1
    · simp only [exec, execSetEnabled, if_pos h]; rfl
    · simp only [exec, execSetEnabled, if_neg h]; rfl
  | setFreq b =>
    refine ignoresSamples_check (ignoresSamples_check (ignoresSamples_check ?_))
    exact fun _ _ _ _ => rfl
  | setGain b =>
    refine ignoresSamples_check (ignoresSamples_check ?_)
    exact fun _ _ _ _ => rfl
  | setQ b =>
    refine ignoresSamples_check (ignoresSamples_check (ignoresSamples_check ?_))
    exact fun _ _ _ _ => rfl
  | updateParams tag =>
    refine ignoresSamples_check (ignoresSamples_check ?_)
    exact fun _ _ _ _ => rfl

/-! ### PROCESS (41_process R514–R518) -/

theorem applyRate_setSamples (s : State) (m : Memory) (r : Option Word) (n : Nat) :
    applyRate (setSamples s m r n) = setSamples (applyRate s) m r n := by
  by_cases h : s.arg2 = s.activeRate
  · rw [applyRate_of_same h, applyRate_of_same (s := setSamples s m r n) h]
  · rw [applyRate_of_new h, applyRate_of_new (s := setSamples s m r n) h]; rfl

theorem sameUpToNan_writeSample {s t : State} (h : sameUpToNan s t) (i : Nat) (v : B32) :
    sameUpToNan (writeSample i v s) (writeSample i v t) := by
  obtain ⟨m, r, n, rfl, hm, hr⟩ := exists_of_sameUpToNan h
  exact ⟨rfl, sameWord_memWriteWord hm (sameSample_toBits32 _ _ v) i, hr⟩

theorem sameUpToNan_setLane {s t : State} (h : sameUpToNan s t) (c : Channel) (l : List StageState) :
    sameUpToNan (setLane s c l) (setLane t c l) :=
  sameUpToNan_map (f := fun s => setLane s c l) (fun _ _ _ _ => by cases c <;> rfl) h

theorem lane_eq_of_sameUpToNan {s t : State} (h : sameUpToNan s t) (c : Channel) : lane s c = lane t c := by
  obtain ⟨m, r, n, rfl, -, -⟩ := exists_of_sameUpToNan h
  cases c with
  | left => rfl
  | right => rfl

/-- Both steps stop at an unwritten word, or filter the same value from the same lane. -/
theorem sameOutcome_sampleStep (cs : List Coeffs) (c : Channel) (i : Nat) {s t : State} (h : sameUpToNan s t) :
    sameOutcome (sampleStep cs c i s) (sampleStep cs c i t) := by
  have ⟨_, hm, _⟩ := h
  rcases sameWord_cases (hm i) with ⟨hs, ht⟩ | ⟨v, w, hs, ht, hvw⟩
  · rw [sampleStep_of_unwritten hs, sampleStep_of_unwritten ht]
    exact rfl
  · rw [sampleStep_of_written hs, sampleStep_of_written ht, ← lane_eq_of_sameUpToNan h,
      filterSample_eq_of_sameSample hvw]
    exact sameUpToNan_writeSample (sameUpToNan_setLane h c _) i _

theorem sameOutcome_processFrames (cs : List Coeffs) (k : Nat) :
    ∀ (i : Nat) {s t : State}, sameUpToNan s t → sameOutcome (processFrames cs k i s) (processFrames cs k i t) := by
  induction k with
  | zero => exact fun i s t h => h
  | succ k ih =>
    intro i s t h
    exact sameOutcome_andThen (sameOutcome_sampleStep cs .left i h) fun u v huv =>
      sameOutcome_andThen (sameOutcome_sampleStep cs .right (i + 1) huv) fun _ _ h' => ih (i + 2) h'

theorem sameOutcome_processWalk (lm : Libm) {s t : State} (h : sameUpToNan s t) :
    sameOutcome (processWalk lm s) (processWalk lm t) := by
  have hr := sameUpToNan_map applyRate_setSamples h
  obtain ⟨m, r, n, rfl, -, -⟩ := exists_of_sameUpToNan h
  have hc : coeffsOf lm (applyRate (setSamples s m r n)) = coeffsOf lm (applyRate s) := by
    rw [applyRate_setSamples]; rfl
  rw [processWalk, processWalk, hc]
  exact sameOutcome_processFrames _ _ _ hr

/-- Alike states pass and fail the same checks of PROCESS. -/
theorem sameOutcome_processWith (lm : Libm) {s t : State} (h : sameUpToNan s t) :
    sameOutcome (processWith lm s) (processWith lm t) := by
  obtain ⟨m, r, n, rfl, -, -⟩ := exists_of_sameUpToNan h
  by_cases ha : processAccepted s
  · rw [processWith_of_accepted ha, processWith_of_accepted (s := setSamples s m r n) ha]
    exact sameOutcome_andThen (sameOutcome_processWalk lm h) fun _ _ h' => sameOutcome_complete opcProcess .ok h'
  · cases he : s.enabled with
    | false =>
      rw [processWith_of_disabled he, processWith_of_disabled (s := setSamples s m r n) he]
      exact sameOutcome_complete opcProcess .ok h
    | true =>
      have hc : processCheck s ≠ .ok := fun hok => ha ((processAccepted_iff s).mpr ⟨he, hok⟩)
      rw [processWith_of_rejected he hc, processWith_of_rejected (s := setSamples s m r n) he hc]
      exact sameOutcome_complete opcProcess (processCheck s) h

/-! ### Commands, accesses and steps (20_memory R220, 40_control R406) -/

theorem sameOutcome_exec (i : Instr) {s t : State} (h : sameUpToNan s t) : sameOutcome (exec i s) (exec i t) := by
  by_cases hi : i = .process
  · subst hi
    exact sameOutcome_processWith libm h
  · exact sameOutcome_of_ignoresSamples (ignoresSamples_exec hi) h

theorem sameOutcome_issueCommand (w : Word) {s t : State} (h : sameUpToNan s t) :
    sameOutcome (issueCommand w s) (issueCommand w t) := by
  unfold issueCommand
  cases decode w with
  | command i => exact sameOutcome_exec i h
  | illegal r => exact sameOutcome_complete _ .illegal h

theorem ctlStore_setSamples (reg : CtlReg) (w : Word) (s : State) (m : Memory) (r : Option Word) (n : Nat) :
    ctlStore reg w (setSamples s m r n) = setSamples (ctlStore reg w s) m r n := by
  cases reg <;> rfl

theorem ctlRead_setSamples (reg : CtlReg) (s : State) (m : Memory) (r : Option Word) (n : Nat) :
    ctlRead (setSamples s m r n) reg = ctlRead s reg := by
  cases reg <;> rfl

theorem sameUpToNan_readData {s t : State} (h : sameUpToNan s t) {r r' : Option Word} (hr : sameWord r r') :
    sameUpToNan { s with readData := r } { t with readData := r' } := by
  obtain ⟨m, r, n, rfl, hm, -⟩ := exists_of_sameUpToNan h
  exact ⟨rfl, hm, hr⟩

/-- A read answers alike: the same register value, or the same sample. -/
theorem sameOutcome_hostRead (sp : Space) (off : Nat) {s t : State} (h : sameUpToNan s t) :
    sameOutcome (hostRead sp off s) (hostRead sp off t) := by
  cases sp with
  | control =>
    refine sameUpToNan_readData h ?_
    obtain ⟨m, r, n, rfl, -, -⟩ := exists_of_sameUpToNan h
    rw [ctlRead_setSamples]
    exact sameWord_refl _
  | sample =>
    have ⟨_, hm, _⟩ := h
    rcases sameWord_cases (hm (off / 4)) with ⟨hs, ht⟩ | ⟨v, w, hs, ht, hvw⟩
    · simp only [hostRead, hs, ht]
      exact rfl
    · simp only [hostRead, hs, ht]
      exact sameUpToNan_readData h hvw

theorem sameOutcome_hostWrite (sp : Space) (off : Nat) (w : Word) {s t : State} (h : sameUpToNan s t) :
    sameOutcome (hostWrite sp off w s) (hostWrite sp off w t) := by
  cases sp with
  | control =>
    unfold hostWrite
    by_cases hc : ctlReg off = .cmd
    · simpa only [if_pos hc] using sameOutcome_issueCommand w h
    · simp only [if_neg hc]
      exact sameUpToNan_map (ctlStore_setSamples (ctlReg off) w) h
  | sample =>
    obtain ⟨m, r, n, rfl, hm, hr⟩ := exists_of_sameUpToNan h
    exact ⟨rfl, sameWord_memWriteWord hm (sameSample_refl w) _, hr⟩

theorem sameUpToNan_argOwner {s t : State} (h : sameUpToNan s t) (o : Option Agent) :
    sameUpToNan { s with argOwner := o } { t with argOwner := o } :=
  sameUpToNan_map (f := fun s => { s with argOwner := o }) (fun _ _ _ _ => rfl) h

theorem sameUpToNan_port {s t : State} (h : sameUpToNan s t) (p : List HostEvent) :
    sameUpToNan { s with port := p } { t with port := p } :=
  sameUpToNan_map (f := fun s => { s with port := p }) (fun _ _ _ _ => rfl) h

theorem spaceBytes_setSamples (s : State) (m : Memory) (r : Option Word) (n : Nat) (sp : Space) :
    spaceBytes (setSamples s m r n) sp = spaceBytes s sp := by
  cases sp <;> rfl

/-- Admission and the lock look at no sample. -/
theorem sameOutcome_performAccess (a : Access) {s t : State} (h : sameUpToNan s t) :
    sameOutcome (performAccess a s) (performAccess a t) := by
  have hadm : admitted a t = admitted a s := by
    obtain ⟨m, r, n, rfl, -, -⟩ := exists_of_sameUpToNan h
    rw [admitted, admitted, spaceBytes_setSamples]
  have hown : t.argOwner = s.argOwner := by rw [h.1]
  have hlock := sameUpToNan_argOwner h (lockAfter a s.argOwner)
  unfold performAccess
  rw [hadm, hown]
  split
  · split
    · exact rfl
    · cases a.op with
      | read => exact sameOutcome_hostRead _ _ hlock
      | write w => exact sameOutcome_hostWrite _ _ w hlock
  · exact rfl

theorem sameUpToNan_hardwareReset {s t : State} (h : sameUpToNan s t) :
    sameUpToNan (hardwareReset s) (hardwareReset t) := by
  obtain ⟨m, r, n, rfl, -, -⟩ := exists_of_sameUpToNan h
  exact ⟨rfl, fun _ => sameWord_refl _, sameWord_refl _⟩

theorem sameOutcome_performEvent (e : HostEvent) {s t : State} (h : sameUpToNan s t) :
    sameOutcome (performEvent e s) (performEvent e t) := by
  cases e with
  | access a => exact sameOutcome_performAccess a h
  | hardwareReset => exact sameUpToNan_hardwareReset h

theorem sameOutcome_step {s t : State} (h : sameUpToNan s t) : sameOutcome (step s) (step t) := by
  have hp : t.port = s.port := by rw [h.1]
  unfold step serveNext
  rw [hp]
  cases s.port with
  | nil => exact h
  | cons e rest => exact sameOutcome_performEvent e (sameUpToNan_port h rest)

/-- A run of `k + 1` steps is a step and a run of `k`. -/
theorem run_succ (k : Nat) (s : State) : core.run (k + 1) s = andThen (step s) (core.run k) := by
  refine (Host.Core.run.eq_2 core s k).trans ?_
  cases h : step s with
  | next u => rw [show core.step s = .next u from h]; rfl
  | fault r => rw [show core.step s = .fault r from h]; rfl
  | refused r => rw [show core.step s = .refused r from h]; rfl

theorem sameOutcome_run (k : Nat) : ∀ {s t : State}, sameUpToNan s t → sameOutcome (core.run k s) (core.run k t) := by
  induction k with
  | zero => exact fun h => h
  | succ k ih =>
    intro s t h
    rw [run_succ, run_succ]
    exact sameOutcome_andThen (sameOutcome_step h) fun _ _ h' => ih h'

/-- Settles O25: RESET overwrites both lanes, so that only the count of free patterns is left to differ, and every step keeps
alike states alike. -/
theorem resetForgetsPlayback : Obligations.ResetForgetsPlayback := by
  unfold Obligations.ResetForgetsPlayback
  refine ⟨fun s l r n => ⟨_, _, rfl, rfl, rfl, fun _ => sameWord_refl _, sameWord_refl _⟩, fun k s s' h => ?_⟩
  exact sameOutcome_run k h

/-! ### NOP, RESET and SET_ENABLED (40_control R400, R405, R410) -/

/-- A command that completes with OK keeps ERR (R701). -/
theorem complete_ok (opc : Byte) (s : State) :
    complete opc .ok s = .next { s with result := BitVec.ofNat 32 (256 * opc.toNat + (codeByte .ok).toNat) } := by
  rw [complete, finish, resultWord_eq_ofNat, errAfter, if_pos rfl]

/-- A word's OPC is that of the command it decodes to. -/
theorem opcodeOf_of_decode {w : Word} {i : Instr} (h : decode w = .command i) : opcodeOf i = (fieldsOf w).opc := by
  obtain ⟨-, rfl⟩ := decode_eq_command_iff.mp h
  rw [encode, fieldsOf_wordOf]
  cases i <;> rfl

/-- A word that is not the encoding of a command with its OPC is illegal. -/
theorem isIllegal_of_opc {w : Word}
    (h : ∀ i : Instr, i.wellFormed = true → opcodeOf i = (fieldsOf w).opc → w ≠ encode i) :
    ∃ r, decode w = .illegal r := by
  rw [isIllegal_iff_not_isCommand]
  rintro ⟨i, hi⟩
  obtain ⟨hwf, hw⟩ := decode_eq_command_iff.mp hi
  exact h i hwf (opcodeOf_of_decode hi) hw.symm

theorem eq_nop_of_opcodeOf {i : Instr} (h : opcodeOf i = opcNop) : i = .nop := by
  cases i with
  | nop => rfl
  | _ => cases h

theorem eq_setEnabled_of_opcodeOf {i : Instr} (h : opcodeOf i = opcSetEnabled) : ∃ en, i = .setEnabled en := by
  cases i with
  | setEnabled en => exact ⟨en, rfl⟩
  | _ => cases h

/-- Settles O22: NOP is the one command with its OPC, and has no operand. -/
theorem nopOnlyReports : Obligations.NopOnlyReports := by
  unfold Obligations.NopOnlyReports
  refine ⟨fun s => complete_ok opcNop s, decode_encode (i := .nop) rfl, fun w ho hw => ?_⟩
  refine isIllegal_of_opc fun i _ hi => ?_
  rw [eq_nop_of_opcodeOf (hi.trans ho)]
  exact hw

/-- Settles O23: `clearFilter` writes R127's zero state into both lanes. -/
theorem resetZeroesTheFilterState : Obligations.ResetZeroesTheFilterState := by
  unfold Obligations.ResetZeroesTheFilterState
  exact ⟨decode_encode (i := .reset) rfl, fun s => complete_ok opcReset (clearFilter s)⟩

/-- Settles O24: the only well-formed commands with this OPC are SET_ENABLED 0 and 1. -/
theorem setEnabledWritesTheFlag : Obligations.SetEnabledWritesTheFlag := by
  unfold Obligations.SetEnabledWritesTheFlag
  refine ⟨decode_encode (i := .setEnabled 0) rfl, decode_encode (i := .setEnabled 1) rfl, fun s => ⟨?_, ?_⟩,
    fun w s ho h0 h1 => ?_⟩
  · exact complete_ok opcSetEnabled { s with enabled := false }
  · exact complete_ok opcSetEnabled { s with enabled := true }
  · have hill : ∃ r, decode w = .illegal r := by
      refine isIllegal_of_opc fun i hwf hi => ?_
      obtain ⟨en, rfl⟩ := eq_setEnabled_of_opcodeOf (hi.trans ho)
      have hen : en.toNat ≤ 1 := of_decide_eq_true hwf
      obtain rfl | rfl : en = 0 ∨ en = 1 := by bv_omega
      · exact h0
      · exact h1
    obtain ⟨r, hr⟩ := hill
    rw [issueCommand_of_illegal hr, complete_of_ne_ok (by decide), ho]
    rfl

end Sys2Proof.Machine

/-! The datapath of PROCESS, one family of statements (spec 41_process R501, R512, R518, R519): the flush and the Nyquist clamp in
exact values, what a completed PROCESS has run, and the state a rate change starts it from. -/

namespace Sys2Proof.Machine

open Sys2Proof.Safety

/-! ### Exact and nearest values (00_scope R12) -/

theorem ratOf_ofNat64 {n : Nat} (h : n < 2 ^ 53) : ratOf (ofNat64 n) = n := by
  have hr := (ofNat64_exact h).2
  unfold realOf at hr
  exact_mod_cast hr

@[simp] theorem isFinite64_abs64 (y : B64) : isFinite64 (abs64 y) = isFinite64 y := by cases y <;> rfl

theorem realOf_abs64 (y : B64) : realOf (abs64 y) = |realOf y| := by
  cases y with
  | nan => simp [abs64, realOf, ratOf]
  | inf neg => simp [abs64, realOf, ratOf]
  | fin neg mag =>
    have h0 := magVal_nonneg fmt64 mag.val
    rw [abs64, realOf_fin, realOf_fin]
    cases neg <;> simp [abs_of_nonneg h0]

theorem lt_of_isFinite64_ofMag64 {neg : Bool} {m : Nat} (h : isFinite64 (ofMag64 neg m) = true) :
    m < 0x7FF0000000000000 := by
  by_contra hm
  rw [ofMag64, dif_neg hm] at h
  cases h

theorem Represents.nonneg {f : Format} {n : Nat} {e : ℤ} {sticky : Bool} {x : ℝ} (h : Represents f n e sticky x) :
    0 ≤ x := by
  have h0 : (0 : ℝ) ≤ (n : ℝ) * 2 ^ e := mul_nonneg (Nat.cast_nonneg _) (two_zpow_pos _).le
  unfold Represents at h
  split at h
  · exact h0.trans h.1.le
  · exact h0.trans h.ge

/-- A rounding of a value of moderate size is finite and off by at most a hundredth of it. -/
theorem IsRounding.near {y : B64} {x : ℝ} (h : IsRounding y x) (hlo : 1 / 4 ≤ x) (hhi : x ≤ 2 ^ 20) :
    isFinite64 y = true ∧ |realOf y - x| ≤ x / 100 := by
  have habs : |x| = x := abs_of_nonneg (by linarith)
  have hmin : (2 : ℝ) ^ (-1022 : ℤ) ≤ 1 / 4 := by
    calc (2 : ℝ) ^ (-1022 : ℤ) ≤ 2 ^ (-2 : ℤ) := zpow_le_zpow_right₀ (by norm_num) (by norm_num)
      _ = 1 / 4 := by norm_num
  have hmax : (2 : ℝ) ^ 20 ≤ 2 ^ (900 : ℤ) := by
    rw [← zpow_natCast]
    exact zpow_le_zpow_right₀ (by norm_num) (by norm_num)
  obtain ⟨hfin, herr⟩ := h.relative (habs.symm ▸ hmin.trans hlo) (habs.symm ▸ hhi.trans hmax)
  rw [habs] at herr
  exact ⟨hfin, herr.trans (div_le_div_of_nonneg_left (by linarith) (by norm_num) (by norm_num))⟩

/-- A finite rounding of a real is nearest to it among the finite values: the magnitude is, and the sign is the real's. -/
theorem IsRounding.nearest {y z : B64} {x : ℝ} (h : IsRounding y x) (hy : isFinite64 y = true)
    (hz : isFinite64 z = true) : |realOf y - x| ≤ |realOf z - x| := by
  obtain ⟨neg, n, e, sticky, x', hx, hx0, rfl, rfl⟩ := h
  obtain ⟨nz, mz, rfl⟩ := (isFinite64_iff z).mp hz
  have hmag := (roundMag_nearest_even (by decide) hx hx0 mz.val).1
  have hval := (realOf_ofMag64 (lt_of_isFinite64_ofMag64 hy) neg).2
  have hzabs : |realOf (.fin nz mz)| = magVal fmt64 mz.val := by
    rw [← realOf_abs64, abs64, realOf_fin, if_neg Bool.false_ne_true]
  have hxabs : |if neg then -x' else x'| = x' := by cases neg <;> simp [abs_of_nonneg hx.nonneg]
  calc |realOf (round64 neg n e sticky) - (if neg then -x' else x')|
      = |magVal fmt64 (roundMag fmt64 n e sticky) - x'| := by
        rw [round64, hval]
        cases neg
        · simp
        · simp only [if_true, neg_sub_neg]; exact abs_sub_comm _ _
    _ ≤ |magVal fmt64 mz.val - x'| := hmag
    _ ≤ |realOf (.fin nz mz) - (if neg then -x' else x')| := by
        have := abs_abs_sub_abs_le (realOf (.fin nz mz)) (if neg then -x' else x')
        rwa [hzabs, hxabs] at this

/-! ### The flush (41_process R512) -/

theorem lt64_abs64_flushT_iff {y : B64} (hy : isFinite64 y = true) :
    lt64 (abs64 y) flushT = true ↔ |ratOf y| < ratOf flushT := by
  rw [lt64_iff ((isFinite64_abs64 y).trans hy) (by decide +kernel), realOf_abs64]
  unfold realOf
  exact_mod_cast Iff.rfl

theorem flush_of_small {y : B64} (hy : isFinite64 y = true) (h : |ratOf y| < ratOf flushT) : flush y = .posZero :=
  if_pos ((lt64_abs64_flushT_iff hy).mpr h)

theorem flush_of_large {y : B64} (hy : isFinite64 y = true) (h : ratOf flushT ≤ |ratOf y|) : flush y = y :=
  if_neg fun hlt => h.not_gt ((lt64_abs64_flushT_iff hy).mp hlt)

/-- FLUSH_T is the correctly rounded quotient of 1 and 10^15. -/
theorem flushT_isRounding : IsRounding flushT (1 / 10 ^ 15) := by
  have hq : flushT = div64 (ofNat64 1) (ofNat64 (10 ^ 15)) := by decide +kernel
  obtain ⟨hf1, h1⟩ := ofNat64_exact (n := 1) (by norm_num)
  obtain ⟨hf2, h2⟩ := ofNat64_exact (n := 10 ^ 15) (by norm_num)
  have h := div64_isRounding hf1 hf2 (by rw [h2]; norm_num)
  rw [← hq, h1, h2] at h
  exact_mod_cast h

theorem flushT_nearest {z : B64} (hz : isFinite64 z = true) :
    |ratOf flushT - 1 / 10 ^ 15| ≤ |ratOf z - 1 / 10 ^ 15| := by
  have h := flushT_isRounding.nearest (by decide +kernel) hz
  rw [← Rat.cast_le (K := ℝ)]
  push_cast
  exact h

/-! ### The Nyquist clamp (41_process R501) -/

/-- NYQ_FRAC is near 0.45. -/
theorem nyqFrac_bounds : 2 / 5 < realOf nyqFrac ∧ realOf nyqFrac < 23 / 50 := by
  have h : 2 / 5 < ratOf nyqFrac ∧ ratOf nyqFrac < 23 / 50 := by decide +kernel
  obtain ⟨hlo, hhi⟩ := h
  rw [← Rat.cast_lt (K := ℝ)] at hlo hhi
  push_cast at hlo hhi
  exact ⟨hlo, hhi⟩

/-- The limit `NYQ_FRAC * fs` is finite, positive and below `fs / 2`: NYQ_FRAC is near enough to 0.45 for its rounding. -/
theorem nyquistLimit_bounds {rate : Nat} (h1 : 1 ≤ rate) (h2 : rate ≤ 1000000) :
    isFinite64 (mul64 nyqFrac (ofNat64 rate)) = true ∧ 0 < ratOf (mul64 nyqFrac (ofNat64 rate)) ∧
      ratOf (mul64 nyqFrac (ofNat64 rate)) < (rate : ℚ) / 2 := by
  obtain ⟨hrf, hr⟩ := ofNat64_exact (n := rate) (by omega)
  have hround := mul64_isRounding (a := nyqFrac) (by decide +kernel) hrf
  rw [hr] at hround
  obtain ⟨hlo, hhi⟩ := nyqFrac_bounds
  have h1R : (1 : ℝ) ≤ rate := by exact_mod_cast h1
  have h2R : (rate : ℝ) ≤ 1000000 := by exact_mod_cast h2
  have hx1 : 2 / 5 ≤ realOf nyqFrac * rate := by nlinarith
  have hx2 : realOf nyqFrac * rate ≤ 23 / 50 * rate := by nlinarith
  obtain ⟨hfin, herr⟩ := hround.near (by linarith) (by linarith)
  obtain ⟨herr1, herr2⟩ := abs_le.mp herr
  have hpos : 0 < realOf (mul64 nyqFrac (ofNat64 rate)) := by linarith
  have hhalf : realOf (mul64 nyqFrac (ofNat64 rate)) < (((rate : ℚ) / 2 : ℚ) : ℝ) := by push_cast; linarith
  exact ⟨hfin, Rat.cast_pos.mp hpos, Rat.cast_lt.mp hhalf⟩

/-- A stored frequency is a finite value of at least F_MIN = 10 Hz, kept by the widening (R120). -/
theorem widen_freq {freq : Word} (h : wordInRange fMin fMax freq = true) :
    isFinite64 (widen (ofBits32 freq)) = true ∧ ratOf (widen (ofBits32 freq)) = ratOf32 (ofBits32 freq) ∧
      10 ≤ ratOf32 (ofBits32 freq) := by
  obtain ⟨n, m, hv, hlo, -⟩ := wordInRange_finite h (nl := false) (ml := ⟨0x41200000, by decide⟩) (nh := false)
    (mh := ⟨0x48F42400, by decide⟩) (by decide) (by decide)
  obtain ⟨hfin, hval⟩ := widen_exact n m
  have hmin : ratOf32 (.fin false ⟨0x41200000, by decide⟩) = 10 := by decide +kernel
  rw [hv]
  exact ⟨hfin, Rat.cast_injective hval, hmin ▸ hlo⟩

section
variable {freq : Word} {fs : B64} (hf : isFinite64 (widen (ofBits32 freq)) = true)
  (hl : isFinite64 (mul64 nyqFrac fs) = true)
include hf hl

theorem effectiveFreq_of_lt (h : ratOf (widen (ofBits32 freq)) < ratOf (mul64 nyqFrac fs)) :
    effectiveFreq freq fs = widen (ofBits32 freq) :=
  if_pos ((lt64_iff hf hl).mpr (Rat.cast_lt.mpr h))

theorem effectiveFreq_of_le (h : ratOf (mul64 nyqFrac fs) ≤ ratOf (widen (ofBits32 freq))) :
    effectiveFreq freq fs = mul64 nyqFrac fs :=
  if_neg fun hlt => h.not_gt (Rat.cast_lt.mp ((lt64_iff hf hl).mp hlt))
end

/-! ### What PROCESS has run (41_process R517–R519) -/

/-- The next state of an accepted PROCESS is its walk's, which keeps all but the samples and the filter state, with the report. -/
theorem exec_process_eq_next {s t : State} (h : processAccepted s) (ht : exec .process s = .next t) :
    ∃ u, sameButAudio (applyRate s) u ∧ t = finish opcProcess .ok u := by
  rw [exec, execProcess, processWith_of_accepted h] at ht
  obtain ⟨u, hu, ht⟩ := andThen_eq_next ht
  exact ⟨u, (processFrames_frame hu).1, complete_eq_next ht⟩

/-- At a new rate an accepted PROCESS runs as from the state the rate change makes: both walks start there (R518). -/
theorem exec_process_of_newRate {s : State} (ha : processAccepted s) (hne : s.arg2 ≠ s.activeRate) :
    exec .process s = exec .process (clearFilter { s with activeRate := s.arg2 }) := by
  have hsame : applyRate (clearFilter { s with activeRate := s.arg2 }) = applyRate s := by
    rw [applyRate_of_new hne]
    exact applyRate_of_same rfl
  have ha' : processAccepted (clearFilter { s with activeRate := s.arg2 }) := ha
  rw [exec, execProcess, processWith_of_accepted ha, exec, execProcess, processWith_of_accepted ha', processWalk,
    processWalk, hsame]
  rfl

/-- PROCESS keeps the band file, rejected, disabled or accepted. -/
theorem exec_process_bands {s t : State} (h : exec .process s = .next t) : t.bands = s.bands := by
  rcases exec_eq_next h with ⟨code, -, rfl⟩ | ⟨u, ⟨-, rfl⟩ | ⟨ha, -⟩, rfl⟩
  · rfl
  · rfl
  · obtain ⟨u', hu', ht⟩ := exec_process_eq_next ha h
    rw [ht, finish_bands, hu']
    exact applyRate_bands s

/-! ### The statements about PROCESS and its datapath -/

/-- Settles O60: the comparison is that of the exact values, and FLUSH_T is a rounding of 1.0e-15. -/
theorem flushZeroesSmallOutputs : Obligations.FlushZeroesSmallOutputs := by
  unfold Obligations.FlushZeroesSmallOutputs
  refine ⟨fun y hy => ⟨flush_of_small hy, flush_of_large hy⟩, rfl, fun neg => ?_, fun z hz => flushT_nearest hz,
    fun neg => ?_, fun c st x => ⟨rfl, rfl⟩⟩
  · cases neg <;> decide +kernel
  · cases neg <;> decide +kernel

/-- Settles O53: on both sides of the clamp the effective frequency is positive and at most a limit below fs/2. -/
theorem effectiveFrequencyStaysBelowNyquist : Obligations.EffectiveFrequencyStaysBelowNyquist := by
  unfold Obligations.EffectiveFrequencyStaysBelowNyquist
  refine ⟨fun freq rate hfreq h1 h2 => ?_, ?_, ?_, fun s t h => exec_process_bands h⟩
  · obtain ⟨hfin, hval, h10⟩ := widen_freq hfreq
    obtain ⟨hlfin, hlpos, hlhalf⟩ := nyquistLimit_bounds h1 h2
    refine ⟨ratOf_ofNat64 (by omega), ?_⟩
    rcases lt_or_ge (ratOf (widen (ofBits32 freq))) (ratOf (mul64 nyqFrac (ofNat64 rate))) with hlt | hge
    · rw [effectiveFreq_of_lt hfin hlfin hlt]
      rw [hval] at hlt ⊢
      exact ⟨hfin, by linarith, hlt.trans hlhalf, fun _ => rfl, fun h => absurd hlt h.not_gt⟩
    · rw [effectiveFreq_of_le hfin hlfin hge]
      rw [hval] at hge
      exact ⟨hlfin, hlpos, hlhalf, fun h => absurd h hge.not_gt, fun _ => rfl⟩
  · rw [show mul64 nyqFrac (ofNat64 48000) = ofNat64 21600 by decide +kernel]
    exact ratOf_ofNat64 (by norm_num)
  · rw [show mul64 nyqFrac (ofNat64 44100) = ofNat64 19845 by decide +kernel]
    exact ratOf_ofNat64 (by norm_num)

/-- Settles O35: a new rate is the same run from the cleared state, and no accepted rate is 0. -/
theorem rateChangeClearsTheFilterState : Obligations.RateChangeClearsTheFilterState := by
  unfold Obligations.RateChangeClearsTheFilterState
  refine ⟨fun s ha hne => exec_process_of_newRate ha hne, fun s t ha ht => ?_, fun s ⟨_, hrate, _⟩ h0 heq => ?_⟩
  · obtain ⟨u, hu, rfl⟩ := exec_process_eq_next ha ht
    rw [finish_activeRate, hu]
    exact applyRate_activeRate s
  · rw [rateOf, heq, h0] at hrate
    exact absurd hrate (by decide)

/-- Settles O32: a disabled PROCESS goes straight to its report. -/
theorem disabledProcessIsABypass : Obligations.DisabledProcessIsABypass := by
  unfold Obligations.DisabledProcessIsABypass
  exact fun s h => (processWith_of_disabled h libm).trans (complete_ok opcProcess s)

end Sys2Proof.Machine

/-! The parameter commands, one family of statements (spec 42_parameters R600–R609): what each answers on every band index, kind
and value, what clamping stores in exact numbers, and which steps can change the band file. -/

namespace Sys2Proof.Machine

open Sys2Proof.Safety

/-! ### One band changed (R606, R607, R608) -/

theorem updateBand_of_getElem? {s : State} {b : Nat} {band : Band} (h : s.bands[b]? = some band) (f : Band → Band) :
    updateBand s b f = { s with bands := s.bands.set b (f band) } := by
  rw [updateBand, List.modify_eq_set_getElem?, h]
  rfl

/-- SET_FREQ on a band that exists: a graphic kind, then a NaN rejects. -/
theorem exec_setFreq_of_exists {s : State} {b : Byte} (hb : b.toNat < nbands s.params.kind) :
    exec (.setFreq b) s =
      if s.params.kind ≠ .parametric then complete opcSetFreq .notWritable s
      else if isNan32 s.arg0 then complete opcSetFreq .badValue s
      else complete opcSetFreq .ok (updateBand s b.toNat fun band => { band with freq := clampFreq s.arg0 }) :=
  if_neg (Nat.not_le.mpr hb)

/-- SET_GAIN on a band that exists, of any kind: only a NaN rejects. -/
theorem exec_setGain_of_exists {s : State} {b : Byte} (hb : b.toNat < nbands s.params.kind) :
    exec (.setGain b) s =
      if isNan32 s.arg0 then complete opcSetGain .badValue s
      else complete opcSetGain .ok (updateBand s b.toNat fun band => { band with gain := clampGain s.arg0 }) :=
  if_neg (Nat.not_le.mpr hb)

/-- SET_Q on a band that exists: a graphic kind, then a NaN rejects. -/
theorem exec_setQ_of_exists {s : State} {b : Byte} (hb : b.toNat < nbands s.params.kind) :
    exec (.setQ b) s =
      if s.params.kind ≠ .parametric then complete opcSetQ .notWritable s
      else if isNan32 s.arg0 then complete opcSetQ .badValue s
      else complete opcSetQ .ok (updateBand s b.toNat fun band => { band with q := clampQ s.arg0 }) :=
  if_neg (Nat.not_le.mpr hb)

section
variable {s : State} {b : Byte} {band : Band} (hb : b.toNat < nbands s.params.kind) (hv : isNan32 s.arg0 = false)
  (hband : s.bands[b.toNat]? = some band)
include hb hv hband

theorem exec_setFreq_of_accepted (hk : s.params.kind = .parametric) :
    exec (.setFreq b) s =
      .next { s with result := 0x1000, bands := s.bands.set b.toNat { band with freq := clampFreq s.arg0 } } := by
  rw [exec_setFreq_of_exists hb, if_neg (not_not.mpr hk), if_neg (Bool.eq_false_iff.mp hv), complete_ok,
    updateBand_of_getElem? hband]
  rfl

theorem exec_setGain_of_accepted :
    exec (.setGain b) s =
      .next { s with result := 0x1100, bands := s.bands.set b.toNat { band with gain := clampGain s.arg0 } } := by
  rw [exec_setGain_of_exists hb, if_neg (Bool.eq_false_iff.mp hv), complete_ok, updateBand_of_getElem? hband]
  rfl

theorem exec_setQ_of_accepted (hk : s.params.kind = .parametric) :
    exec (.setQ b) s =
      .next { s with result := 0x1200, bands := s.bands.set b.toNat { band with q := clampQ s.arg0 } } := by
  rw [exec_setQ_of_exists hb, if_neg (not_not.mpr hk), if_neg (Bool.eq_false_iff.mp hv), complete_ok,
    updateBand_of_getElem? hband]
  rfl
end

/-! ### What a parameter does to the design (R503 a, R506) -/

/-- A gain of either zero is the amplitude 1. -/
theorem amplitude_zero {lm : Libm} (h : MeetsR503abc lm) (neg : Bool) : amplitude lm (signedBits32 neg 0) = one64 := by
  have hz : div64 (widen (ofBits32 (signedBits32 neg 0))) forty64 = zero64 neg := by
    revert neg; decide +kernel
  rw [amplitude, hz, h.powOfZero]

/-- The gain enters the design as the amplitude alone. -/
theorem design_eq_of_amplitude_eq {lm : Libm} {g g' : Word} (h : amplitude lm g = amplitude lm g') (ty : BandType)
    (band : Band) (rate : Nat) : design lm ty { band with gain := g } rate = design lm ty { band with gain := g' } rate := by
  simp only [design, rawDesign, h]

/-- A shelf's design does not look at Q. -/
theorem design_of_ne_peaking {ty : BandType} (h : ty ≠ .peaking) (lm : Libm) (band : Band) (q : Word) (rate : Nat) :
    design lm ty { band with q := q } rate = design lm ty band rate := by
  cases ty with
  | peaking => exact absurd rfl h
  | lowShelf => simp only [design, rawDesign, rawCoeffs]
  | highShelf => simp only [design, rawDesign, rawCoeffs]

/-! ### The payload (R604, R609) -/

theorem payloadHasNan_iff (s : State) :
    payloadHasNan s = true ↔ ∃ i, i < payloadUsed s.params.kind ∧ isNan32 (payloadWord s i) = true := by
  simp only [payloadHasNan, List.any_eq_true, List.mem_range]

theorem payloadHasNan_of_forall {s : State}
    (h : ∀ i, i < payloadUsed s.params.kind → isNan32 (payloadWord s i) = false) : payloadHasNan s = false := by
  rw [Bool.eq_false_iff, Ne, payloadHasNan_iff]
  rintro ⟨i, hi, hnan⟩
  exact Bool.eq_false_iff.mp (h i hi) hnan

theorem exec_updateParams_of_nan {s : State} {tag : Byte} (ht : tag.toNat = acceptedTag s.params.kind)
    (h : payloadHasNan s = true) : exec (.updateParams tag) s = complete opcUpdateParams .badValue s :=
  (if_neg (not_not.mpr ht)).trans (if_pos h)

theorem exec_updateParams_of_accepted {s : State} {tag : Byte} (ht : tag.toNat = acceptedTag s.params.kind)
    (h : payloadHasNan s = false) :
    exec (.updateParams tag) s = .next { s with result := 0x2000, bands := updatedBands s } :=
  (if_neg (not_not.mpr ht)).trans ((if_neg (Bool.eq_false_iff.mp h)).trans (complete_ok _ _))

/-- The three triples of PAYLOAD[0..8]. -/
theorem updatedBands_of_parametric {s : State} (hk : s.params.kind = .parametric) :
    updatedBands s = [parametricBand s 0, parametricBand s 1, parametricBand s 2] := by
  simp only [updatedBands, hk]
  rfl

/-- A graphic kind's bands with their gains replaced. -/
theorem updatedBands_of_graphic {s : State} (hk : s.params.kind ≠ .parametric) :
    updatedBands s = s.bands.mapIdx fun b band => { band with gain := clampGain (payloadWord s b) } := by
  cases h : s.params.kind with
  | parametric => exact absurd h hk
  | graphic10 => simp only [updatedBands, h]
  | graphic31 => simp only [updatedBands, h]

/-! ### Which commands touch the band file (R600) -/

/-- The four commands of 42_parameters. -/
def isParameterCommand (i : Instr) : Prop :=
  (∃ b, i = .setFreq b) ∨ (∃ b, i = .setGain b) ∨ (∃ b, i = .setQ b) ∨ ∃ tag, i = .updateParams tag

/-- Every other command keeps the band file. -/
theorem exec_bands_of_not_parameter {i : Instr} (hi : ¬ isParameterCommand i) {s t : State} (h : exec i s = .next t) :
    t.bands = s.bands := by
  rcases exec_eq_next h with ⟨code, -, rfl⟩ | ⟨u, hu, rfl⟩
  · rfl
  · cases i with
    | nop => obtain rfl : u = s := hu; rfl
    | process => exact exec_process_bands h
    | reset => obtain rfl : u = clearFilter s := hu; rfl
    | setEnabled en => obtain ⟨-, rfl⟩ := hu; rfl
    | setFreq b => exact absurd (.inl ⟨b, rfl⟩) hi
    | setGain b => exact absurd (.inr (.inl ⟨b, rfl⟩)) hi
    | setQ b => exact absurd (.inr (.inr (.inl ⟨b, rfl⟩))) hi
    | updateParams tag => exact absurd (.inr (.inr (.inr ⟨tag, rfl⟩))) hi

/-- A word written to CMD that changes the band file is a parameter command's. -/
theorem exists_parameterCommand_of_issueCommand {w : Word} {s t : State} (h : issueCommand w s = .next t)
    (hne : t.bands ≠ s.bands) : ∃ i, decode w = .command i ∧ isParameterCommand i := by
  rcases issueCommand_eq_next h with ⟨r, -, rfl⟩ | ⟨i, hi, hexec⟩
  · exact absurd rfl hne
  · exact ⟨i, hi, not_not.mp fun hp => hne (exec_bands_of_not_parameter hp hexec)⟩

/-! ### Clamping in exact values (R15, R601–R603) -/

/-- The word is a finite binary32 of the given value. -/
def hasValue32 (w : Word) (x : ℚ) : Prop := ∃ neg mag, ofBits32 w = .fin neg mag ∧ ratOf32 (.fin neg mag) = x

/-- A value below a bound, -Infinity included. -/
def liesBelow (v : B32) (lo : ℚ) : Prop :=
  match v with
  | .nan => False
  | .inf neg => neg = true
  | .fin neg mag => ratOf32 (.fin neg mag) < lo

/-- A value above a bound, +Infinity included. -/
def liesAbove (v : B32) (hi : ℚ) : Prop :=
  match v with
  | .nan => False
  | .inf neg => neg = false
  | .fin neg mag => hi < ratOf32 (.fin neg mag)

theorem lt32_iff_key32 {a b : B32} (ha : a ≠ .nan) (hb : b ≠ .nan) : lt32 a b = true ↔ key32 a < key32 b := by
  simp [lt32, ha, hb]

/-- Every finite key lies strictly between the keys of the infinities. -/
theorem key32_fin_bounds (neg : Bool) (mag : Fin 0x7F800000) :
    key32 (.inf true) < key32 (.fin neg mag) ∧ key32 (.fin neg mag) < key32 (.inf false) := by
  have hm := mag.isLt
  cases neg
  · simp only [key32, signed, if_true, if_false, Bool.false_eq_true]; omega
  · simp only [key32, signed, if_true, if_false, Bool.false_eq_true]; omega

theorem lt32_iff_liesBelow {w : Word} {x : ℚ} (hw : hasValue32 w x) (v : B32) :
    lt32 v (ofBits32 w) = true ↔ liesBelow v x := by
  obtain ⟨n, m, hw, rfl⟩ := hw
  obtain ⟨hlo, hhi⟩ := key32_fin_bounds n m
  rw [hw]
  cases v with
  | nan => simp [lt32, liesBelow]
  | inf neg =>
    refine (lt32_iff_key32 (by simp) (by simp)).trans ?_
    cases neg with
    | true => exact iff_of_true hlo rfl
    | false => exact iff_of_false hhi.not_gt nofun
  | fin neg mag => rw [lt32_iff_key32 (by simp) (by simp), ← not_le, key32_le_iff, not_le, liesBelow]

theorem lt32_iff_liesAbove {w : Word} {x : ℚ} (hw : hasValue32 w x) (v : B32) :
    lt32 (ofBits32 w) v = true ↔ liesAbove v x := by
  obtain ⟨n, m, hw, rfl⟩ := hw
  obtain ⟨hlo, hhi⟩ := key32_fin_bounds n m
  rw [hw]
  cases v with
  | nan => simp [lt32, liesAbove]
  | inf neg =>
    refine (lt32_iff_key32 (by simp) (by simp)).trans ?_
    cases neg with
    | true => exact iff_of_false hlo.not_gt nofun
    | false => exact iff_of_true hhi rfl
  | fin neg mag => rw [lt32_iff_key32 (by simp) (by simp), ← not_le, key32_le_iff, not_le, liesAbove]

theorem not_liesBelow_of_liesAbove {v : B32} {x y : ℚ} (hxy : x ≤ y) (h : liesAbove v y) : ¬ liesBelow v x := by
  cases v with
  | nan => exact id
  | inf neg => cases h; exact nofun
  | fin neg mag => exact (hxy.trans_lt h).not_gt

/-- Clamping answers the nearest value of the range, in numbers. -/
theorem clamp32_nearest {lo hi : Word} {x y : ℚ} (hlo : hasValue32 lo x) (hhi : hasValue32 hi y) (hxy : x ≤ y)
    (v : Word) :
    (liesBelow (ofBits32 v) x → clamp32 v lo hi = lo) ∧ (liesAbove (ofBits32 v) y → clamp32 v lo hi = hi) ∧
      (¬ liesBelow (ofBits32 v) x → ¬ liesAbove (ofBits32 v) y → clamp32 v lo hi = v) := by
  have below := lt32_iff_liesBelow hlo (ofBits32 v)
  have above := lt32_iff_liesAbove hhi (ofBits32 v)
  refine ⟨fun h => if_pos (below.mpr h), fun h => ?_, fun h h' => ?_⟩
  · rw [clamp32, if_neg (mt below.mp (not_liesBelow_of_liesAbove hxy h)), if_pos (above.mpr h)]
  · rw [clamp32, if_neg (mt below.mp h), if_neg (mt above.mp h')]

theorem gain_bounds : hasValue32 gainMin (-12) ∧ hasValue32 gainMax 12 :=
  ⟨⟨true, ⟨0x41400000, by decide⟩, by decide, by decide +kernel⟩,
    ⟨false, ⟨0x41400000, by decide⟩, by decide, by decide +kernel⟩⟩

theorem q_bounds : hasValue32 qMin (ratOf32 (ofBits32 qMin)) ∧ hasValue32 qMax 10 :=
  ⟨⟨false, ⟨0x3DCCCCCD, by decide⟩, by decide, by decide +kernel⟩,
    ⟨false, ⟨0x41200000, by decide⟩, by decide, by decide +kernel⟩⟩

theorem freq_bounds : hasValue32 fMin 10 ∧ hasValue32 fMax 500000 :=
  ⟨⟨false, ⟨0x41200000, by decide⟩, by decide, by decide +kernel⟩,
    ⟨false, ⟨0x48F42400, by decide⟩, by decide, by decide +kernel⟩⟩

/-! ### The statements about the parameter commands -/

/-- Settles O26, by SET_FREQ's checks in their order. -/
theorem setFreqStoresTheClampedValue : Obligations.SetFreqStoresTheClampedValue := by
  unfold Obligations.SetFreqStoresTheClampedValue
  refine fun s b => ⟨decode_encode (i := .setFreq b) rfl, fun hb => ?_, fun hb hk => ?_, fun hb hk hv => ?_,
    fun band hb hk hv hband => exec_setFreq_of_accepted hb hv hband hk⟩
  · exact (exec_setBand_of_absent hb).1.trans (complete_of_ne_ok (by decide) _ s)
  · exact (exec_setFreq_of_exists hb).trans ((if_pos hk).trans (complete_of_ne_ok (by decide) _ s))
  · rw [exec_setFreq_of_exists hb, if_neg (not_not.mpr hk), if_pos hv]
    exact complete_of_ne_ok (by decide) _ s

/-- Settles O27: SET_GAIN's checks in their order, -0.0 lies in the range, and either zero has the amplitude 1. -/
theorem setGainStoresTheClampedValue : Obligations.SetGainStoresTheClampedValue := by
  unfold Obligations.SetGainStoresTheClampedValue
  refine ⟨fun lm ty band rate h => ?_, fun s b band hv hb hband => ?_, fun s b =>
    ⟨decode_encode (i := .setGain b) rfl, fun hb => ?_, fun hb hv => ?_,
      fun band hb hv hband => exec_setGain_of_accepted hb hv hband⟩⟩
  · exact design_eq_of_amplitude_eq ((amplitude_zero h true).trans (amplitude_zero h false).symm) ty band rate
  · have hclamp : clampGain 0x80000000 = 0x80000000 := by decide
    rw [exec_setGain_of_accepted hb (by rw [hv]; decide) hband, hv, hclamp]
  · exact (exec_setBand_of_absent hb).2.1.trans (complete_of_ne_ok (by decide) _ s)
  · exact (exec_setGain_of_exists hb).trans ((if_pos hv).trans (complete_of_ne_ok (by decide) _ s))

/-- Settles O28: SET_Q's checks in their order, and bands 0 and 2 of PARAMETRIC are shelves. -/
theorem setQStoresTheClampedValue : Obligations.SetQStoresTheClampedValue := by
  unfold Obligations.SetQStoresTheClampedValue
  refine ⟨fun lm b band q rate hb => design_of_ne_peaking ?_ lm band q rate, fun s b =>
    ⟨decode_encode (i := .setQ b) rfl, fun hb => ?_, fun hb hk => ?_, fun hb hk hv => ?_,
      fun band hb hk hv hband => exec_setQ_of_accepted hb hv hband hk⟩⟩
  · rcases hb with rfl | rfl
    · exact nofun
    · exact nofun
  · exact (exec_setBand_of_absent hb).2.2.trans (complete_of_ne_ok (by decide) _ s)
  · exact (exec_setQ_of_exists hb).trans ((if_pos hk).trans (complete_of_ne_ok (by decide) _ s))
  · rw [exec_setQ_of_exists hb, if_neg (not_not.mpr hk), if_pos hv]
    exact complete_of_ne_ok (by decide) _ s

/-- Settles O29: one tag, one check over the used words, and the band file the payload gives. -/
theorem updateParamsStoresThePayload : Obligations.UpdateParamsStoresThePayload := by
  unfold Obligations.UpdateParamsStoresThePayload
  intro s tag used accepted
  have haccepted : accepted ↔ tag.toNat = acceptedTag s.params.kind := by
    unfold accepted
    cases s.params.kind <;> exact Iff.rfl
  rw [haccepted]
  refine ⟨decode_encode (i := .updateParams tag) rfl, fun ht => ?_, fun ht h => ?_, fun ht hk h => ?_,
    fun ht hk h => ?_⟩
  · exact (exec_updateParams_of_otherTag ht).trans (complete_of_ne_ok (by decide) _ s)
  · exact (exec_updateParams_of_nan ht ((payloadHasNan_iff s).mpr h)).trans (complete_of_ne_ok (by decide) _ s)
  · rw [exec_updateParams_of_accepted ht (payloadHasNan_of_forall h), updatedBands_of_parametric hk]
    rfl
  · refine ⟨_, exec_updateParams_of_accepted ht (payloadHasNan_of_forall h), rfl, ?_, fun b band hband => ?_⟩
    · simp only [updatedBands_of_graphic hk, List.length_mapIdx]
    · simp only [updatedBands_of_graphic hk, List.getElem?_mapIdx, hband, Option.map_some]

/-- Settles O30, by what one host event can do. -/
theorem onlyParameterCommandsChangeBands : Obligations.OnlyParameterCommandsChangeBands := by
  unfold Obligations.OnlyParameterCommandsChangeBands
  intro s t h hne
  cases step_eq_next h with
  | idle empty eq => exact absurd (by rw [eq]) hne
  | hardwareReset rest event eq => exact .inl (by rw [event]; rfl)
  | read rest a isRead event eq => exact absurd (by rw [eq]) hne
  | store rest ag off w aligned inside notCmd notOperand event eq => exact absurd (by rw [eq, ctlStore_bands]) hne
  | operand rest ag off w aligned inside isOperand owner event eq => exact absurd (by rw [eq, ctlStore_bands]) hne
  | sample rest ag i w inside event eq => exact absurd (by rw [eq]) hne
  | issue rest ag w event eq =>
    refine .inr ⟨ag, w, by rw [event]; rfl, ?_⟩
    obtain ⟨i, hi, hp⟩ := exists_parameterCommand_of_issueCommand eq hne
    simpa only [hi, Decoded.command.injEq, isParameterCommand] using hp

/-- Settles O31: each clamp is `clamp32` between bounds of known value. -/
theorem clampsStoreTheNearestAdmittedValue : Obligations.ClampsStoreTheNearestAdmittedValue := by
  unfold Obligations.ClampsStoreTheNearestAdmittedValue
  intro v hv below above qMinValue
  obtain ⟨gainBelow, gainAbove, gainWithin⟩ := clamp32_nearest gain_bounds.1 gain_bounds.2 (by norm_num) v
  obtain ⟨qBelow, qAbove, qWithin⟩ := clamp32_nearest q_bounds.1 q_bounds.2 (by decide +kernel) v
  obtain ⟨freqBelow, freqAbove, freqWithin⟩ := clamp32_nearest freq_bounds.1 freq_bounds.2 (by norm_num) v
  refine ⟨gainBelow, gainAbove, gainWithin, qBelow, qAbove, qWithin, freqBelow, freqAbove, freqWithin, ?_⟩
  rintro s b band rfl hb hband
  exact ⟨exec_setGain_of_accepted hb hv hband, fun hk =>
    ⟨exec_setQ_of_accepted hb hv hband hk, exec_setFreq_of_accepted hb hv hband hk⟩⟩

end Sys2Proof.Machine

/-! What a completed command word reports, and what a rejected one leaves unchanged (spec 60_exceptions R700-R702). -/

namespace Sys2Proof.Machine

/-! ### Codes and RESULT (60_exceptions R700, R701) -/

theorem codeByte_le (code : ResultCode) : (codeByte code).toNat ≤ 8 := by
  cases code <;> decide

@[simp] theorem codeByte_toNat_eq_zero_iff (code : ResultCode) : (codeByte code).toNat = 0 ↔ code = .ok := by
  cases code <;> decide

/-- RESULT[7:0] is the code. -/
theorem resultWord_mod (opc : Byte) (code : ResultCode) : (resultWord opc code).toNat % 256 = (codeByte code).toNat := by
  have hopc := opc.isLt
  have hcode := codeByte_le code
  rw [resultWord_eq_ofNat, BitVec.toNat_ofNat]
  omega

/-! ### Every completed word (60_exceptions R701, R702) -/

/-- A word that completes has its OPC reported: with a non-zero code over the state it found, or with OK over the effect of
its command. -/
theorem issueCommand_eq_finish {w : Word} {s t : State} (h : issueCommand w s = .next t) :
    (∃ code, code ≠ .ok ∧ t = finish (fieldsOf w).opc code s) ∨
      ∃ i u, decode w = .command i ∧ commandEffect i s u ∧ t = finish (fieldsOf w).opc .ok u := by
  rcases issueCommand_eq_next h with ⟨r, -, ht⟩ | ⟨i, hi, hexec⟩
  · exact .inl ⟨.illegal, by decide, ht⟩
  · rw [← opcodeOf_of_decode hi]
    rcases exec_eq_next hexec with hreject | ⟨u, hu, ht⟩
    · exact .inl hreject
    · exact .inr ⟨i, u, hi, hu, ht⟩

/-- A word that completes has reported over a state with the ERR it found. -/
theorem exists_finish_of_issueCommand {w : Word} {s t : State} (h : issueCommand w s = .next t) :
    ∃ code u, u.err = s.err ∧ t = finish (fieldsOf w).opc code u := by
  rcases issueCommand_eq_finish h with ⟨code, -, ht⟩ | ⟨i, u, -, hu, ht⟩
  · exact ⟨code, s, rfl, ht⟩
  · obtain ⟨-, -, -, -, -, -, -, -, -, herr⟩ := commandEffect_operands hu
    exact ⟨.ok, u, herr, ht⟩

/-! ### The statements about reports -/

/-- Settles O39: every completed word ends in `finish` with the word's OPC, and no command's effect writes ERR. -/
theorem everyCommandReportsOpcodeAndCode : Obligations.EveryCommandReportsOpcodeAndCode := by
  unfold Obligations.EveryCommandReportsOpcodeAndCode
  intro w s t h
  obtain ⟨code, u, herr, rfl⟩ := exists_finish_of_issueCommand h
  refine ⟨(codeByte code).toNat, codeByte_le code, ?_, ?_⟩
  · rw [finish_result, resultWord_eq_ofNat, toNat_fieldsOf_opc]
  · simp only [finish_err, errAfter, codeByte_toNat_eq_zero_iff, herr]

/-- Settles O40: a completed word either only reports, or has taken effect and reports OK, whose code is 0. -/
theorem rejectionsOnlyReport : Obligations.RejectionsOnlyReport := by
  unfold Obligations.RejectionsOnlyReport
  intro w s t h hcode
  rcases issueCommand_eq_finish h with ⟨code, hne, rfl⟩ | ⟨i, u, -, -, rfl⟩
  · rw [Host.Outcome.next.inj (complete_of_ne_ok hne (fieldsOf w).opc s)]
  · rw [finish_result, resultWord_mod] at hcode
    exact absurd rfl hcode

end Sys2Proof.Machine

/-! Encoding and decoding (spec 30_encoding R302, R304–R307), and the invariant of every reachable state (10_state R113, R114,
R120–R124; 20_memory R201, R206): reset meets it, and each shared update, each command and each step keeps it. -/

namespace Sys2Proof

/-- Settles O2, by the decoder's inverse on fields. -/
theorem decodeInvertsEncode : Obligations.DecodeInvertsEncode := by
  unfold Obligations.DecodeInvertsEncode
  exact fun i h => decode_encode h

/-- Settles O3: a word decodes to a command exactly when it is that command's word. -/
theorem encodeInvertsDecode : Obligations.EncodeInvertsDecode := by
  unfold Obligations.EncodeInvertsDecode
  exact fun w i h => decode_eq_command_iff.mp h

/-- Settles O1: closed words, which the decoder evaluates. -/
theorem writtenOutWordsDecode : Obligations.WrittenOutWordsDecode := by
  unfold Obligations.WrittenOutWordsDecode
  decide

end Sys2Proof

namespace Sys2Proof.Machine

open Sys2Proof.Safety

/-! ### States with the same files -/

/-- The invariant looks at no other field. -/
theorem invariant_of_sameFiles {s t : State} (h : Invariant s) (params : t.params = s.params) (bands : t.bands = s.bands)
    (left : t.left = s.left) (right : t.right = s.right) (rate : t.activeRate = s.activeRate)
    (result : t.result = s.result) (mem : t.mem = s.mem) : Invariant t := by
  obtain ⟨h1, h2, h3, h4, h5, h6, h7, h8, h9, h10⟩ := h
  refine ⟨?_, ?_, ?_, ?_, ?_, ?_, ?_, ?_, ?_, ?_⟩
  all_goals simpa only [params, bands, left, right, rate, result, mem]

/-! ### Reset (10_state R122–R124, R130) -/

theorem resetBands_inRange (k : EqKind) : (resetBands k).all bandInRange = true := by
  cases k <;> decide +kernel

theorem length_resetBands (k : EqKind) : (resetBands k).length = nbands k := by
  cases k <;> rfl

theorem fixedBandsKept_resetBands (k : EqKind) : fixedBandsKept k (resetBands k) = true := by
  cases k with
  | parametric => rfl
  | graphic10 => exact beq_self_eq_true _
  | graphic31 => exact beq_self_eq_true _

theorem invariant_resetWith {p : Params} (h : p.valid = true) : Invariant (State.resetWith p) where
  paramsValid := h
  bandCount := length_resetBands p.kind
  leftCount := List.length_replicate
  rightCount := List.length_replicate
  bandsInRange := resetBands_inRange p.kind
  bandsFixed := fixedBandsKept_resetBands p.kind
  rateInRange := (by decide : (0 : Word).toNat ≤ maxRate)
  resultShape := (by decide : resultShaped 0 = true)
  memCanonical := rfl
  memWhole := rfl

theorem invariant_hardwareReset {s : State} (h : Invariant s) : Invariant (hardwareReset s) :=
  invariant_of_sameFiles (invariant_resetWith h.paramsValid) rfl rfl rfl rfl rfl rfl rfl

/-! ### The shared updates -/

theorem resultShaped_resultWord (opc : Byte) (code : ResultCode) : resultShaped (resultWord opc code) = true := by
  have hopc := opc.isLt
  have hcode := codeByte_le code
  rw [resultShaped, decide_eq_true_eq, resultWord_mod, resultWord_eq_ofNat, BitVec.toNat_ofNat]
  omega

theorem invariant_finish {s : State} (h : Invariant s) (opc : Byte) (code : ResultCode) : Invariant (finish opc code s) where
  __ := h
  resultShape := resultShaped_resultWord opc code

theorem invariant_clearFilter {s : State} (h : Invariant s) : Invariant (clearFilter s) where
  __ := h
  leftCount := List.length_replicate
  rightCount := List.length_replicate

theorem invariant_applyRate {s : State} (h : Invariant s) (hrate : rateOf s ≤ maxRate) : Invariant (applyRate s) := by
  by_cases hs : s.arg2 = s.activeRate
  · rwa [applyRate_of_same hs]
  · rw [applyRate_of_new hs]
    exact invariant_clearFilter { h with rateInRange := hrate }

theorem invariant_ctlStore {s : State} (h : Invariant s) (r : CtlReg) (w : Word) : Invariant (ctlStore r w s) := by
  cases r <;> exact invariant_of_sameFiles h rfl rfl rfl rfl rfl rfl rfl

theorem invariant_writeWord {s : State} (h : Invariant s) {i : Nat} (hi : i < s.params.sampleMemWords) (w : Word) :
    Invariant { s with mem := memWriteWord s.mem i w } where
  __ := h
  memCanonical := wf_memWriteWord h.memCanonical i w
  memWhole := wholeWords_memWriteWord h.memWhole hi w

/-! ### The band file (10_state R120, R123, R124) -/

theorem forall_mem_modify {α : Type} {p : α → Prop} {f : α → α} {l : List α} (hf : ∀ a, p a → p (f a))
    (h : ∀ a ∈ l, p a) (i : Nat) : ∀ a ∈ l.modify i f, p a := by
  intro a ha
  obtain ⟨j, hj⟩ := List.mem_iff_getElem?.mp ha
  rw [List.getElem?_modify] at hj
  obtain ⟨b, hb, hab⟩ := Option.map_eq_some_iff.mp hj
  have hpb := h b (List.mem_of_getElem? hb)
  split at hab
  · exact hab ▸ hf b hpb
  · exact hab ▸ hpb

theorem bandInRange_iff (b : Band) : bandInRange b = true ↔ wordInRange fMin fMax b.freq = true ∧
    wordInRange gainMin gainMax b.gain = true ∧ wordInRange qMin qMax b.q = true := by
  simp only [bandInRange, Bool.and_eq_true, and_assoc]

theorem fixedBandsKept_congr {k : EqKind} {l m : List Band} (h : k ≠ .parametric → l.map fixedPart = m.map fixedPart)
    (hm : fixedBandsKept k m = true) : fixedBandsKept k l = true := by
  cases k with
  | parametric => rfl
  | graphic10 => rwa [fixedBandsKept, h nofun]
  | graphic31 => rwa [fixedBandsKept, h nofun]

/-- A band file of the same length, in range, with the fixed parts of a graphic kind kept. -/
theorem invariant_setBands {s : State} (h : Invariant s) {l : List Band} (hlen : l.length = s.bands.length)
    (hrange : l.all bandInRange = true)
    (hfixed : s.params.kind ≠ .parametric → l.map fixedPart = s.bands.map fixedPart) :
    Invariant { s with bands := l } where
  __ := h
  bandCount := hlen.trans h.bandCount
  bandsInRange := hrange
  bandsFixed := fixedBandsKept_congr hfixed h.bandsFixed

theorem updateBand_inRange {s : State} (h : Invariant s) {f : Band → Band} (b : Nat)
    (hf : ∀ band, bandInRange band = true → bandInRange (f band) = true) :
    (s.bands.modify b f).all bandInRange = true :=
  List.all_eq_true.mpr (forall_mem_modify hf (List.all_eq_true.mp h.bandsInRange) b)

/-- A payload word that its kind uses is no NaN where the payload has none (R604). -/
theorem payloadWord_notNan {s : State} (h : payloadHasNan s = false) {i : Nat} (hi : i < payloadUsed s.params.kind) :
    isNan32 (payloadWord s i) = false := by
  rw [← Bool.not_eq_true]
  exact fun hn => Bool.eq_false_iff.mp h ((payloadHasNan_iff s).mpr ⟨i, hi, hn⟩)

theorem parametricBand_inRange {s : State} (hk : s.params.kind = .parametric) (h : payloadHasNan s = false) {b : Nat}
    (hb : b < 3) : bandInRange (parametricBand s b) = true := by
  have hused : payloadUsed s.params.kind = 9 := by rw [hk]; rfl
  have hnan : ∀ j, j < 3 → isNan32 (payloadWord s (3 * b + j)) = false := fun j hj => payloadWord_notNan h (by omega)
  exact (bandInRange_iff _).mpr ⟨clampFreq_inRange (hnan 0 (by decide)), clampGain_inRange (hnan 1 (by decide)),
    clampQ_inRange (hnan 2 (by decide))⟩

theorem nbands_le_payloadUsed (k : EqKind) : nbands k ≤ payloadUsed k := by
  cases k <;> decide

theorem updatedBands_length_and_inRange {s : State} (h : Invariant s) (hnan : payloadHasNan s = false) :
    (updatedBands s).length = s.bands.length ∧ (updatedBands s).all bandInRange = true := by
  by_cases hk : s.params.kind = .parametric
  · rw [updatedBands_of_parametric hk, h.bandCount, hk]
    refine ⟨rfl, ?_⟩
    simp only [List.all_cons, List.all_nil, parametricBand_inRange hk hnan (b := 0) (by decide),
      parametricBand_inRange hk hnan (b := 1) (by decide), parametricBand_inRange hk hnan (b := 2) (by decide),
      Bool.and_true]
  · rw [updatedBands_of_graphic hk]
    refine ⟨List.length_mapIdx, List.all_eq_true.mpr fun band hband => ?_⟩
    obtain ⟨i, hi, rfl⟩ := List.mem_mapIdx.mp hband
    obtain ⟨hfreq, -, hq⟩ := (bandInRange_iff _).mp (List.all_eq_true.mp h.bandsInRange _ (List.getElem_mem hi))
    have hused := nbands_le_payloadUsed s.params.kind
    have hcount := h.bandCount
    exact (bandInRange_iff _).mpr ⟨hfreq, clampGain_inRange (payloadWord_notNan hnan (by omega)), hq⟩

/-! ### Commands and steps -/

/-- The walk of an accepted PROCESS stays in the buffer, so in the sample space, and keeps the lanes' lengths. -/
theorem invariant_processWalk {lm : Libm} {s u : State} (h : Invariant s) (ha : processAccepted s)
    (hu : processWalk lm s = .next u) : Invariant u := by
  obtain ⟨-, -, hrate, heven, hfits⟩ := ha
  obtain ⟨h1, h2, h3, h4, h5, h6, h7, h8, h9, h10⟩ := invariant_applyRate h hrate
  obtain ⟨hframe, -, hleft, hright⟩ := processFrames_frame hu
  obtain ⟨hwf, hwhole⟩ := processFrames_mem (n := (applyRate s).params.sampleMemWords) hu
    (by rw [two_mul_half heven, applyRate_params]; exact hfits) h9 h10
  rw [hframe]
  exact ⟨h1, h2, hleft.trans h3, hright.trans h4, h5, h6, h7, h8, hwf, hwhole⟩

theorem invariant_commandEffect {i : Instr} {s u : State} (h : Invariant s) (hu : commandEffect i s u) : Invariant u := by
  have hfixed := fun hk => commandEffect_fixedPart (i := i) hk hu
  cases i with
  | nop => exact hu ▸ h
  | reset => exact hu ▸ invariant_clearFilter h
  | process =>
    rcases hu with ⟨-, rfl⟩ | ⟨ha, hw⟩
    · exact h
    · exact invariant_processWalk h ha hw
  | setEnabled en =>
    obtain ⟨-, rfl⟩ := hu
    exact invariant_of_sameFiles h rfl rfl rfl rfl rfl rfl rfl
  | setFreq b =>
    obtain ⟨-, -, hnan, rfl⟩ := hu
    refine invariant_setBands h (List.length_modify ..) (updateBand_inRange h _ fun band hband => ?_) hfixed
    obtain ⟨-, hgain, hq⟩ := (bandInRange_iff band).mp hband
    exact (bandInRange_iff _).mpr ⟨clampFreq_inRange hnan, hgain, hq⟩
  | setGain b =>
    obtain ⟨-, hnan, rfl⟩ := hu
    refine invariant_setBands h (List.length_modify ..) (updateBand_inRange h _ fun band hband => ?_) hfixed
    obtain ⟨hfreq, -, hq⟩ := (bandInRange_iff band).mp hband
    exact (bandInRange_iff _).mpr ⟨hfreq, clampGain_inRange hnan, hq⟩
  | setQ b =>
    obtain ⟨-, -, hnan, rfl⟩ := hu
    refine invariant_setBands h (List.length_modify ..) (updateBand_inRange h _ fun band hband => ?_) hfixed
    obtain ⟨hfreq, hgain, -⟩ := (bandInRange_iff band).mp hband
    exact (bandInRange_iff _).mpr ⟨hfreq, hgain, clampQ_inRange hnan⟩
  | updateParams tag =>
    obtain ⟨-, hnan, rfl⟩ := hu
    obtain ⟨hlen, hrange⟩ := updatedBands_length_and_inRange h hnan
    exact invariant_setBands h hlen hrange hfixed

theorem invariant_issueCommand {w : Word} {s t : State} (h : Invariant s) (ht : issueCommand w s = .next t) :
    Invariant t := by
  rcases issueCommand_eq_finish ht with ⟨code, -, rfl⟩ | ⟨i, u, -, hu, rfl⟩
  · exact invariant_finish h _ _
  · exact invariant_finish (invariant_commandEffect h hu) _ _

theorem invariant_step {s t : State} (h : Invariant s) (ht : step s = .next t) : Invariant t := by
  have hport : ∀ p o, Invariant { s with port := p, argOwner := o } := fun p o =>
    invariant_of_sameFiles h rfl rfl rfl rfl rfl rfl rfl
  cases step_eq_next ht with
  | idle empty eq => exact eq ▸ h
  | hardwareReset rest event eq => exact eq ▸ invariant_hardwareReset (hport rest s.argOwner)
  | read rest a isRead event eq => exact eq ▸ invariant_of_sameFiles h rfl rfl rfl rfl rfl rfl rfl
  | store rest ag off w aligned inside notCmd notOperand event eq =>
    exact eq ▸ invariant_ctlStore (hport rest s.argOwner) _ w
  | operand rest ag off w aligned inside isOperand owner event eq => exact eq ▸ invariant_ctlStore (hport rest _) _ w
  | issue rest ag w event eq => exact invariant_issueCommand (hport rest _) eq
  | sample rest ag i w inside event eq => exact eq ▸ invariant_writeWord (hport rest s.argOwner) inside w

/-- Settles O50, by what one host event can do. -/
theorem everyStepKeepsTheInvariant : Obligations.EveryStepKeepsTheInvariant := by
  unfold Obligations.EveryStepKeepsTheInvariant
  exact fun s t h ht => invariant_step h ht

theorem construct_eq_some {p : Params} {s : State} (h : construct p = some s) : p.valid = true ∧ s = State.resetWith p := by
  unfold construct at h
  split at h
  · next hp => exact ⟨hp, (Option.some.inj h).symm⟩
  · cases h

/-- Settles O49: a construction that succeeds had admitted parameters. -/
theorem resetMeetsTheInvariant : Obligations.ResetMeetsTheInvariant := by
  unfold Obligations.ResetMeetsTheInvariant
  refine ⟨invariant_resetWith (by decide), fun p s h => ?_⟩
  obtain ⟨hp, rfl⟩ := construct_eq_some h
  exact invariant_resetWith hp

end Sys2Proof.Machine

/-! The host's side of a step (spec 10_state R103, R113–R117; 20_memory R203, R220; 30_encoding R300, R311; 60_exceptions R707,
R720, R726; 70_reset_and_hazards R800, R821): reset, commands and the operand registers through the port, the hosts' lock, and
why no answer depends on the agent. -/

namespace Sys2Proof.Machine

open Sys2Proof.Safety

/-! ### Reset, idling and construction -/

theorem step_hardwareReset (s : State) (rest : List HostEvent) :
    step { s with port := .hardwareReset :: rest } =
      .next { State.resetWith s.params with port := rest, nanCount := s.nanCount } := rfl

/-- Settles O47: the event is a construction, and the values are those of `State.resetWith`. -/
theorem hardwareResetRestoresEveryRegister : Obligations.HardwareResetRestoresEveryRegister := by
  unfold Obligations.HardwareResetRestoresEveryRegister
  refine ⟨step_hardwareReset, fun p => ⟨rfl, rfl, rfl, rfl, rfl, rfl, fun i => ?_, rfl, rfl, fun a => rfl⟩⟩
  exact Vector.getElem_replicate ..

theorem valid_iff (p : Params) : p.valid = true ↔ 4096 ≤ p.sampleMemWords ∧ p.sampleMemWords ≤ 2 ^ 30 :=
  decide_eq_true_iff

/-- Settles O48: construction is a case split on R8's range. -/
theorem constructionRejectsBadParameters : Obligations.ConstructionRejectsBadParameters := by
  unfold Obligations.ConstructionRejectsBadParameters
  exact fun p => ⟨fun h => if_pos ((valid_iff p).mpr h), fun h => if_neg (mt (valid_iff p).mp h)⟩

/-- Settles O7: a step serves the head of the port, and there is none. -/
theorem idleBlockHoldsItsState : Obligations.IdleBlockHoldsItsState := by
  unfold Obligations.IdleBlockHoldsItsState
  intro s h
  rw [step, serveNext, h]

/-! ### Commands through CMD (30_encoding R300, R306) -/

theorem issueCommand_of_command {w : Word} {i : Instr} (h : decode w = .command i) (s : State) :
    issueCommand w s = exec i s := by
  rw [issueCommand, h]

theorem decode_of_decodeTableWord {nbits w : Nat} {i : Instr} (h : decodeTableWord nbits w = some i) :
    decode (tableWord nbits w) = .command i := by
  unfold decodeTableWord at h
  split at h
  · next j hj => rw [hj, Option.some.inj h]
  · cases h

/-- The write of a command's word to CMD by the agent whose argument sequence is open ends it and runs the command. -/
theorem step_wrCmd_of_owner {s : State} {ag : Agent} {i : Instr} (hwf : i.wellFormed = true)
    (ho : s.argOwner = some ag) (rest : List HostEvent) :
    step { s with port := wrCmd ag i :: rest } = exec i { s with port := rest, argOwner := none } := by
  rw [show wrCmd ag i = wrCtl ag 0x014 (encode i) from rfl, step_wrCmd, issueCommand_encode hwf, ho, lockAfterCmd,
    if_pos rfl]

/-- Settles O6: a write to CMD issues the decoded command; `withFetchWord` places such a write. -/
theorem stepRunsTheDecodedCommand : Obligations.StepRunsTheDecodedCommand := by
  unfold Obligations.StepRunsTheDecodedCommand
  refine ⟨fun s ag rest w i h => ?_, fun s nbits w i h => ?_⟩
  · exact (step_wrCmd s ag w rest).trans (issueCommand_of_command h _)
  · exact (step_wrCmd s .control (tableWord nbits w) s.port).trans
      (issueCommand_of_command (decode_of_decodeTableWord h) _)

/-- No command word writes the construction parameters, an operand register or the lock. -/
theorem issueCommand_operands {w : Word} {s t : State} (h : issueCommand w s = .next t) :
    t.params = s.params ∧ t.arg0 = s.arg0 ∧ t.arg1 = s.arg1 ∧ t.arg2 = s.arg2 ∧ t.payload = s.payload ∧
      t.argOwner = s.argOwner := by
  rcases issueCommand_eq_finish h with ⟨code, -, rfl⟩ | ⟨i, u, -, hu, rfl⟩
  · exact ⟨rfl, rfl, rfl, rfl, rfl, rfl⟩
  · obtain ⟨hp, h0, h1, h2, hpay, ho, -⟩ := commandEffect_operands hu
    exact ⟨hp, h0, h1, h2, hpay, ho⟩

@[simp] theorem ctlStore_params (r : CtlReg) (w : Word) (s : State) : (ctlStore r w s).params = s.params := by
  cases r <;> rfl

/-- Settles O51, by what one host event can do. -/
theorem constructionParametersNeverChange : Obligations.ConstructionParametersNeverChange := by
  unfold Obligations.ConstructionParametersNeverChange
  intro s t h
  cases step_eq_next h with
  | idle empty eq => rw [eq]
  | hardwareReset rest event eq => rw [eq]; rfl
  | read rest a isRead event eq => rw [eq]
  | store rest ag off w aligned inside notCmd notOperand event eq => rw [eq, ctlStore_params]
  | operand rest ag off w aligned inside isOperand owner event eq => rw [eq, ctlStore_params]
  | issue rest ag w event eq => exact (issueCommand_operands eq).1
  | sample rest ag i w inside event eq => rw [eq]

/-! ### Sample words (20_memory R203) -/

theorem memGet_memWriteWord_byte (m : Memory) (i : Nat) (w : Word) {j : Nat} (hj : j < 4) :
    memGet (memWriteWord m i w) (4 * i + j) = some (byteOf w j) := by
  obtain ⟨h0, h1, h2, h3⟩ := memGet_memWriteWord_same m i w
  obtain rfl | rfl | rfl | rfl : j = 0 ∨ j = 1 ∨ j = 2 ∨ j = 3 := by omega
  · exact h0
  · exact h1
  · exact h2
  · exact h3

theorem getLsbD_byteOf (w : Word) (j : Nat) {k : Nat} (hk : k < 8) : (byteOf w j).getLsbD k = w.getLsbD (8 * j + k) := by
  rw [byteOf, BitVec.getLsbD_extractLsb', decide_eq_true hk, Bool.true_and]

/-- Settles O11: byte `j` of a word written is its bits [8j+7 : 8j]. -/
theorem sampleWordsAreLittleEndian : Obligations.SampleWordsAreLittleEndian := by
  unfold Obligations.SampleWordsAreLittleEndian
  intro s ag rest i j w hi hj
  exact ⟨_, step_wrSmp hi ag w rest, _, memGet_memWriteWord_byte s.mem i w hj, fun k hk => getLsbD_byteOf w j hk⟩

/-! ### The operand registers (10_state R103, R116, R117) -/

theorem mayWriteOperands_iff (ag : Agent) (owner : Option Agent) :
    mayWriteOperands ag owner = true ↔ owner = none ∨ owner = some ag := decide_eq_true_iff

/-- R103's offsets of ARG0..2 and PAYLOAD. -/
def isOperandOffset (off : Nat) : Prop :=
  off = 0x018 ∨ off = 0x01C ∨ off = 0x020 ∨ (0x040 ≤ off ∧ off < 0x0C0 ∧ off % 4 = 0)

theorem isOperand_of_isOperandOffset {off : Nat} (h : isOperandOffset off) :
    off % 4 = 0 ∧ off < 0x400 ∧ isOperand (ctlReg off) = true := by
  rcases h with rfl | rfl | rfl | ⟨h1, h2, h3⟩
  · exact ⟨rfl, by decide, rfl⟩
  · exact ⟨rfl, by decide, rfl⟩
  · exact ⟨rfl, by decide, rfl⟩
  · have hpay := ctlReg_payload ⟨(off - 0x040) / 4, by omega⟩
    rw [show 0x040 + 4 * ((off - 0x040) / 4) = off by omega] at hpay
    exact ⟨h3, by omega, by rw [hpay]; rfl⟩

theorem isOperandOffset_ctlOffset {r : CtlReg} (h : isOperand r = true) : isOperandOffset (ctlOffset r) := by
  cases r with
  | arg0 => exact .inl rfl
  | arg1 => exact .inr (.inl rfl)
  | arg2 => exact .inr (.inr (.inl rfl))
  | payload i =>
    have hi := i.isLt
    refine .inr (.inr (.inr ?_))
    simp only [ctlOffset]
    omega
  | _ => cases h

/-- An operand register is written at no offset but its own. -/
theorem eq_ctlOffset_of_isOperand {off : Nat} (h4 : off % 4 = 0) (h : isOperand (ctlReg off) = true) :
    off = ctlOffset (ctlReg off) :=
  eq_ctlOffset h4 rfl fun hr => by rw [hr] at h; cases h

section
variable {s : State} {ag : Agent} (h : s.argOwner = none ∨ s.argOwner = some ag)
include h

/-- A write of an operand register stores the word and opens the agent's argument sequence. -/
theorem step_wrOperand_of_ctlReg {off : Nat} {r : CtlReg} (hr : ctlReg off = r) (ho : isOperand r = true)
    (h4 : off % 4 = 0) (hoff : off < 0x400) (w : Word) (rest : List HostEvent) :
    step { s with port := wrCtl ag off w :: rest } =
      .next (ctlStore r w { s with port := rest, argOwner := some ag }) := by
  subst hr
  exact step_wrOperand h4 hoff ho ((mayWriteOperands_iff ag _).mpr h) w rest

theorem step_wrArg0 (w : Word) (rest : List HostEvent) : step { s with port := wrCtl ag 0x018 w :: rest } =
    .next { s with port := rest, arg0 := w, argOwner := some ag } :=
  step_wrOperand_of_ctlReg h (r := .arg0) rfl rfl rfl (by decide) w rest

theorem step_wrArg1 (w : Word) (rest : List HostEvent) : step { s with port := wrCtl ag 0x01C w :: rest } =
    .next { s with port := rest, arg1 := w, argOwner := some ag } :=
  step_wrOperand_of_ctlReg h (r := .arg1) rfl rfl rfl (by decide) w rest

theorem step_wrArg2 (w : Word) (rest : List HostEvent) : step { s with port := wrCtl ag 0x020 w :: rest } =
    .next { s with port := rest, arg2 := w, argOwner := some ag } :=
  step_wrOperand_of_ctlReg h (r := .arg2) rfl rfl rfl (by decide) w rest

theorem step_wrPayload (i : Fin 32) (w : Word) (rest : List HostEvent) :
    step { s with port := wrCtl ag (0x040 + 4 * i.val) w :: rest } =
      .next { s with port := rest, payload := s.payload.set i w, argOwner := some ag } :=
  step_wrOperand_of_ctlReg h (ctlReg_payload i) rfl (by omega) (by omega) w rest
end

/-- Settles O17: reads and writes by the register an offset names, and `commandEffect` writes none of them. -/
theorem operandRegistersAreReadWrite : Obligations.OperandRegistersAreReadWrite := by
  unfold Obligations.OperandRegistersAreReadWrite
  refine ⟨?_, fun w s t h => ?_, fun p => ⟨rfl, rfl, rfl, fun i => ?_⟩⟩
  · intro s ag rest w mayWrite
    refine ⟨fun h => step_wrArg0 h w rest, fun h => step_wrArg1 h w rest, fun h => step_wrArg2 h w rest,
      step_rdCtl_of_ctlReg (r := .arg0) rfl rfl (by decide) s ag rest,
      step_rdCtl_of_ctlReg (r := .arg1) rfl rfl (by decide) s ag rest,
      step_rdCtl_of_ctlReg (r := .arg2) rfl rfl (by decide) s ag rest,
      fun i => ⟨fun h => step_wrPayload h i w rest, ?_⟩⟩
    exact step_rdCtl_of_ctlReg (ctlReg_payload i) (by omega) (by omega) s ag rest
  · obtain ⟨-, h0, h1, h2, hpay, -⟩ := issueCommand_operands h
    exact ⟨h0, h1, h2, hpay⟩
  · exact Vector.getElem_replicate ..

/-- Settles O20, by the register each offset names. -/
theorem reportingRegistersRead : Obligations.ReportingRegistersRead := by
  unfold Obligations.ReportingRegistersRead
  exact fun s ag rest => ⟨step_rdCtl_of_ctlReg (r := .result) rfl rfl (by decide) s ag rest,
    step_rdCtl_of_ctlReg (r := .activeRate) rfl rfl (by decide) s ag rest,
    step_rdCtl_of_ctlReg (r := .cmd) rfl rfl (by decide) s ag rest⟩

/-! ### Which steps change an operand register (10_state R116, R117; 70_reset_and_hazards R821) -/

theorem ctlRead_operand_congr {s t : State} {r : CtlReg} (hr : isOperand r = true) (h0 : t.arg0 = s.arg0)
    (h1 : t.arg1 = s.arg1) (h2 : t.arg2 = s.arg2) (hp : t.payload = s.payload) : ctlRead t r = ctlRead s r := by
  cases r with
  | arg0 => exact h0
  | arg1 => exact h1
  | arg2 => exact h2
  | payload i => simp only [ctlRead, hp]
  | _ => cases hr

theorem ctlRead_ctlStore_same {r : CtlReg} (hr : isOperand r = true) (w : Word) (s : State) :
    ctlRead (ctlStore r w s) r = w := by
  cases r with
  | arg0 => rfl
  | arg1 => rfl
  | arg2 => rfl
  | payload i => exact Vector.getElem_set_self ..
  | _ => cases hr

theorem ctlRead_ctlStore_other {r r' : CtlReg} (hr : isOperand r = true) (hne : r' ≠ r) (w : Word) (s : State) :
    ctlRead (ctlStore r' w s) r = ctlRead s r := by
  cases r with
  | arg0 => cases r' with
    | arg0 => exact absurd rfl hne
    | _ => rfl
  | arg1 => cases r' with
    | arg1 => exact absurd rfl hne
    | _ => rfl
  | arg2 => cases r' with
    | arg2 => exact absurd rfl hne
    | _ => rfl
  | payload i =>
    cases r' with
    | payload j => exact Vector.getElem_set_ne j.isLt i.isLt fun hij => hne (congrArg CtlReg.payload (Fin.ext hij))
    | _ => rfl
  | _ => cases hr

@[simp] theorem ctlStore_argOwner (r : CtlReg) (w : Word) (s : State) : (ctlStore r w s).argOwner = s.argOwner := by
  cases r <;> rfl

/-- A step that changes an operand register is hardware reset, or an agent's write of the new value at the register's own
offset, with no other argument sequence open. -/
theorem step_changes_operand {s t : State} {r : CtlReg} (hr : isOperand r = true) (h : step s = .next t)
    (hne : ctlRead t r ≠ ctlRead s r) : s.port.head? = some .hardwareReset ∨
      ∃ ag, s.port.head? = some (wrCtl ag (ctlOffset r) (ctlRead t r)) ∧
        (s.argOwner = none ∨ s.argOwner = some ag) ∧ t.argOwner = some ag := by
  cases step_eq_next h with
  | idle empty eq => exact absurd (by rw [eq]) hne
  | hardwareReset rest event eq => exact .inl (by rw [event]; rfl)
  | read rest a isRead event eq =>
    exact absurd (ctlRead_operand_congr hr (by rw [eq]) (by rw [eq]) (by rw [eq]) (by rw [eq])) hne
  | store rest ag off w aligned inside notCmd notOperand event eq =>
    have hoff : ctlReg off ≠ r := fun hoff => by rw [hoff, hr] at notOperand; cases notOperand
    rw [eq, ctlRead_ctlStore_other hr hoff, ctlRead_setPort] at hne
    exact absurd rfl hne
  | operand rest ag off w aligned inside isOperand owner event eq =>
    have hown : t.argOwner = some ag := by rw [eq, ctlStore_argOwner]
    by_cases hoff : ctlReg off = r
    · subst hoff
      have hval : ctlRead t (ctlReg off) = w := by rw [eq, ctlRead_ctlStore_same hr]
      refine .inr ⟨ag, ?_, (mayWriteOperands_iff ag _).mp owner, hown⟩
      rw [hval, ← eq_ctlOffset_of_isOperand aligned isOperand, event, List.head?_cons]
    · rw [eq, ctlRead_ctlStore_other hr hoff, ctlRead_operand_congr (s := s) hr rfl rfl rfl rfl] at hne
      exact absurd rfl hne
  | issue rest ag w event eq =>
    obtain ⟨-, h0, h1, h2, hpay, -⟩ := issueCommand_operands eq
    exact absurd (ctlRead_operand_congr (s := s) hr h0 h1 h2 hpay) hne
  | sample rest ag i w inside event eq =>
    exact absurd (ctlRead_operand_congr hr (by rw [eq]) (by rw [eq]) (by rw [eq]) (by rw [eq])) hne

/-- Settles O21, register by register. -/
theorem operandsChangeOnlyByHostWrites : Obligations.OperandsChangeOnlyByHostWrites := by
  unfold Obligations.OperandsChangeOnlyByHostWrites
  intro s t h
  exact ⟨step_changes_operand (r := .arg0) rfl h, step_changes_operand (r := .arg1) rfl h,
    step_changes_operand (r := .arg2) rfl h, fun i => step_changes_operand (r := .payload i) rfl h⟩

/-! ### The hosts' lock (70_reset_and_hazards R821) -/

theorem exec_not_refused (i : Instr) (s : State) (r : Refusal) : exec i s ≠ .refused r := by
  by_cases hi : i = .process
  · subst hi
    by_cases hp : processAccepted s → bufferWritten s
    · obtain ⟨t, ht⟩ := exec_process_completes hp
      rw [ht]; exact nofun
    · rw [Classical.not_imp] at hp
      obtain ⟨ha, hb⟩ := hp
      rw [exec_process_faults ha hb]; exact nofun
  · obtain ⟨t, ht⟩ := exec_completes hi s
    rw [ht]; exact nofun

theorem issueCommand_not_refused (w : Word) (s : State) (r : Refusal) : issueCommand w s ≠ .refused r := by
  unfold issueCommand
  split
  · exact exec_not_refused _ s r
  · exact nofun

theorem hostRead_not_refused (sp : Space) (off : Nat) (s : State) (r : Refusal) : hostRead sp off s ≠ .refused r := by
  cases sp with
  | control => exact nofun
  | sample => simp only [hostRead]; split <;> exact nofun

theorem hostWrite_not_refused (sp : Space) (off : Nat) (w : Word) (s : State) (r : Refusal) :
    hostWrite sp off w s ≠ .refused r := by
  cases sp with
  | control =>
    simp only [hostWrite]
    split
    · exact issueCommand_not_refused w s r
    · exact nofun
  | sample => exact nofun

/-- The only refusal of an access: admitted, and inside the other agent's argument sequence. -/
theorem step_access_eq_refused {a : Access} {s : State} {rest : List HostEvent} {r : Refusal}
    (h : step { s with port := .access a :: rest } = .refused r) :
    admitted a { s with port := rest } = true ∧ breaksLock a s.argOwner = true ∧ r = .lockBroken := by
  cases hadm : admitted a { s with port := rest } with
  | false => rw [step_of_not_admitted hadm] at h; cases h
  | true =>
    cases hl : breaksLock a s.argOwner with
    | true =>
      rw [step_of_breaksLock hadm hl] at h
      injection h with h
      exact ⟨rfl, rfl, h.symm⟩
    | false =>
      rw [step_of_admitted hadm hl] at h
      split at h
      · exact absurd h (hostRead_not_refused _ _ _ r)
      · exact absurd h (hostWrite_not_refused _ _ _ _ r)

/-- An access breaks the lock when it writes an operand register and the other agent's sequence is open. -/
theorem breaksLock_iff (a : Access) (owner : Option Agent) : breaksLock a owner = true ↔
    a.space = .control ∧ (∃ w, a.op = .write w) ∧ isOperand (ctlReg a.offset) = true ∧
      ∃ o, owner = some o ∧ o ≠ a.agent := by
  obtain ⟨ag, sp, off, size, op⟩ := a
  cases sp with
  | sample => simp [breaksLock, writtenReg]
  | control =>
    cases op with
    | read => simp [breaksLock, writtenReg]
    | write w => cases owner <;> simp [breaksLock, writtenReg, mayWriteOperands]

/-- A refused step is the other agent's write of an operand register. -/
theorem step_eq_refused {s : State} {r : Refusal} (h : step s = .refused r) : r = .lockBroken ∧ ∃ ag o off w,
    s.port.head? = some (wrCtl ag off w) ∧ s.argOwner = some o ∧ o ≠ ag ∧ isOperandOffset off := by
  cases hp : s.port with
  | nil => rw [step, serveNext, hp] at h; cases h
  | cons e rest =>
    rw [show s = { s with port := e :: rest } by rw [← hp]] at h
    cases e with
    | hardwareReset => cases h
    | access a =>
      obtain ⟨hadm, hl, hr⟩ := step_access_eq_refused h
      obtain ⟨ag, sp, off, size, op⟩ := a
      obtain ⟨rfl, h4, -⟩ := (admitted_iff _ _).mp hadm
      obtain ⟨rfl, ⟨w, rfl⟩, hop, o, ho, hne⟩ := (breaksLock_iff _ _).mp hl
      have hoff := isOperandOffset_ctlOffset hop
      rw [← eq_ctlOffset_of_isOperand h4 hop] at hoff
      exact ⟨hr, ag, o, off, w, rfl, ho, hne, hoff⟩

theorem not_ends_sequence {o : Agent} {e : HostEvent} (hreset : e ≠ .hardwareReset)
    (hcmd : ∀ w, e ≠ wrCtl o 0x014 w) (rest : List HostEvent) :
    ¬ ((e :: rest).head? = some .hardwareReset ∨ ∃ w, (e :: rest).head? = some (wrCtl o 0x014 w)) := by
  simp [hreset, hcmd]

/-- The agent's own CMD write and hardware reset end its argument sequence, and nothing else does. -/
theorem step_argOwner {s t : State} {o : Agent} (ho : s.argOwner = some o) (h : step s = .next t) :
    t.argOwner = if s.port.head? = some .hardwareReset ∨ ∃ w, s.port.head? = some (wrCtl o 0x014 w) then none
      else some o := by
  cases step_eq_next h with
  | idle empty eq => rw [eq, ho, empty, if_neg (by simp)]
  | hardwareReset rest event eq => rw [eq, event, if_pos (.inl rfl)]; rfl
  | read rest a isRead event eq =>
    rw [event, if_neg (not_ends_sequence (e := .access a) nofun (fun w hw => by cases hw; cases isRead) rest), eq, ho]
  | store rest ag off w aligned inside notCmd notOperand event eq =>
    rw [event, if_neg (not_ends_sequence (e := wrCtl ag off w) nofun (fun _ hw => by cases hw; exact notCmd rfl) rest), eq,
      ctlStore_argOwner, ho]
  | operand rest ag off w aligned inside isOperand owner event eq =>
    rw [ho, mayWriteOperands_iff] at owner
    rw [event, if_neg (not_ends_sequence (e := wrCtl ag off w) nofun (fun _ hw => by cases hw; cases isOperand) rest), eq,
      ctlStore_argOwner]
    exact (owner.resolve_left nofun).symm
  | issue rest ag w event eq =>
    obtain ⟨-, -, -, -, -, hown⟩ := issueCommand_operands eq
    rw [hown, ho, event]
    by_cases hag : ag = o
    · subst hag
      rw [if_pos (.inr ⟨w, rfl⟩)]
      exact if_pos rfl
    · rw [if_neg (not_ends_sequence (e := wrCtl ag 0x014 w) nofun (fun _ hw => by cases hw; exact hag rfl) rest)]
      exact if_neg fun h => hag (Option.some.inj h).symm
  | sample rest ag i w inside event eq =>
    rw [event, if_neg (not_ends_sequence (e := wrSmp ag i w) nofun (fun _ hw => by cases hw) rest), eq, ho]

/-- Settles O13: refusals are the operand writes inside the other agent's sequence, and `lockAfter` opens and ends one. -/
theorem brokenLocksHaveNoMove : Obligations.BrokenLocksHaveNoMove := by
  unfold Obligations.BrokenLocksHaveNoMove
  refine ⟨fun s ag rest off w hoff => ?_, fun s r h => ?_, fun s t o ho h => step_argOwner ho h, fun p => rfl⟩
  · obtain ⟨h4, hlt, hop⟩ := isOperand_of_isOperandOffset hoff
    refine ⟨fun o ho hne => ?_, fun h => ?_⟩
    · refine step_wrOperand_broken h4 hlt hop ?_ w rest
      rw [← Bool.not_eq_true, mayWriteOperands_iff, ho]
      exact not_or.mpr ⟨nofun, fun h => hne (Option.some.inj h)⟩
    · exact ⟨_, step_wrOperand_of_ctlReg h rfl hop h4 hlt w rest, ctlStore_argOwner ..⟩
  · obtain ⟨hr, ag, o, off, w, hev, ho, hne, hoff⟩ := step_eq_refused h
    refine ⟨hr, ag, o, off, w, hev, ho, hne, ?_⟩
    unfold isOperandOffset at hoff
    omega

end Sys2Proof.Machine

/-! The pseudo-instructions (spec 30_encoding R311), and the block's blindness to the agent of an access (60_exceptions R707,
R720): nothing but the hosts' lock itself looks at the lock. -/

namespace Sys2Proof.Machine

open Sys2Proof.Safety

/-! ### Staging operands (30_encoding R311) -/

/-- An operand written to ARG0 and then a command that the same agent issues. -/
theorem stage_arg0 {s : State} {ag : Agent} (h : s.argOwner = none ∨ s.argOwner = some ag) (v : Word) {i : Instr}
    (hi : i.wellFormed = true) (rest : List HostEvent) :
    andThen (step { s with port := wrCtl ag offArg0 v :: wrCmd ag i :: rest }) step =
      exec i { s with arg0 := v, port := rest, argOwner := none } :=
  (congrArg (andThen · step) (step_wrArg0 h v (wrCmd ag i :: rest))).trans
    (step_wrCmd_of_owner (s := { s with arg0 := v, argOwner := some ag }) hi rfl rest)

theorem stage_process {s : State} {ag : Agent} (h : s.argOwner = none ∨ s.argOwner = some ag) (base count rate : Word)
    (rest : List HostEvent) :
    andThen (andThen (andThen (step { s with port := pseudoProcess ag base count rate ++ rest }) step) step) step =
      exec .process { s with arg0 := base, arg1 := count, arg2 := rate, port := rest, argOwner := none } := by
  have h0 := step_wrArg0 h base (wrCtl ag 0x01C count :: wrCtl ag 0x020 rate :: wrCmd ag .process :: rest)
  have h1 := step_wrArg1 (s := { s with arg0 := base, argOwner := some ag }) (.inr rfl) count
    (wrCtl ag 0x020 rate :: wrCmd ag .process :: rest)
  have h2 := step_wrArg2 (s := { s with arg0 := base, arg1 := count, argOwner := some ag }) (.inr rfl) rate
    (wrCmd ag .process :: rest)
  have h3 := step_wrCmd_of_owner (s := { s with arg0 := base, arg1 := count, arg2 := rate, argOwner := some ag })
    (ag := ag) (i := .process) rfl rfl rest
  calc _ = andThen (andThen (step _) step) step := congrArg (fun o => andThen (andThen (andThen o step) step) step) h0
    _ = andThen (step _) step := congrArg (fun o => andThen (andThen o step) step) h1
    _ = step _ := congrArg (andThen · step) h2
    _ = _ := h3

/-- The payload with words stored in order from index `j` on. -/
def stagedPayload (p : Vector Word 32) (j : Nat) (ws : List Word) : Vector Word 32 :=
  Vector.ofFn fun i => if i.val < j then p[i] else (ws[i.val - j]?).getD p[i]

theorem getElem_stagedPayload (p : Vector Word 32) (j : Nat) (ws : List Word) {i : Nat} (hi : i < 32) :
    (stagedPayload p j ws)[i] = if i < j then p[i] else (ws[i - j]?).getD p[i] := Vector.getElem_ofFn ..

@[simp] theorem stagedPayload_nil (p : Vector Word 32) (j : Nat) : stagedPayload p j [] = p :=
  Vector.ext fun i hi => by simp [getElem_stagedPayload]

theorem stagedPayload_set (p : Vector Word 32) {j : Nat} (hj : j < 32) (w : Word) (ws : List Word) :
    stagedPayload (p.set j w) (j + 1) ws = stagedPayload p j (w :: ws) := by
  refine Vector.ext fun i hi => ?_
  rw [getElem_stagedPayload, getElem_stagedPayload]
  rcases lt_trichotomy i j with hlt | rfl | hgt
  · rw [if_pos (by omega), if_pos hlt, Vector.getElem_set_ne hj hi (by omega)]
  · rw [if_pos (by omega), if_neg (by omega), Vector.getElem_set_self, Nat.sub_self]
    rfl
  · rw [if_neg (by omega), if_neg (by omega), Vector.getElem_set_ne hj hi (by omega),
      show i - j = (i - (j + 1)) + 1 by omega, List.getElem?_cons_succ]

/-- Writes of the payload from index `j` on, in order. -/
def wrPayloadFrom (ag : Agent) (j : Nat) (ws : List Word) : List HostEvent :=
  ws.mapIdx fun i w => wrCtl ag (offPayload (j + i)) w

theorem wrPayloadFrom_cons (ag : Agent) (j : Nat) (w : Word) (ws : List Word) :
    wrPayloadFrom ag j (w :: ws) = wrCtl ag (offPayload j) w :: wrPayloadFrom ag (j + 1) ws := by
  simp only [wrPayloadFrom, List.mapIdx_cons, Nat.add_zero, Nat.add_comm, Nat.add_left_comm]

theorem wrPayload_eq (ag : Agent) (ws : List Word) : wrPayload ag ws = wrPayloadFrom ag 0 ws := by
  simp only [wrPayload, wrPayloadFrom, Nat.zero_add]

/-- A run of `n` steps, from an outcome. -/
abbrev steps (n : Nat) (o : Out) : Out := (fun o => andThen o step)^[n] o

/-- A list of payload words staged one step at a time. -/
theorem steps_wrPayloadFrom {ag : Agent} (rest : List HostEvent) (ws : List Word) :
    ∀ {s : State} {j : Nat}, (s.argOwner = none ∨ s.argOwner = some ag) → ws ≠ [] → j + ws.length ≤ 32 →
      steps ws.length (.next { s with port := wrPayloadFrom ag j ws ++ rest }) =
        .next { s with payload := stagedPayload s.payload j ws, port := rest, argOwner := some ag } := by
  induction ws with
  | nil => exact fun _ hne => absurd rfl hne
  | cons w ws ih =>
    intro s j h _ hlen
    rw [List.length_cons] at hlen
    have hw := step_wrPayload h ⟨j, by omega⟩ w (wrPayloadFrom ag (j + 1) ws ++ rest)
    rw [steps, List.length_cons, Function.iterate_succ_apply, wrPayloadFrom_cons, andThen_next,
      ← stagedPayload_set _ (by omega)]
    refine (congrArg (steps ws.length) hw).trans ?_
    by_cases hnil : ws = []
    · subst hnil
      simp only [stagedPayload_nil]
      rfl
    · exact ih (s := { s with payload := s.payload.set j w, argOwner := some ag }) (.inr rfl) hnil (by omega)

theorem stage_update {s : State} {ag : Agent} (h : s.argOwner = none ∨ s.argOwner = some ag) {k : EqKind}
    {ws : List Word} (hlen : ws.length = payloadUsed k) (rest : List HostEvent) :
    steps (ws.length + 1) (.next { s with port := pseudoUpdate ag k ws ++ rest }) =
      exec (.updateParams (BitVec.ofNat 8 (acceptedTag k)))
        { s with payload := stagedPayload s.payload 0 ws, port := rest, argOwner := none } := by
  have hused : 0 < payloadUsed k ∧ payloadUsed k ≤ 32 := by cases k <;> decide
  have hnil : ws ≠ [] := List.ne_nil_of_length_pos (by omega)
  rw [pseudoUpdate, List.take_of_length_le hlen.le, wrPayload_eq, List.append_assoc, List.singleton_append, steps,
    Function.iterate_succ_apply']
  exact (congrArg (andThen · step) (steps_wrPayloadFrom _ ws h hnil (by omega))).trans
    (step_wrCmd_of_owner (s := { s with payload := stagedPayload s.payload 0 ws, argOwner := some ag }) rfl rfl rest)

/-- Settles O14: each expansion is operand writes, which open the agent's sequence, and its command. -/
theorem pseudoInstructionsStageTheirOperands : Obligations.PseudoInstructionsStageTheirOperands := by
  unfold Obligations.PseudoInstructionsStageTheirOperands
  intro s ag rest h
  refine ⟨fun b v => ⟨stage_arg0 h v rfl rest, stage_arg0 h v rfl rest, stage_arg0 h v rfl rest⟩,
    fun base count rate => stage_process h base count rate rest, fun k ws hlen => ?_⟩
  have hstage := stage_update h (k := k) (by cases k <;> exact hlen) rest
  have hpay : stagedPayload s.payload 0 ws = Vector.ofFn fun i => (ws[i.val]?).getD s.payload[i] := rfl
  rw [hpay] at hstage
  cases k <;> exact hstage

/-! ### Operations that do not look at the lock (60_exceptions R707, R720) -/

def setOwner (o : Option Agent) (s : State) : State := { s with argOwner := o }

/-- An operation that neither reads nor writes the lock. -/
def ignoresOwner (f : State → Out) : Prop := ∀ s o, f (setOwner o s) = andThen (f s) fun u => .next (setOwner o u)

theorem ignoresOwner_complete (opc : Byte) (code : ResultCode) : ignoresOwner (complete opc code) := fun _ _ => rfl

theorem ignoresOwner_andThen {f g : State → Out} (hf : ignoresOwner f) (hg : ignoresOwner g) :
    ignoresOwner fun s => andThen (f s) g := by
  intro s o
  simp only [hf s o]
  cases f s with
  | next u => exact hg u o
  | fault r => rfl
  | refused r => rfl

/-- A check of what the lock has no part in. -/
theorem ignoresOwner_ite {c : State → Prop} [DecidablePred c] {f g : State → Out} (hf : ignoresOwner f)
    (hg : ignoresOwner g) (hc : ∀ s o, c (setOwner o s) ↔ c s := by exact fun _ _ => Iff.rfl) :
    ignoresOwner fun s => if c s then f s else g s := by
  intro s o
  by_cases h : c s
  · simp only [if_pos h, if_pos ((hc s o).mpr h)]
    exact hf s o
  · simp only [if_neg h, if_neg fun h' => h ((hc s o).mp h')]
    exact hg s o

theorem ignoresOwner_sampleStep (cs : List Coeffs) (c : Channel) (i : Nat) : ignoresOwner (sampleStep cs c i) := by
  intro s o
  cases h : memReadWord s.mem i with
  | none => rw [sampleStep_of_unwritten h, sampleStep_of_unwritten (s := setOwner o s) h]; rfl
  | some w =>
    rw [sampleStep_of_written h, sampleStep_of_written (s := setOwner o s) h]
    cases c <;> rfl

theorem ignoresOwner_processFrames (cs : List Coeffs) (k : Nat) : ∀ i, ignoresOwner (processFrames cs k i) := by
  induction k with
  | zero => exact fun _ _ _ => rfl
  | succ k ih =>
    exact fun i => ignoresOwner_andThen (ignoresOwner_sampleStep cs .left i)
      (ignoresOwner_andThen (ignoresOwner_sampleStep cs .right (i + 1)) (ih (i + 2)))

theorem applyRate_setOwner (o : Option Agent) (s : State) : applyRate (setOwner o s) = setOwner o (applyRate s) := by
  by_cases h : s.arg2 = s.activeRate
  · rw [applyRate_of_same h, applyRate_of_same (s := setOwner o s) h]
  · rw [applyRate_of_new h, applyRate_of_new (s := setOwner o s) h]; rfl

theorem ignoresOwner_processWalk (lm : Libm) : ignoresOwner (processWalk lm) := by
  intro s o
  rw [processWalk, applyRate_setOwner]
  exact ignoresOwner_processFrames _ _ _ (applyRate s) o

theorem ignoresOwner_processWith (lm : Libm) : ignoresOwner (processWith lm) := by
  intro s o
  by_cases ha : processAccepted s
  · rw [processWith_of_accepted ha, processWith_of_accepted (s := setOwner o s) ha]
    exact ignoresOwner_andThen (ignoresOwner_processWalk lm) (ignoresOwner_complete opcProcess .ok) s o
  · cases he : s.enabled with
    | false => rw [processWith_of_disabled he, processWith_of_disabled (s := setOwner o s) he]; rfl
    | true =>
      have hc : processCheck s ≠ .ok := fun hok => ha ((processAccepted_iff s).mpr ⟨he, hok⟩)
      rw [processWith_of_rejected he hc, processWith_of_rejected (s := setOwner o s) he hc]; rfl

theorem ignoresOwner_exec (i : Instr) : ignoresOwner (exec i) := by
  have report := ignoresOwner_complete
  have effect : ∀ {f : State → State}, (∀ s o, f (setOwner o s) = setOwner o (f s)) → ∀ opc,
      ignoresOwner fun s => complete opc .ok (f s) := fun hf opc s o => by simp only [hf]; rfl
  cases i with
  | nop => exact report opcNop .ok
  | process => exact ignoresOwner_processWith libm
  | reset => exact effect (fun _ _ => rfl) opcReset
  | setEnabled en => exact ignoresOwner_ite (effect (fun _ _ => rfl) _) (report _ _)
  | setFreq b =>
    exact ignoresOwner_ite (report _ _) (ignoresOwner_ite (report _ _) (ignoresOwner_ite (report _ _)
      (effect (fun _ _ => rfl) _)))
  | setGain b =>
    exact ignoresOwner_ite (report _ _) (ignoresOwner_ite (report _ _) (effect (fun _ _ => rfl) _))
  | setQ b =>
    exact ignoresOwner_ite (report _ _) (ignoresOwner_ite (report _ _) (ignoresOwner_ite (report _ _)
      (effect (fun _ _ => rfl) _)))
  | updateParams tag =>
    exact ignoresOwner_ite (report _ _) (ignoresOwner_ite (report _ _) (effect (fun _ _ => rfl) _))

theorem ignoresOwner_issueCommand (w : Word) : ignoresOwner (issueCommand w) := by
  cases h : decode w with
  | command i => simpa only [funext (issueCommand_of_command h)] using ignoresOwner_exec i
  | illegal r => simpa only [funext (issueCommand_of_illegal h)] using ignoresOwner_complete _ .illegal

theorem ctlRead_setOwner (o : Option Agent) (s : State) (r : CtlReg) : ctlRead (setOwner o s) r = ctlRead s r := by
  cases r <;> rfl

theorem ctlStore_setOwner (r : CtlReg) (w : Word) (o : Option Agent) (s : State) :
    ctlStore r w (setOwner o s) = setOwner o (ctlStore r w s) := by
  cases r <;> rfl

theorem ignoresOwner_hostRead (sp : Space) (off : Nat) : ignoresOwner (hostRead sp off) := by
  intro s o
  cases sp with
  | control => simp only [hostRead, ctlRead_setOwner]; rfl
  | sample =>
    have hm : (setOwner o s).mem = s.mem := rfl
    simp only [hostRead, hm]
    cases memReadWord s.mem (off / 4) with
    | none => rfl
    | some w => rfl

theorem ignoresOwner_hostWrite (sp : Space) (off : Nat) (w : Word) : ignoresOwner (hostWrite sp off w) := by
  intro s o
  cases sp with
  | control =>
    by_cases hc : ctlReg off = .cmd
    · simp only [hostWrite, if_pos hc]
      exact ignoresOwner_issueCommand w s o
    · simp only [hostWrite, if_neg hc, ctlStore_setOwner]; rfl
  | sample => rfl

/-- What an access that keeps the lock does, apart from the lock. -/
def accessEffect (a : Access) (s : State) : Out :=
  match a.op with
  | .read => hostRead a.space a.offset s
  | .write w => hostWrite a.space a.offset w s

theorem ignoresOwner_accessEffect (a : Access) : ignoresOwner (accessEffect a) := by
  obtain ⟨ag, sp, off, size, op⟩ := a
  cases op with
  | read => exact ignoresOwner_hostRead sp off
  | write w => exact ignoresOwner_hostWrite sp off w

/-- An access that breaks no lock: its effect, whoever issues it, under the lock it leaves. -/
theorem step_eq_accessEffect {a : Access} {s : State} {rest : List HostEvent}
    (h : admitted a { s with port := rest } = true) (hl : breaksLock a s.argOwner = false) :
    step { s with port := .access a :: rest } =
      andThen (accessEffect a { s with port := rest }) fun u => .next (setOwner (lockAfter a s.argOwner) u) :=
  (step_of_admitted h hl).trans (ignoresOwner_accessEffect a { s with port := rest } (lockAfter a s.argOwner))

/-- An access that can break the lock is an operand write, whose effect is a next state. -/
theorem accessEffect_of_breaksLock {a : Access} {owner : Option Agent} (h : breaksLock a owner = true) (s : State) :
    ∃ t, accessEffect a s = .next t := by
  obtain ⟨hsp, ⟨w, hop⟩, hr, -⟩ := (breaksLock_iff a owner).mp h
  have hc : ctlReg a.offset ≠ .cmd := fun hc => by rw [hc] at hr; cases hr
  exact ⟨_, by rw [accessEffect, hop, hsp]; exact if_neg hc⟩

/-- An admitted access faults as its effect does, broken lock or not. -/
theorem step_eq_fault_iff {a : Access} {s : State} {rest : List HostEvent} {f : Fault}
    (h : admitted a { s with port := rest } = true) :
    step { s with port := .access a :: rest } = .fault f ↔ accessEffect a { s with port := rest } = .fault f := by
  cases hl : breaksLock a s.argOwner with
  | true =>
    obtain ⟨t, ht⟩ := accessEffect_of_breaksLock hl { s with port := rest }
    rw [step_of_breaksLock h hl, ht]
    exact iff_of_false nofun nofun
  | false =>
    rw [step_eq_accessEffect h hl]
    cases accessEffect a { s with port := rest } with
    | next u => exact iff_of_false nofun nofun
    | fault r => exact Iff.rfl
    | refused r => exact iff_of_false nofun nofun

/-- A next state of an admitted access is its effect's, but for the lock. -/
theorem step_access_eq_next {a : Access} {s t : State} {rest : List HostEvent}
    (ht : step { s with port := .access a :: rest } = .next t) :
    ∃ u o, accessEffect a { s with port := rest } = .next u ∧ t = setOwner o u := by
  cases h : admitted a { s with port := rest } with
  | false => rw [step_of_not_admitted h] at ht; cases ht
  | true =>
    cases hl : breaksLock a s.argOwner with
    | true => rw [step_of_breaksLock h hl] at ht; cases ht
    | false =>
      rw [step_eq_accessEffect h hl] at ht
      obtain ⟨u, hu, ht⟩ := andThen_eq_next ht
      exact ⟨u, _, hu, (Host.Outcome.next.inj ht).symm⟩

theorem step_access_not_refused {a : Access} {s : State} {rest : List HostEvent} (ho : s.argOwner = none) (r : Refusal) :
    step { s with port := .access a :: rest } ≠ .refused r := by
  intro h
  obtain ⟨-, hl, -⟩ := step_access_eq_refused h
  obtain ⟨-, -, -, o, hso, -⟩ := (breaksLock_iff a _).mp hl
  rw [ho] at hso
  cases hso

/-- Settles O12: admission and the effect of an access do not look at its agent, and the effect keeps out of the lock. -/
theorem agentsAreNotDistinguished : Obligations.AgentsAreNotDistinguished := by
  unfold Obligations.AgentsAreNotDistinguished
  intro s a ag rest mine other
  refine ⟨fun t u ht hu => ?_, fun f => ?_, fun ho => ⟨step_access_not_refused ho, step_access_not_refused ho⟩⟩
  · obtain ⟨v, o, hv, rfl⟩ := step_access_eq_next ht
    obtain ⟨v', o', hv', rfl⟩ := step_access_eq_next hu
    have heq : accessEffect a { s with port := rest } = .next v' := hv'
    rw [hv] at heq
    cases heq
    rfl
  · cases h : admitted a { s with port := rest } with
    | false => exact iff_of_eq (congrArg (· = _) ((step_of_not_admitted h).trans
        (step_of_not_admitted (a := { a with agent := ag }) h).symm))
    | true => exact (step_eq_fault_iff h).trans (step_eq_fault_iff (a := { a with agent := ag }) h).symm

end Sys2Proof.Machine

/-! What commands stop on and leave unchanged (spec 10_state, 20_memory R205, R207; 60_exceptions R702, R710), and what an accepted
PROCESS computes on each lane (41_process R511–R523). -/

namespace Sys2Proof.Machine

open Sys2Proof.Safety

/-! ### The checks of PROCESS, in their order (41_process R517, R525) -/

theorem processCheck_badRate {s : State} (h : rateOf s = 0 ∨ maxRate < rateOf s) : processCheck s = .badRate := if_pos h

section
variable {s : State} (h1 : 1 ≤ rateOf s) (h2 : rateOf s ≤ maxRate)
include h1 h2

theorem processCheck_badLength (h : countOf s % 2 = 1) : processCheck s = .badLength := by
  rw [processCheck, if_neg (by omega), if_pos (by omega)]

theorem processCheck_badRange (heven : countOf s % 2 = 0) (h : s.params.sampleMemWords < baseOf s + countOf s) :
    processCheck s = .badRange := by
  rw [processCheck, if_neg (by omega), if_neg (by omega), if_pos h]
end

/-- An enabled PROCESS with a failing check reports that check's code. -/
theorem exec_process_of_check {s : State} (he : s.enabled = true) {code : ResultCode} (hc : processCheck s = code)
    (hne : code ≠ .ok) : exec .process s =
      .next { s with result := BitVec.ofNat 32 (256 * opcProcess.toNat + (codeByte code).toNat), err := true } := by
  subst hc
  exact (processWith_of_rejected he hne libm).trans (complete_of_ne_ok hne opcProcess s)

/-- Settles O33, by the checks in their order. -/
theorem processRejectsMalformedCalls : Obligations.ProcessRejectsMalformedCalls := by
  unfold Obligations.ProcessRejectsMalformedCalls
  intro s he
  exact ⟨fun h => exec_process_of_check he (processCheck_badRate h) nofun,
    fun h1 h2 h => exec_process_of_check he (processCheck_badLength h1 h2 h) nofun,
    fun h1 h2 heven h => exec_process_of_check he (processCheck_badRange h1 h2 heven h) nofun⟩

/-- Settles O41, by when each command completes. -/
theorem onlyProcessStopsOnUnwrittenWords : Obligations.OnlyProcessStopsOnUnwrittenWords := by
  unfold Obligations.OnlyProcessStopsOnUnwrittenWords
  exact fun i s => ⟨exec_not_refused i s, fun f h => exec_eq_fault h⟩

/-! ### Frames (10_state, 20_memory R205) -/

/-- What PROCESS with an OK leaves: the state it found when disabled, else its walk's, which differs in audio and the rate. -/
theorem commandEffect_process {s u : State} (h : commandEffect .process s u) :
    u = s ∨ (processAccepted s ∧ processWalk libm s = .next u ∧ sameButAudio (applyRate s) u) := by
  rcases h with ⟨-, hu⟩ | ⟨ha, hw⟩
  · exact .inl hu
  · exact .inr ⟨ha, hw, (processFrames_frame hw).1⟩

theorem commandEffect_process_of_not_accepted {s u : State} (h : commandEffect .process s u) (ha : ¬ processAccepted s) :
    u = s := (commandEffect_process h).resolve_right fun h' => ha h'.1

/-- Apart from an accepted PROCESS no command touches sample memory or draws a free value, and apart from RESET none touches
the filter state. -/
theorem commandEffect_audio {i : Instr} {s u : State} (h : commandEffect i s u)
    (hi : i ≠ .process ∨ ¬ processAccepted s) :
    u.mem = s.mem ∧ u.nanCount = s.nanCount ∧ (i ≠ .reset → u.left = s.left ∧ u.right = s.right) := by
  cases i with
  | nop => obtain rfl : u = s := h; exact ⟨rfl, rfl, fun _ => ⟨rfl, rfl⟩⟩
  | reset => obtain rfl : u = clearFilter s := h; exact ⟨rfl, rfl, fun hne => absurd rfl hne⟩
  | process =>
    obtain rfl := commandEffect_process_of_not_accepted h (hi.resolve_left fun hne => hne rfl)
    exact ⟨rfl, rfl, fun _ => ⟨rfl, rfl⟩⟩
  | setEnabled en => obtain ⟨-, rfl⟩ := h; exact ⟨rfl, rfl, fun _ => ⟨rfl, rfl⟩⟩
  | setFreq b => obtain ⟨-, -, -, rfl⟩ := h; exact ⟨rfl, rfl, fun _ => ⟨rfl, rfl⟩⟩
  | setGain b => obtain ⟨-, -, rfl⟩ := h; exact ⟨rfl, rfl, fun _ => ⟨rfl, rfl⟩⟩
  | setQ b => obtain ⟨-, -, -, rfl⟩ := h; exact ⟨rfl, rfl, fun _ => ⟨rfl, rfl⟩⟩
  | updateParams tag => obtain ⟨-, -, rfl⟩ := h; exact ⟨rfl, rfl, fun _ => ⟨rfl, rfl⟩⟩

/-- Only SET_ENABLED writes ENABLED, and only an accepted PROCESS the rate. -/
theorem commandEffect_flag_rate {i : Instr} {s u : State} (h : commandEffect i s u) :
    (u.enabled = s.enabled ∨ ∃ en, i = .setEnabled en) ∧
      (u.activeRate = s.activeRate ∨ (i = .process ∧ processAccepted s ∧ u.activeRate = s.arg2)) := by
  cases i with
  | nop => obtain rfl : u = s := h; exact ⟨.inl rfl, .inl rfl⟩
  | reset => obtain rfl : u = clearFilter s := h; exact ⟨.inl rfl, .inl rfl⟩
  | process =>
    rcases commandEffect_process h with rfl | ⟨ha, -, hu⟩
    · exact ⟨.inl rfl, .inl rfl⟩
    · rw [hu]
      exact ⟨.inl (applyRate_enabled s), .inr ⟨rfl, ha, applyRate_activeRate s⟩⟩
  | setEnabled en => obtain ⟨-, rfl⟩ := h; exact ⟨.inr ⟨en, rfl⟩, .inl rfl⟩
  | setFreq b => obtain ⟨-, -, -, rfl⟩ := h; exact ⟨.inl rfl, .inl rfl⟩
  | setGain b => obtain ⟨-, -, rfl⟩ := h; exact ⟨.inl rfl, .inl rfl⟩
  | setQ b => obtain ⟨-, -, -, rfl⟩ := h; exact ⟨.inl rfl, .inl rfl⟩
  | updateParams tag => obtain ⟨-, -, rfl⟩ := h; exact ⟨.inl rfl, .inl rfl⟩

/-- The walk unwrites nothing and writes no word that had no value. -/
theorem written_processWalk {lm : Libm} {s u : State} (h : processWalk lm s = .next u) (j : Nat) :
    written u j ↔ written s j := by
  have hkept := processFrames_induction (cs := coeffsOf lm (applyRate s)) (lo := baseOf s)
    (hi := baseOf s + 2 * (countOf s / 2))
    (P := fun v => (memReadWord v.mem j).isSome = (memReadWord (applyRate s).mem j).isSome)
    (fun c i v w _ _ hv hw => (sampleStep_written hw).trans hv) _ _ _ _ le_rfl le_rfl rfl h
  rw [written, hkept]
  exact written_applyRate s j

theorem commandEffect_mem {i : Instr} {s u : State} (h : commandEffect i s u) :
    (∀ a, a < 4 * baseOf s ∨ 4 * (baseOf s + countOf s) ≤ a → memGet u.mem a = memGet s.mem a) ∧
      ∀ j, written u j ↔ written s j := by
  by_cases hi : i ≠ .process ∨ ¬ processAccepted s
  · obtain ⟨hm, -, -⟩ := commandEffect_audio h hi
    rw [hm]
    exact ⟨fun _ _ => rfl, fun j => by rw [written, written, hm]⟩
  · rw [not_or, not_not, not_not] at hi
    obtain ⟨rfl, ha⟩ := hi
    rcases commandEffect_process h with rfl | ⟨-, hw, -⟩
    · exact ⟨fun _ _ => rfl, fun _ => Iff.rfl⟩
    · obtain ⟨-, -, -, hcount, -⟩ := ha
      have heven := two_mul_half hcount
      obtain ⟨-, hbytes, -⟩ := processFrames_frame hw
      rw [applyRate_mem, heven] at hbytes
      exact ⟨hbytes, written_processWalk hw⟩

theorem exec_mem {i : Instr} {s t : State} (h : exec i s = .next t) :
    (∀ a, a < 4 * baseOf s ∨ 4 * (baseOf s + countOf s) ≤ a → memGet t.mem a = memGet s.mem a) ∧
      ∀ j, written t j ↔ written s j := by
  rcases exec_eq_next h with ⟨code, -, rfl⟩ | ⟨u, hu, rfl⟩
  · exact ⟨fun _ _ => rfl, fun _ => Iff.rfl⟩
  · exact commandEffect_mem (u := u) hu

/-- Settles O42: `finish` and every effect keep those fields. -/
theorem commandsKeepOperandsAndParameters : Obligations.CommandsKeepOperandsAndParameters := by
  unfold Obligations.CommandsKeepOperandsAndParameters
  intro i s t h
  rcases exec_eq_next h with ⟨code, hne, rfl⟩ | ⟨u, hu, rfl⟩
  · exact ⟨rfl, rfl, rfl, rfl, rfl, rfl, rfl, rfl, fun _ => if_neg hne⟩
  · obtain ⟨hp, h0, h1, h2, hpay, hown, hport, hread, -, herr⟩ := commandEffect_operands hu
    exact ⟨hp, h0, h1, h2, hpay, hown, hport, hread, fun hs => herr.trans hs⟩

/-- Settles O43: the frame of each command's effect, and of the walk. -/
theorem onlyAcceptedProcessWritesSamples : Obligations.OnlyAcceptedProcessWritesSamples := by
  unfold Obligations.OnlyAcceptedProcessWritesSamples
  refine fun i s t h => ⟨fun hi => ?_, exec_mem h⟩
  rcases exec_eq_next h with ⟨code, -, rfl⟩ | ⟨u, hu, rfl⟩
  · exact ⟨rfl, rfl⟩
  · obtain ⟨hm, hn, -⟩ := commandEffect_audio hu hi
    exact ⟨hm, hn⟩

/-- Settles O44: a disabled PROCESS is not accepted. -/
theorem onlyResetAndProcessChangeFilterState : Obligations.OnlyResetAndProcessChangeFilterState := by
  unfold Obligations.OnlyResetAndProcessChangeFilterState
  intro i s t h hreset hi
  rcases exec_eq_next h with ⟨code, -, rfl⟩ | ⟨u, hu, rfl⟩
  · exact ⟨rfl, rfl⟩
  · have hi' : i ≠ .process ∨ ¬ processAccepted s := by
      rcases hi with hi | hi | hi
      · exact .inl hi
      · exact .inr fun ha => Bool.eq_false_iff.mp hi ha.1
      · exact .inr hi
    obtain ⟨-, -, hlanes⟩ := commandEffect_audio hu hi'
    exact hlanes hreset

theorem not_isParameterCommand {i : Instr} (h : i = .nop ∨ i = .process ∨ i = .reset ∨ ∃ en, i = .setEnabled en) :
    ¬ isParameterCommand i := by
  rcases h with rfl | rfl | rfl | ⟨en, rfl⟩ <;> simp [isParameterCommand]

/-- Settles O45, by each command's effect. -/
theorem flagRateAndBandFrames : Obligations.FlagRateAndBandFrames := by
  unfold Obligations.FlagRateAndBandFrames
  intro i s t h
  refine ⟨fun hne => ?_, fun hne => ?_, fun hi => exec_bands_of_not_parameter (not_isParameterCommand hi) h⟩
  · rcases exec_eq_next h with ⟨code, -, rfl⟩ | ⟨u, hu, rfl⟩
    · exact absurd rfl hne
    · exact (commandEffect_flag_rate hu).1.resolve_left hne
  · rcases exec_eq_next h with ⟨code, -, rfl⟩ | ⟨u, hu, rfl⟩
    · exact absurd rfl hne
    · exact (commandEffect_flag_rate hu).2.resolve_left hne

/-! ### What an accepted PROCESS computes (41_process R510, R514–R518) -/

/-- `C[b]` at the rate a PROCESS is given. -/
def processCoeffs (s : State) : List Coeffs :=
  s.bands.mapIdx fun b band => design libm (bandType s.params.kind b) band s.arg2.toNat

/-- The lane state a PROCESS starts from: kept at the same rate, zero at a new one. -/
def startLane (s : State) (c : Channel) : List StageState :=
  if s.arg2 = s.activeRate then lane s c else zeroLane s.params.kind

theorem coeffsOf_applyRate (s : State) : coeffsOf libm (applyRate s) = processCoeffs s := by
  rw [coeffsOf, applyRate_bands, applyRate_params, applyRate_activeRate, processCoeffs]

theorem lane_applyRate_eq_startLane (s : State) (c : Channel) : lane (applyRate s) c = startLane s c := by
  rw [lane_applyRate, startLane, ite_not]

theorem inputWord_eq_wordAt (s : State) (c : Channel) (k : Nat) :
    inputWord s c k = wordAt s (baseOf s + 2 * k + channelOffset c) := by
  cases c <;> rfl

theorem inputsFrom_applyRate (s : State) (c : Channel) :
    inputsFrom (applyRate s) c (countOf s / 2) (baseOf s) = laneInputs s c := by
  rw [inputsFrom_congr (s := s) fun _ _ => by rw [applyRate_mem], inputsFrom_eq_map, laneInputs]
  exact List.map_congr_left fun k _ => (inputWord_eq_wordAt s c k).symm

@[simp] theorem length_laneInputs (s : State) (c : Channel) : (laneInputs s c).length = countOf s / 2 := by
  rw [laneInputs, List.length_map, List.length_range]

/-- The outputs of channel `c` of a PROCESS. -/
def processOutputs (s : State) (c : Channel) : List B32 := laneOutputs (processCoeffs s) (startLane s c) (laneInputs s c)

@[simp] theorem length_processOutputs (s : State) (c : Channel) : (processOutputs s c).length = countOf s / 2 := by
  rw [processOutputs, length_laneOutputs, length_laneInputs]

/-- Each lane of an accepted PROCESS: its own filter run on its own input words, the outputs in their places. -/
theorem exec_process_lane {s t : State} (ha : processAccepted s) (ht : exec .process s = .next t) (c : Channel) :
    lane t c = laneAfter (processCoeffs s) (startLane s c) (laneInputs s c) ∧
      ∀ k v, (processOutputs s c)[k]? = some v →
        ∃ w, memReadWord t.mem (baseOf s + 2 * k + channelOffset c) = some w ∧ carries w v := by
  rw [exec, execProcess, processWith_of_accepted ha] at ht
  obtain ⟨u, hu, ht⟩ := andThen_eq_next ht
  obtain rfl := complete_eq_next ht
  obtain ⟨hlane, hout⟩ := processFrames_lanes hu c
  simp only [coeffsOf_applyRate, lane_applyRate_eq_startLane, inputsFrom_applyRate] at hlane hout
  refine ⟨by rw [← hlane]; cases c <;> rfl, fun k v hv => ?_⟩
  obtain ⟨hk, rfl⟩ := List.getElem?_eq_some_iff.mp hv
  exact hout k (by rwa [length_processOutputs] at hk)

/-- Nothing but audio, the rate and RESULT changes, and no byte outside the buffer. -/
theorem exec_process_frame {s t : State} (ha : processAccepted s) (ht : exec .process s = .next t) :
    t = { s with
      result := 0x00000100, activeRate := s.arg2, left := t.left, right := t.right, mem := t.mem,
      nanCount := t.nanCount } ∧
    ∀ a, a < 4 * baseOf s ∨ 4 * (baseOf s + countOf s) ≤ a → memGet t.mem a = memGet s.mem a := by
  refine ⟨?_, (exec_mem ht).1⟩
  obtain ⟨u, hu, rfl⟩ := exec_process_eq_next ha ht
  rw [hu]
  simp only [finish, applyRate_params, applyRate_arg0, applyRate_arg1, applyRate_arg2, applyRate_payload,
    applyRate_activeRate, applyRate_enabled, applyRate_err, applyRate_bands, applyRate_argOwner, applyRate_port,
    applyRate_readData]
  rfl

/-- Settles O34: the walk completes, and each lane is its own filter's. -/
theorem processFiltersEachLaneInPlace : Obligations.ProcessFiltersEachLaneInPlace := by
  unfold Obligations.ProcessFiltersEachLaneInPlace
  intro s ha hb cs start
  obtain ⟨t, ht⟩ := exec_process_completes fun _ => hb
  obtain ⟨hframe, hbytes⟩ := exec_process_frame ha ht
  exact ⟨t, ht, hframe, fun c => (exec_process_lane ha ht c).1, (exec_process_lane ha ht .left).2,
    (exec_process_lane ha ht .right).2, hbytes⟩

/-! ### The lanes do not mix (41_process R515) -/

/-- Two words that carry one value are the same sample. -/
theorem sameSample_of_carries {w w' : Word} {v : B32} (h : carries w v) (h' : carries w' v) : sameSample w w' := by
  unfold carries at h h'
  by_cases hv : v = .nan
  · exact .inr ⟨(isNan32_iff w).mpr (h.trans hv), (isNan32_iff w').mpr (h'.trans hv)⟩
  · left
    rw [← toBits32_ofBits32 0 w (h ▸ hv), ← toBits32_ofBits32 0 w' (h' ▸ hv), h, h']

/-- A PROCESS that is not accepted only reports. -/
theorem exec_process_of_not_accepted {s t : State} (ha : ¬ processAccepted s) (ht : exec .process s = .next t) :
    ∃ code, t = finish opcProcess code s := by
  rcases exec_eq_next ht with ⟨code, -, rfl⟩ | ⟨u, hu, rfl⟩
  · exact ⟨code, rfl⟩
  · obtain rfl := commandEffect_process_of_not_accepted hu ha
    exact ⟨.ok, rfl⟩

theorem wordAt_of_written {s : State} {i : Nat} {w : Word} (h : memReadWord s.mem i = some w) : wordAt s i = w := by
  rw [wordAt, h, Option.getD_some]

/-- Two states alike in all that lane `c` of a PROCESS is given. -/
structure SameLaneCall (c : Channel) (s s' : State) : Prop where
  params : s.params = s'.params
  bands : s.bands = s'.bands
  enabled : s.enabled = s'.enabled
  rate : s.activeRate = s'.activeRate
  arg0 : s.arg0 = s'.arg0
  arg1 : s.arg1 = s'.arg1
  arg2 : s.arg2 = s'.arg2
  lane : lane s c = lane s' c
  inputs : ∀ k, k < countOf s / 2 → inputWord s c k = inputWord s' c k

section
variable {c : Channel} {s s' : State} (h : SameLaneCall c s s')
include h

theorem SameLaneCall.accepted_iff : processAccepted s ↔ processAccepted s' := by
  simp only [processAccepted, rateOf, countOf, baseOf, h.params, h.enabled, h.arg0, h.arg1, h.arg2]

theorem SameLaneCall.coeffs : processCoeffs s = processCoeffs s' := by
  rw [processCoeffs, processCoeffs, h.bands, h.params, h.arg2]

theorem SameLaneCall.startLane : startLane s c = startLane s' c := by
  rw [Machine.startLane, Machine.startLane, h.arg2, h.rate, h.lane, h.params]

theorem SameLaneCall.laneInputs : laneInputs s c = laneInputs s' c := by
  rw [Safety.laneInputs, Safety.laneInputs, show countOf s' = countOf s by rw [countOf, countOf, h.arg1]]
  exact List.map_congr_left fun k hk => h.inputs k (List.mem_range.mp hk)

theorem SameLaneCall.outputs : processOutputs s c = processOutputs s' c := by
  rw [processOutputs, processOutputs, h.coeffs, h.startLane, h.laneInputs]
end

/-- An accepted PROCESS writes each lane's own outputs, and any other leaves the words that were alike. -/
theorem SameLaneCall.exec_process {c : Channel} {s s' t t' : State} (h : SameLaneCall c s s')
    (ht : exec .process s = .next t) (ht' : exec .process s' = .next t') :
    Machine.lane t c = Machine.lane t' c ∧ ∀ k w w', k < countOf s / 2 →
      memReadWord t.mem (baseOf s + 2 * k + channelOffset c) = some w →
      memReadWord t'.mem (baseOf s + 2 * k + channelOffset c) = some w' → sameSample w w' := by
  have hbase : baseOf s' = baseOf s := by rw [baseOf, baseOf, h.arg0]
  by_cases ha : processAccepted s
  · obtain ⟨hl, hout⟩ := exec_process_lane ha ht c
    obtain ⟨hl', hout'⟩ := exec_process_lane (h.accepted_iff.mp ha) ht' c
    refine ⟨by rw [hl, hl', h.coeffs, h.startLane, h.laneInputs], fun k w w' hk hw hw' => ?_⟩
    obtain ⟨v, hv⟩ : ∃ v, (processOutputs s c)[k]? = some v :=
      ⟨_, List.getElem?_eq_getElem (by rwa [length_processOutputs])⟩
    obtain ⟨x, hx, hc⟩ := hout k v hv
    rw [h.outputs] at hv
    obtain ⟨x', hx', hc'⟩ := hout' k v hv
    rw [hbase] at hx'
    cases hx.symm.trans hw
    cases hx'.symm.trans hw'
    exact sameSample_of_carries hc hc'
  · obtain ⟨code, rfl⟩ := exec_process_of_not_accepted ha ht
    obtain ⟨code', rfl⟩ := exec_process_of_not_accepted (mt h.accepted_iff.mpr ha) ht'
    refine ⟨by cases c <;> exact h.lane, fun k w w' hk hw hw' => .inl ?_⟩
    have hin := h.inputs k hk
    rw [inputWord_eq_wordAt, inputWord_eq_wordAt, hbase] at hin
    rwa [wordAt_of_written (s := s) hw, wordAt_of_written (s := s') hw'] at hin

/-- Settles O36: what a lane is left with is a function of what the lane is given. -/
theorem lanesDoNotMix : Obligations.LanesDoNotMix := by
  unfold Obligations.LanesDoNotMix
  intro c s s' t t' hparams hbands henabled hrate h0 h1 h2 hlane hinputs ht ht'
  exact SameLaneCall.exec_process ⟨hparams, hbands, henabled, hrate, h0, h1, h2, hlane, hinputs⟩ ht ht'

/-! ### Outputs (41_process R512, R521, R523) -/

/-- The output of a lane with a stage is a flushed value. -/
theorem cascade_flushed {cs : List Coeffs} (hcs : cs ≠ []) :
    ∀ {l : List StageState}, l ≠ [] → ∀ v, ∃ y, (cascade cs l v).1 = flush y := by
  induction cs with
  | nil => exact absurd rfl hcs
  | cons c cs ih =>
    intro l hl v
    cases l with
    | nil => exact absurd rfl hl
    | cons st sts =>
      have hlast : ∃ y, (stage c st v).1 = flush y := ⟨_, rfl⟩
      cases cs with
      | nil => exact hlast
      | cons c' cs => cases sts with
        | nil => exact hlast
        | cons st' sts => exact ih (List.cons_ne_nil _ _) (List.cons_ne_nil _ _) (stage c st v).1

theorem filterSample_lane_ne_nil {cs : List Coeffs} {l : List StageState} (hl : l ≠ []) (w : Word) :
    (filterSample cs l w).2 ≠ [] := by
  rw [← List.length_pos_iff, length_filterSample]
  exact List.length_pos_iff.mpr hl

theorem laneOutputs_flushed {cs : List Coeffs} (hcs : cs ≠ []) (ws : List Word) :
    ∀ {l : List StageState}, l ≠ [] → ∀ v ∈ laneOutputs cs l ws, ∃ y, v = narrow (flush y) := by
  induction ws with
  | nil => exact fun _ v hv => absurd hv (List.not_mem_nil)
  | cons w ws ih =>
    intro l hl v hv
    rcases List.mem_cons.mp hv with rfl | hv
    · obtain ⟨y, hy⟩ := cascade_flushed hcs hl (widen (ofBits32 w))
      exact ⟨y, congrArg narrow hy⟩
    · exact ih (filterSample_lane_ne_nil hl w) v hv

/-- Neither subnormal nor -0.0. -/
def isClean (v : B32) : Prop :=
  match v with
  | .nan => True
  | .inf _ => True
  | .fin neg mag => (neg = false ∧ mag.val = 0) ∨ 2 ^ 23 ≤ mag.val

theorem isClean_ofMag32 {m : Nat} (hm : 2 ^ 23 ≤ m) (neg : Bool) : isClean (ofMag32 neg m) := by
  unfold ofMag32
  split
  · exact .inr hm
  · trivial

/-- FLUSH_T is a normal binary32 magnitude or more. -/
theorem leastNormal32_le_flushT : magVal fmt32 (2 ^ 23) ≤ realOf flushT := by
  have hq : (2 : ℚ) ^ (-126 : ℤ) ≤ ratOf flushT := by decide +kernel
  have hv : magVal fmt32 (2 ^ 23) = 2 ^ (-126 : ℤ) := by
    rw [magVal_eq]
    norm_num [sigOf, expOf, fmt32]
  have hqR := Rat.cast_le (K := ℝ).mpr hq
  rw [Rat.cast_zpow, Rat.cast_ofNat] at hqR
  exact hv.trans_le hqR

theorem flush_inf (neg : Bool) : flush (.inf neg) = .inf neg := by
  cases neg <;> decide +kernel

theorem flush_cases {y : B64} (hy : isFinite64 y = true) :
    flush y = .posZero ∨ (flush y = y ∧ ratOf flushT ≤ |ratOf y|) := by
  rcases lt_or_ge |ratOf y| (ratOf flushT) with hsmall | hlarge
  · exact .inl (flush_of_small hy hsmall)
  · exact .inr ⟨flush_of_large hy hlarge, hlarge⟩

/-- What survives the flush is large enough to narrow to a normal number. -/
theorem isClean_narrow_of_large {y : B64} (hy : isFinite64 y = true) (h : ratOf flushT ≤ |ratOf y|) :
    isClean (narrow y) := by
  obtain ⟨neg, mag, rfl⟩ := (isFinite64_iff y).mp hy
  have habs : |realOf (.fin neg mag)| = magVal fmt64 mag.val := by
    rw [← realOf_abs64, abs64, realOf_fin, if_neg Bool.false_ne_true]
  have hval : realOf flushT ≤ magVal fmt64 mag.val := by
    rw [← habs]
    unfold realOf
    exact_mod_cast h
  exact isClean_ofMag32 (le_narrowMag (leastNormal32_le_flushT.trans hval)) neg

theorem isClean_narrow_flush (y : B64) : isClean (narrow (flush y)) := by
  cases hy : isFinite64 y with
  | true =>
    rcases flush_cases hy with hsmall | ⟨hkept, hlarge⟩
    · rw [hsmall, show narrow .posZero = ofMag32 false 0 by decide +kernel]
      exact .inl ⟨rfl, rfl⟩
    · rw [hkept]
      exact isClean_narrow_of_large hy hlarge
  | false =>
    cases y with
    | nan => trivial
    | inf neg => rw [flush_inf]; trivial
    | fin neg mag => cases hy

/-- A word that carries such a value and is no NaN. -/
theorem not_subnormal_of_carries {w : Word} {v : B32} (h : carries w v) (hv : isClean v) (hn : isNan32 w = false) :
    isSubnormal32 w = false ∧ w ≠ 0x80000000 := by
  have hbits := toBits32_ofBits32 0 w (mt (isNan32_iff w).mpr (Bool.eq_false_iff.mp hn))
  rw [show ofBits32 w = v from h] at hbits
  subst hbits
  cases v with
  | nan => exact absurd ((isNan32_iff _).mpr h) (Bool.eq_false_iff.mp hn)
  | inf neg => cases neg <;> decide
  | fin neg mag =>
    have hlt := mag.isLt
    have hnat := toNat_signedBits32 (m := mag.val) (by omega) neg
    have hmod : (signedBits32 neg mag.val).toNat % 2 ^ 31 = mag.val := by rw [hnat]; split <;> omega
    simp only [toBits32, isSubnormal32, hmod, decide_eq_false_iff_not, ne_eq]
    refine ⟨by rcases hv with ⟨-, h0⟩ | h23 <;> omega, fun heq => ?_⟩
    rw [heq] at hnat hmod
    rcases hv with ⟨rfl, h0⟩ | h23
    · rw [h0] at hnat; exact absurd hnat (by decide)
    · have : (0x80000000 : Word).toNat % 2 ^ 31 = 0 := by decide
      omega

theorem nbands_pos (k : EqKind) : 0 < nbands k := by cases k <;> decide

theorem processCoeffs_ne_nil {s : State} (h : Invariant s) : processCoeffs s ≠ [] := by
  rw [← List.length_pos_iff, processCoeffs, List.length_mapIdx, h.bandCount]
  exact nbands_pos _

theorem startLane_ne_nil {s : State} (h : Invariant s) (c : Channel) : startLane s c ≠ [] := by
  have hpos := nbands_pos s.params.kind
  rw [← List.length_pos_iff, startLane]
  split
  · cases c with
    | left => exact h.leftCount ▸ hpos
    | right => exact h.rightCount ▸ hpos
  · rw [zeroLane, List.length_replicate]
    exact hpos

/-- A buffer's word is in one frame, on one channel. -/
theorem exists_frame {base count i : Nat} (heven : count % 2 = 0) (hlo : base ≤ i) (hhi : i < base + count) :
    ∃ k c, k < count / 2 ∧ i = base + 2 * k + channelOffset c := by
  rcases Nat.mod_two_eq_zero_or_one (i - base) with h | h
  · exact ⟨(i - base) / 2, .left, by omega, by simp only [channelOffset]; omega⟩
  · exact ⟨(i - base) / 2, .right, by omega, by simp only [channelOffset]; omega⟩

/-- Settles O37: every output is a narrowed flushed value. -/
theorem outputsAreNeitherSubnormalNorNegativeZero : Obligations.OutputsAreNeitherSubnormalNorNegativeZero := by
  unfold Obligations.OutputsAreNeitherSubnormalNorNegativeZero
  intro s t hinv ha ht i hlo hhi
  obtain ⟨-, -, -, heven, -⟩ := id ha
  obtain ⟨k, c, hk, rfl⟩ := exists_frame heven hlo hhi
  have hv := List.getElem?_eq_getElem (l := processOutputs s c) (by rwa [length_processOutputs])
  obtain ⟨w, hw, hc⟩ := (exec_process_lane ha ht c).2 k _ hv
  obtain ⟨y, hy⟩ := laneOutputs_flushed (processCoeffs_ne_nil hinv) _ (startLane_ne_nil hinv c) _
    (List.mem_of_getElem? hv)
  exact ⟨w, hw, not_subnormal_of_carries hc (hy ▸ isClean_narrow_flush y)⟩

/-! ### NaN (41_process R521) -/

@[simp] theorem add64_nan_left (a : B64) : add64 .nan a = .nan := rfl

@[simp] theorem add64_nan_right (a : B64) : add64 a .nan = .nan := by cases a <;> rfl

@[simp] theorem sub64_nan_left (a : B64) : sub64 .nan a = .nan := rfl

@[simp] theorem sub64_nan_right (a : B64) : sub64 a .nan = .nan := add64_nan_right a

@[simp] theorem mul64_nan_right (a : B64) : mul64 a .nan = .nan := by cases a <;> rfl

/-- A stage with a NaN input, or with a NaN kept as its last output, answers a NaN. -/
theorem stage_nan (c : Coeffs) {st : StageState} {x : B64} (h : x = .nan ∨ st.y1 = .nan) : (stage c st x).1 = .nan := by
  have hsum : stageSum c st x = .nan := by
    rcases h with rfl | h
    · simp [stageSum]
    · simp [stageSum, h]
  rw [stage, hsum]
  rfl

theorem cascade_nan (cs : List Coeffs) : ∀ l, (cascade cs l .nan).1 = .nan := by
  induction cs with
  | nil => exact fun l => rfl
  | cons c cs ih =>
    intro l
    cases l with
    | nil => rfl
    | cons st sts => rw [cascade, stage_nan c (.inl rfl)]; exact ih sts

/-- A lane whose first stage has answered a NaN. -/
def isPoisoned (l : List StageState) : Prop := ∃ st sts, l = st :: sts ∧ st.y1 = .nan

theorem cascade_of_stage_nan (c : Coeffs) (cs : List Coeffs) {st : StageState} {x : B64} (h : x = .nan ∨ st.y1 = .nan)
    (sts : List StageState) :
    (cascade (c :: cs) (st :: sts) x).1 = .nan ∧ isPoisoned (cascade (c :: cs) (st :: sts) x).2 := by
  have hst := stage_nan c h
  rw [cascade, hst]
  exact ⟨cascade_nan cs sts, _, _, rfl, hst⟩

theorem laneOutputs_of_isPoisoned (c : Coeffs) (cs : List Coeffs) (ws : List Word) :
    ∀ {l}, isPoisoned l → ∀ v ∈ laneOutputs (c :: cs) l ws, v = .nan := by
  induction ws with
  | nil => exact fun _ v hv => absurd hv (List.not_mem_nil)
  | cons w ws ih =>
    rintro _ ⟨st, sts, rfl, hst⟩ v hv
    obtain ⟨hout, hp⟩ := cascade_of_stage_nan c cs (x := widen (ofBits32 w)) (.inr hst) sts
    rcases List.mem_cons.mp hv with rfl | hv
    · exact congrArg narrow hout
    · exact ih hp v hv

/-- Settles O38: a NaN input makes the first stage answer a NaN, and that stage keeps it as `y1`. -/
theorem nanPoisonsItsLane : Obligations.NanPoisonsItsLane := by
  unfold Obligations.NanPoisonsItsLane
  intro cs l w ws hcs hl hw v hv
  obtain ⟨c, cs, rfl⟩ := List.exists_cons_of_ne_nil hcs
  obtain ⟨st, sts, rfl⟩ := List.exists_cons_of_ne_nil hl
  have hx : widen (ofBits32 w) = .nan := by rw [(isNan32_iff w).mp hw]; rfl
  obtain ⟨hout, hp⟩ := cascade_of_stage_nan c cs (.inl hx) sts
  rcases List.mem_cons.mp hv with rfl | hv
  · exact congrArg narrow hout
  · exact laneOutputs_of_isPoisoned c cs ws hp v hv

end Sys2Proof.Machine

/-! Rounding (spec 00_scope R12, 41_process R526): the overflow threshold, ties to even, and a rounding between known values. -/

namespace Sys2Proof.Machine

open Sys2Proof.Safety

/-! ### Overflow -/

theorem magVal64_firstInfinite : magVal fmt64 0x7FF0000000000000 = 2 ^ 54 * 2 ^ 970 := by
  rw [magVal_eq, show sigOf fmt64 0x7FF0000000000000 = 2 ^ 52 by decide +kernel,
    show expOf fmt64 0x7FF0000000000000 = (970 + 2 : ℕ) by decide +kernel, zpow_natCast, pow_add]
  generalize (2 : ℝ) ^ 970 = P
  push_cast
  ring

theorem magVal64_lastFinite : magVal fmt64 0x7FEFFFFFFFFFFFFF = (2 ^ 54 - 2) * 2 ^ 970 := by
  rw [magVal_eq, show sigOf fmt64 0x7FEFFFFFFFFFFFFF = 2 ^ 53 - 1 by decide +kernel,
    show expOf fmt64 0x7FEFFFFFFFFFFFFF = (970 + 1 : ℕ) by decide +kernel, zpow_natCast, pow_add]
  generalize (2 : ℝ) ^ 970 = P
  push_cast
  ring

/-- The overflow threshold lies midway between the last finite magnitude and the next one. -/
theorem threshold_eq : (2 : ℝ) ^ 1024 - 2 ^ 970 = (2 ^ 54 - 1) * 2 ^ 970 := by
  rw [sub_mul, one_mul, ← pow_add]

section
variable {n : Nat} {e : ℤ} {sticky : Bool} {x : ℝ} (hx : Represents fmt64 n e sticky x) (hx0 : n = 0 → sticky = false)
include hx hx0

theorem roundMag_finite (h : x < 2 ^ 1024 - 2 ^ 970) : roundMag fmt64 n e sticky < 0x7FF0000000000000 := by
  by_contra hge
  have hnear := (roundMag_nearest_even (by decide) hx hx0 0x7FEFFFFFFFFFFFFF).1
  have hR := (magVal_strictMono fmt64).monotone (not_lt.mp hge)
  have hP : (0 : ℝ) < 2 ^ 970 := by positivity
  rw [magVal64_lastFinite] at hnear
  rw [magVal64_firstInfinite] at hR
  rw [threshold_eq] at h
  generalize (2 : ℝ) ^ 970 = P at *
  have hgap : |(2 ^ 54 - 2) * P - x| < 2 ^ 54 * P - x := abs_lt.mpr ⟨by linarith, by linarith⟩
  linarith [le_abs_self (magVal fmt64 (roundMag fmt64 n e sticky) - x)]

/-- At the threshold itself the last finite magnitude, which is odd, loses the tie. -/
theorem roundMag_overflow (h : 2 ^ 1024 - 2 ^ 970 ≤ x) : 0x7FF0000000000000 ≤ roundMag fmt64 n e sticky := by
  by_contra hlt
  have hle : roundMag fmt64 n e sticky ≤ 0x7FEFFFFFFFFFFFFF := by omega
  obtain ⟨hnear, heven⟩ := roundMag_nearest_even (by decide) hx hx0 0x7FF0000000000000
  have hR := (magVal_strictMono fmt64).monotone hle
  have hodd : magVal fmt64 (roundMag fmt64 n e sticky) = magVal fmt64 0x7FEFFFFFFFFFFFFF →
      roundMag fmt64 n e sticky % 2 = 1 := fun heq => by rw [(magVal_strictMono fmt64).injective heq]
  have hP : (0 : ℝ) < 2 ^ 970 := by positivity
  rw [magVal64_lastFinite] at hR hodd
  rw [magVal64_firstInfinite] at hnear heven
  rw [threshold_eq] at h
  generalize (2 : ℝ) ^ 970 = P at *
  generalize magVal fmt64 (roundMag fmt64 n e sticky) = R at *
  have hRx : |R - x| = x - R := by rw [abs_of_nonpos (by linarith)]; ring
  rw [hRx] at hnear heven
  rcases lt_or_ge (2 ^ 54 * P) x with hbig | hsmall
  · rw [abs_of_neg (by linarith)] at hnear
    linarith
  · rw [abs_of_nonneg (by linarith)] at hnear heven
    have htie := heven (by linarith) (by omega)
    have := hodd (by linarith)
    omega
end

/-! ### Correct rounding -/

theorem IsRounding.neg {y : B64} {x : ℝ} (h : IsRounding y x) : IsRounding (neg64 y) (-x) := by
  obtain ⟨neg, n, e, sticky, x', hx, hx0, rfl, rfl⟩ := h
  refine ⟨!neg, n, e, sticky, x', hx, hx0, ?_, by cases neg <;> simp⟩
  unfold round64 ofMag64
  split <;> rfl

theorem IsRounding.finite {y : B64} {x : ℝ} (h : IsRounding y x) (hlt : |x| < 2 ^ 1024 - 2 ^ 970) :
    isFinite64 y = true := by
  obtain ⟨neg, n, e, sticky, x', hx, hx0, rfl, rfl⟩ := h
  have habs : |if neg then -x' else x'| = x' := by cases neg <;> simp [abs_of_nonneg hx.nonneg]
  rw [habs] at hlt
  exact (realOf_ofMag64 (roundMag_finite hx hx0 hlt) neg).1

theorem IsRounding.eq_inf {y : B64} {x : ℝ} (h : IsRounding y x) (hle : 2 ^ 1024 - 2 ^ 970 ≤ x) : y = .inf false := by
  obtain ⟨neg, n, e, sticky, x', hx, hx0, rfl, rfl⟩ := h
  have hT : (0 : ℝ) < 2 ^ 1024 - 2 ^ 970 := by rw [threshold_eq]; positivity
  cases neg with
  | true =>
    rw [if_pos rfl] at hle
    exact absurd (hT.trans_le hle) (not_lt.mpr (neg_nonpos.mpr hx.nonneg))
  | false => exact dif_neg (roundMag_overflow hx hx0 hle).not_gt

theorem IsRounding.eq_neg_inf {y : B64} {x : ℝ} (h : IsRounding y x) (hle : x ≤ -(2 ^ 1024 - 2 ^ 970)) :
    y = .inf true := by
  have hneg := h.neg.eq_inf (le_neg.mp hle)
  rw [← neg64_neg64 y, hneg]
  rfl

/-- Signs can only move two magnitudes apart. -/
theorem abs_sub_le_abs_signed_sub {R x : ℝ} (hR : 0 ≤ R) (hx : 0 ≤ x) (nR nx : Bool) :
    |R - x| ≤ |(if nR then -R else R) - (if nx then -x else x)| := by
  have hdiff := abs_abs_sub_abs_le (if nR then -R else R) (if nx then -x else x)
  have hRabs : |if nR then -R else R| = R := by cases nR <;> simp [abs_of_nonneg hR]
  have hxabs : |if nx then -x else x| = x := by cases nx <;> simp [abs_of_nonneg hx]
  rwa [hRabs, hxabs] at hdiff

/-- Of the magnitudes nearest `x`, only zero is as near from the other side. -/
theorem eq_zero_of_opposite_tie {R x : ℝ} (hR : 0 ≤ R) (hx : 0 ≤ x) (hzero : |R - x| ≤ |0 - x|)
    (hopp : |R - x| = R + x) : R = 0 := by
  rw [hopp, zero_sub, abs_neg, abs_of_nonneg hx] at hzero
  linarith

/-- Where a finite value of another number is as near, the answer's pattern is even. -/
theorem IsRounding.even_of_tie {y z : B64} {x : ℝ} (h : IsRounding y x) (hy : isFinite64 y = true)
    (hz : isFinite64 z = true) (htie : |realOf y - x| = |realOf z - x|) (hne : realOf z ≠ realOf y) :
    ∃ neg mag, y = .fin neg mag ∧ mag.val % 2 = 0 := by
  obtain ⟨neg, n, e, sticky, x', hx, hx0, rfl, rfl⟩ := h
  obtain ⟨nz, mz, rfl⟩ := (isFinite64_iff z).mp hz
  have hm := lt_of_isFinite64_ofMag64 hy
  refine ⟨neg, ⟨_, hm⟩, dif_pos hm, ?_⟩
  have hval := (realOf_ofMag64 hm neg).2
  obtain ⟨hnear, heven⟩ := roundMag_nearest_even (by decide) hx hx0 mz.val
  have hzero := (roundMag_nearest_even (by decide) hx hx0 0).1
  rw [magVal_zero] at hzero
  rw [round64, hval, realOf_fin] at htie hne
  have hx' := hx.nonneg
  have hzpos := magVal_nonneg fmt64 mz.val
  have hypos := magVal_nonneg fmt64 (roundMag fmt64 n e sticky)
  by_cases hmz : mz.val = roundMag fmt64 n e sticky
  · -- equal magnitudes of two numbers: the signs differ, and only a zero is as near from the other side
    rw [hmz] at htie hne
    exfalso
    generalize magVal fmt64 (roundMag fmt64 n e sticky) = R at *
    have hopp : |R - x'| = R + x' := by
      cases neg <;> cases nz <;> simp only [if_true, if_false, Bool.false_eq_true, ne_eq, not_true_eq_false] at htie hne
      · rw [htie, abs_of_nonpos (by linarith)]; ring
      · rw [abs_sub_comm, show x' - R = -R - -x' by ring, htie, abs_of_nonneg (by linarith)]; ring
    have hR0 := eq_zero_of_opposite_tie hypos hx' hzero hopp
    exact hne (by cases neg <;> cases nz <;> simp [hR0])
  · refine heven (le_antisymm hnear ?_) hmz
    have hside := abs_sub_le_abs_signed_sub hzpos hx' nz neg
    refine hside.trans (htie.symm.le.trans (le_of_eq ?_))
    cases neg
    · rfl
    · rw [if_pos rfl, if_pos rfl, neg_sub_neg, abs_sub_comm]

/-- What R12 asks of an operation with the exact result `x`. -/
theorem IsRounding.correctlyRounded {y : B64} {x : ℝ} (h : IsRounding y x) :
    (|x| < 2 ^ 1024 - 2 ^ 970 → isFinite64 y = true ∧ ∀ z, isFinite64 z = true →
      |((ratOf y : ℚ) : ℝ) - x| ≤ |((ratOf z : ℚ) : ℝ) - x| ∧
      (|((ratOf y : ℚ) : ℝ) - x| = |((ratOf z : ℚ) : ℝ) - x| → ratOf z ≠ ratOf y →
        ∃ neg mag, y = .fin neg mag ∧ mag.val % 2 = 0)) ∧
    (2 ^ 1024 - 2 ^ 970 ≤ x → y = .inf false) ∧ (x ≤ -(2 ^ 1024 - 2 ^ 970) → y = .inf true) := by
  refine ⟨fun hlt => ?_, h.eq_inf, h.eq_neg_inf⟩
  have hy := h.finite hlt
  exact ⟨hy, fun z hz => ⟨h.nearest hy hz, fun htie hne =>
    h.even_of_tie hy hz htie fun heq => hne (Rat.cast_injective heq)⟩⟩

/-- Settles O52: each operation on finite values is `round64` of its exact result. -/
theorem operationsAreCorrectlyRounded : Obligations.OperationsAreCorrectlyRounded := by
  unfold Obligations.OperationsAreCorrectlyRounded
  intro threshold rounded a b ha hb
  exact ⟨(add64_isRounding ha hb).correctlyRounded, (sub64_isRounding ha hb).correctlyRounded,
    (mul64_isRounding ha hb).correctlyRounded,
    fun h0 => (div64_isRounding ha hb (Rat.cast_ne_zero.mpr h0)).correctlyRounded,
    fun h0 => (sqrt64_isRounding ha (Rat.cast_pos.mpr h0)).correctlyRounded⟩

end Sys2Proof.Machine

/-! Values and ranges of the binary64 operations (spec 00_scope R12, 41_process R526), and the ranges that R503's properties give
the three functions (41_process R503, R504). -/

namespace Sys2Proof.Machine

open Sys2Proof.Safety

/-! ### Equal values -/

/-- Two finite values of the same number; the two zeros are. -/
def SameValue (a b : B64) : Prop := isFinite64 a = true ∧ isFinite64 b = true ∧ realOf a = realOf b

theorem SameValue.refl {a : B64} (h : isFinite64 a = true) : SameValue a a := ⟨h, h, rfl⟩

theorem SameValue.eq64 {a b : B64} (h : SameValue a b) : eq64 a b = true := by
  obtain ⟨ha, hb, hab⟩ := h
  exact (eq64_iff ha hb).mpr hab

theorem magVal_eq_zero_iff (f : Format) (m : Nat) : magVal f m = 0 ↔ m = 0 := by
  rw [← magVal_zero f]
  exact (magVal_strictMono f).injective.eq_iff

theorem SameValue.eq_or_zero {a b : B64} (h : SameValue a b) : a = b ∨ (realOf a = 0 ∧ realOf b = 0) := by
  obtain ⟨ha, hb, hab⟩ := h
  obtain ⟨na, ma, rfl⟩ := (isFinite64_iff a).mp ha
  obtain ⟨nb, mb, rfl⟩ := (isFinite64_iff b).mp hb
  by_cases hn : na = nb
  · left
    subst hn
    rw [realOf_fin, realOf_fin] at hab
    have hm : magVal fmt64 ma.val = magVal fmt64 mb.val := by
      cases na
      · exact hab
      · exact neg_injective hab
    rw [Fin.ext ((magVal_strictMono fmt64).injective hm)]
  · right
    have hab' := hab
    have ha0 := magVal_nonneg fmt64 ma.val
    have hb0 := magVal_nonneg fmt64 mb.val
    rw [realOf_fin, realOf_fin] at hab
    have hb00 : realOf (.fin nb mb) = 0 := by
      rw [realOf_fin]
      cases na <;> cases nb <;> simp only [if_true, if_false, Bool.false_eq_true, not_true_eq_false] at hab hn ⊢ <;>
        linarith
    exact ⟨hab'.trans hb00, hb00⟩

/-- A rounding of a finite value is that value. -/
theorem IsRounding.sameValue {y z : B64} {x : ℝ} (h : IsRounding y x) (hz : isFinite64 z = true) (hx : realOf z = x) :
    SameValue y z := by
  obtain ⟨hf, hv⟩ := RoundsTo.exact (y := y) (a := z) (hx ▸ h.roundsTo) hz
  exact ⟨hf, hz, hv⟩

theorem IsRounding.zero {y : B64} (h : IsRounding y 0) : SameValue y .posZero :=
  h.sameValue rfl (realOf_zero64 false)

theorem SameValue.mul {a a' b b' : B64} (ha : SameValue a a') (hb : SameValue b b')
    (hf : isFinite64 (mul64 a b) = true) : SameValue (mul64 a b) (mul64 a' b') := by
  have hab := mul64_isRounding ha.1 hb.1
  have hab' := mul64_isRounding ha.2.1 hb.2.1
  rw [← ha.2.2, ← hb.2.2] at hab'
  by_cases h0 : realOf a * realOf b = 0
  · rw [h0] at hab hab'
    exact ⟨hf, hab'.zero.1, hab.zero.2.2.trans hab'.zero.2.2.symm⟩
  · obtain ⟨ha0, hb0⟩ := mul_ne_zero_iff.mp h0
    rw [← ha.eq_or_zero.resolve_right fun h => ha0 h.1, ← hb.eq_or_zero.resolve_right fun h => hb0 h.1]
    exact SameValue.refl hf

theorem SameValue.div {b b' a : B64} (hb : SameValue b b') (ha : isFinite64 a = true) (ha0 : realOf a ≠ 0)
    (hf : isFinite64 (div64 b a) = true) : SameValue (div64 b a) (div64 b' a) := by
  rcases hb.eq_or_zero with rfl | ⟨h0, h0'⟩
  · exact SameValue.refl hf
  · have hq := div64_isRounding hb.1 ha ha0
    have hq' := div64_isRounding hb.2.1 ha ha0
    rw [h0, zero_div] at hq
    rw [h0', zero_div] at hq'
    exact ⟨hf, hq'.zero.1, hq.zero.2.2.trans hq'.zero.2.2.symm⟩

/-! ### Exact operations -/

theorem one64_eq : one64 = .fin false ⟨0x3FF0000000000000, by decide⟩ := by decide +kernel

theorem sigOf_one : sigOf fmt64 0x3FF0000000000000 = 2 ^ 52 := by decide +kernel

theorem expOf_one : expOf fmt64 0x3FF0000000000000 = -52 := by decide +kernel

theorem isFinite64_one64 : isFinite64 one64 = true := by decide +kernel

theorem realOf_one64 : realOf one64 = 1 := by
  rw [one64_eq, realOf_fin, if_neg Bool.false_ne_true, magVal_eq, sigOf_one, expOf_one]
  norm_num

theorem round64_of_exact {n : Nat} {e : ℤ} {mag : Fin 0x7FF0000000000000} (neg : Bool)
    (h : (n : ℝ) * 2 ^ e = magVal fmt64 mag.val) : round64 neg n e false = .fin neg mag := by
  rw [round64, roundMag_exact (by decide) h, ofMag64, dif_pos mag.isLt]

theorem mul64_comm (a b : B64) : mul64 a b = mul64 b a := by
  cases a <;> cases b <;> simp [mul64, mulFin, Bool.xor_comm, Nat.mul_comm, add_comm]

theorem mul64_one {a : B64} (ha : isFinite64 a = true) : mul64 a one64 = a := by
  obtain ⟨n, m, rfl⟩ := (isFinite64_iff a).mp ha
  rw [one64_eq, mul64, mulFin, sigOf_one, expOf_one, Bool.xor_false]
  refine round64_of_exact n ?_
  have h52 : (2 : ℝ) ^ 52 * 2 ^ (-52 : ℤ) = 1 := by norm_num
  rw [magVal_eq, zpow_add₀ (by norm_num)]
  push_cast
  linear_combination ((sigOf fmt64 m.val : ℝ) * 2 ^ expOf fmt64 m.val) * h52

theorem one_mul64 {a : B64} (ha : isFinite64 a = true) : mul64 one64 a = a := by
  rw [mul64_comm, mul64_one ha]

/-- An integer quotient that leaves no remainder is rounded as it is. -/
theorem divFin_of_dvd {na nb : Bool} {ma mb k : Nat} (hmb : mb ≠ 0) (hk : sigOf fmt64 ma * 2 ^ 108 = sigOf fmt64 mb * k) :
    divFin na ma nb mb = round64 (na ^^ nb) k (expOf fmt64 ma - expOf fmt64 mb - 108) false := by
  have hq : sigOf fmt64 mb * k / sigOf fmt64 mb = k := Nat.mul_div_cancel_left k (sigOf_pos hmb)
  have hr : decide (sigOf fmt64 mb * k % sigOf fmt64 mb ≠ 0) = false := by simp
  simp only [divFin, if_neg hmb, hk, hq, hr]

theorem div64_one {a : B64} (ha : isFinite64 a = true) : div64 a one64 = a := by
  obtain ⟨n, m, rfl⟩ := (isFinite64_iff a).mp ha
  have hk : sigOf fmt64 m.val * 2 ^ 108 = sigOf fmt64 0x3FF0000000000000 * (sigOf fmt64 m.val * 2 ^ 56) := by
    rw [sigOf_one]; ring
  rw [one64_eq, div64, divFin_of_dvd (by decide) hk, expOf_one, Bool.xor_false]
  refine round64_of_exact n ?_
  have h56 : (2 : ℝ) ^ 56 * 2 ^ (-56 : ℤ) = 1 := by norm_num
  rw [magVal_eq, show expOf fmt64 m.val - -52 - 108 = expOf fmt64 m.val + (-56) by ring, zpow_add₀ (by norm_num)]
  push_cast
  linear_combination ((sigOf fmt64 m.val : ℝ) * 2 ^ expOf fmt64 m.val) * h56

theorem div64_self {a : B64} (ha : isFinite64 a = true) (h0 : realOf a ≠ 0) : div64 a a = one64 := by
  obtain ⟨n, m, rfl⟩ := (isFinite64_iff a).mp ha
  have hm : m.val ≠ 0 := fun hm => h0 (by rw [realOf_fin, hm, magVal_zero]; simp)
  rw [div64, divFin_of_dvd hm rfl, sub_self, Bool.xor_self, one64_eq]
  refine round64_of_exact false ?_
  rw [magVal_eq, sigOf_one, expOf_one]
  norm_num

/-- The sign of a product does not depend on the factor that carries it. -/
theorem neg64_mul (a b : B64) : mul64 (neg64 a) b = mul64 a (neg64 b) := by
  cases a <;> cases b <;> simp [mul64, mulFin, neg64]

/-! ### Ranges -/

/-- A finite value between two reals. -/
def Within (y : B64) (lo hi : ℝ) : Prop := isFinite64 y = true ∧ lo ≤ realOf y ∧ realOf y ≤ hi

/-- A multiple of 1/8 of moderate size, which a rounding does not cross. -/
def IsEighth (r : ℝ) : Prop := ∃ n : ℤ, n.natAbs < 2 ^ 53 ∧ r = n / 8

theorem IsEighth.exists_value {r : ℝ} (h : IsEighth r) : ∃ z, isFinite64 z = true ∧ realOf z = r := by
  obtain ⟨n, hn, rfl⟩ := h
  obtain ⟨hf, hv⟩ := round64_exact (e := -3) (decide (n < 0)) hn (by norm_num) (by norm_num)
  refine ⟨_, hf, hv.trans ?_⟩
  have h8 : (2 : ℝ) ^ (-3 : ℤ) = 1 / 8 := by norm_num
  rw [h8]
  rcases lt_or_ge n 0 with hneg | hpos
  · rw [if_pos (decide_eq_true hneg), ← Int.cast_natCast, Int.ofNat_natAbs_of_nonpos hneg.le]
    push_cast
    ring
  · rw [if_neg (by simpa using hpos), ← Int.cast_natCast, Int.natAbs_of_nonneg hpos]
    ring

theorem IsRounding.within {y : B64} {x lo hi : ℝ} (h : IsRounding y x) (hlo : IsEighth lo) (hhi : IsEighth hi)
    (h1 : lo ≤ x) (h2 : x ≤ hi) : Within y lo hi := by
  obtain ⟨a, ha, rfl⟩ := hlo.exists_value
  obtain ⟨b, hb, rfl⟩ := hhi.exists_value
  exact h.roundsTo.between ha hb h1 h2

/-! ### The functions of R503 -/

theorem lt64_or_eq64_iff {a b : B64} (ha : isFinite64 a = true) (hb : isFinite64 b = true) :
    (lt64 a b || eq64 a b) = true ↔ realOf a ≤ realOf b := by
  rw [Bool.or_eq_true, lt64_iff ha hb, eq64_iff ha hb, le_iff_lt_or_eq]

/-- The unit in the last place of a real below `2^(k+53)` is at most `2^k`. -/
theorem withinUlp_error {y : B64} {r : ℝ} (h : withinUlp y r) {k : ℤ} (hk : -1074 ≤ k) (hr : |r| < 2 ^ (k + 53)) :
    |realOf y - r| ≤ 2 ^ k := by
  obtain ⟨-, t, -, ht, herr⟩ := h
  refine herr.trans (zpow_le_zpow_right₀ (by norm_num) ?_)
  rcases ht with rfl | ht
  · exact hk
  · have := (zpow_lt_zpow_iff_right₀ (by norm_num : (1 : ℝ) < 2)).mp (ht.trans_lt hr)
    omega

theorem realOf_sineMax : realOf sineMax = 1 + 2 ^ (-52 : ℤ) := by
  have hq : ratOf sineMax = 1 + 2 ^ (-52 : ℤ) := by decide +kernel
  rw [realOf, hq]
  push_cast
  rfl

theorem realOf_pos {y : B64} (h : 0 < ratOf y) : 0 < realOf y := Rat.cast_pos.mpr h

/-- A sine within one unit in the last place of the exact one. -/
theorem sineInRange_of_withinUlp {y : B64} {w : ℝ} (hpos : 0 < ratOf y) (h : withinUlp y (Real.sin w)) :
    sineInRange y = true := by
  have hf := h.1
  have hzero : isFinite64 .posZero = true := rfl
  have hsin := Real.abs_sin_le_one w
  have herr := withinUlp_error h (k := -52) (by norm_num) (by norm_num; linarith)
  rw [sineInRange, Bool.and_eq_true, lt64_iff hzero hf, lt64_or_eq64_iff hf (by decide +kernel), realOf_sineMax,
    show realOf .posZero = 0 from realOf_zero64 false]
  exact ⟨realOf_pos hpos, by linarith [(abs_le.mp herr).2, (abs_le.mp hsin).2]⟩

theorem cosineInRange_iff {y : B64} (hf : isFinite64 y = true) :
    cosineInRange y = true ↔ -1 < realOf y ∧ realOf y < 1 := by
  rw [cosineInRange, Bool.and_eq_true, lt64_iff ((isFinite64_neg64 _).trans isFinite64_one64) hf,
    lt64_iff hf isFinite64_one64, realOf_neg64, realOf_one64]

theorem exponentMax_le : realOf exponentMax ≤ 3 / 10 := by
  have hq : ratOf exponentMax ≤ 3 / 10 := by decide +kernel
  have hR := Rat.cast_le (K := ℝ).mpr hq
  push_cast at hR
  exact hR

theorem exponentInDomain_iff {x : B64} (hf : isFinite64 x = true) :
    exponentInDomain x = true ↔ |realOf x| ≤ realOf exponentMax := by
  have hn : x ≠ .nan := fun hn => by rw [hn] at hf; cases hf
  rw [exponentInDomain, Bool.and_eq_true, Bool.not_eq_true', ← Bool.not_eq_true,
    lt64_iff (by decide +kernel) ((isFinite64_abs64 x).trans hf), realOf_abs64, not_lt]
  exact and_iff_left (decide_eq_true hn)

theorem isFinite64_of_exponentInDomain {x : B64} (h : exponentInDomain x = true) : isFinite64 x = true := by
  cases x with
  | nan => exact absurd h (by decide)
  | inf neg => exact absurd h (by cases neg <;> decide +kernel)
  | fin neg mag => rfl

/-- `10^0.3` and its inverse, by tenth powers. -/
theorem ten_rpow_bounds {x : ℝ} (h : |x| ≤ 3 / 10) : 1 / 1.9955 ≤ (10 : ℝ) ^ x ∧ (10 : ℝ) ^ x ≤ 1.9955 := by
  have hmax : (10 : ℝ) ^ (3 / 10 : ℝ) ≤ 1.9955 := by
    refine le_of_pow_le_pow_left₀ (n := 10) (by norm_num) (by norm_num) ?_
    rw [← Real.rpow_natCast, ← Real.rpow_mul (by norm_num), show (3 / 10 : ℝ) * (10 : ℕ) = (3 : ℕ) by norm_num,
      Real.rpow_natCast]
    norm_num
  obtain ⟨hlo, hhi⟩ := abs_le.mp h
  refine ⟨?_, (Real.rpow_le_rpow_of_exponent_le (by norm_num) hhi).trans hmax⟩
  calc 1 / 1.9955 ≤ 1 / (10 : ℝ) ^ (3 / 10 : ℝ) := one_div_le_one_div_of_le (by positivity) hmax
    _ = (10 : ℝ) ^ (-(3 / 10) : ℝ) := by rw [Real.rpow_neg (by norm_num), one_div]
    _ ≤ (10 : ℝ) ^ x := Real.rpow_le_rpow_of_exponent_le (by norm_num) hlo

/-- R504's bounds, as finite values. -/
theorem amplitude_bounds : isFinite64 (ofBits64 0x3FE0083126E978D5) = true ∧
    isFinite64 (ofBits64 0x3FFFEF9DB22D0E56) = true ∧
    1 / 2 ≤ realOf (ofBits64 0x3FE0083126E978D5) ∧ realOf (ofBits64 0x3FE0083126E978D5) ≤ 5011 / 10000 ∧
    1.9956 ≤ realOf (ofBits64 0x3FFFEF9DB22D0E56) ∧ realOf (ofBits64 0x3FFFEF9DB22D0E56) ≤ 2 := by
  have hq : 1 / 2 ≤ ratOf (ofBits64 0x3FE0083126E978D5) ∧ ratOf (ofBits64 0x3FE0083126E978D5) ≤ 5011 / 10000 ∧
      19956 / 10000 ≤ ratOf (ofBits64 0x3FFFEF9DB22D0E56) ∧ ratOf (ofBits64 0x3FFFEF9DB22D0E56) ≤ 2 := by
    decide +kernel
  obtain ⟨h1, h2, h3, h4⟩ := hq
  rw [← Rat.cast_le (K := ℝ)] at h1 h2 h3 h4
  push_cast at h1 h2 h3 h4
  refine ⟨by decide +kernel, by decide +kernel, h1, h2, ?_, h4⟩
  norm_num at h3 ⊢
  exact h3

theorem amplitudeInRange_of_withinUlp {y : B64} {x : ℝ} (hx : |x| ≤ 3 / 10) (h : withinUlp y ((10 : ℝ) ^ x)) :
    amplitudeInRange y = true := by
  have hf := h.1
  have hn : y ≠ .nan := fun hn => by rw [hn] at hf; cases hf
  obtain ⟨hlo, hhi⟩ := ten_rpow_bounds hx
  obtain ⟨hfl, hfh, -, hmin, hmax, -⟩ := amplitude_bounds
  have hr : |(10 : ℝ) ^ x| < 2 ^ (-52 + 53 : ℤ) := by
    rw [abs_of_pos (by positivity)]
    norm_num at hhi ⊢
    linarith
  obtain ⟨herr1, herr2⟩ := abs_le.mp (withinUlp_error h (by norm_num) hr)
  simp only [amplitudeInRange, Bool.and_eq_true, Bool.not_eq_true', ← Bool.not_eq_true, lt64_iff hf hfl,
    lt64_iff hfh hf, not_lt]
  norm_num at hlo hhi hmin hmax herr1 herr2
  exact ⟨⟨by linarith, by linarith⟩, decide_eq_true hn⟩

theorem meetsR503abc_of_meetsR503 {lm : Libm} (h : MeetsR503 lm) : MeetsR503abc lm where
  powOfZero := h.powOfZero
  sine w hw := sineInRange_of_withinUlp (h.sine w hw).1 (h.sine w hw).2
  cosine w hw := by
    obtain ⟨hlo, hhi, hulp⟩ := h.cosine w hw
    rw [cosineInRange_iff hulp.1, realOf]
    exact ⟨by exact_mod_cast hlo, by exact_mod_cast hhi⟩
  power x hx :=
    amplitudeInRange_of_withinUlp
      (((exponentInDomain_iff (isFinite64_of_exponentInDomain hx)).mp hx).trans exponentMax_le) (h.power x hx).2

/-- Settles O55: the constant is taken from the type of the functions that meet R503, and one unit in the last place of a sine
or of an amplitude is at most `2^-52`. -/
theorem machineFunctionsMeetR503 : Obligations.MachineFunctionsMeetR503 := by
  unfold Obligations.MachineFunctionsMeetR503
  exact ⟨instanceLibm.property, fun lm h => meetsR503abc_of_meetsR503 h⟩

end Sys2Proof.Machine

/-! The coefficient design (spec 41_process R501–R510, R522): the angle stays in R503's domain, the divisor `a0` stays above 1/2, and
a band at 0 dB designs to unity. -/

namespace Sys2Proof.Machine

open Sys2Proof.Safety

/-! ### The angle (41_process R501, R502) -/

/-- Between `2^-30` and `2^30` a rounding is off by at most `2^-53` of its argument. -/
theorem IsRounding.relative_pos {y : B64} {x : ℝ} (h : IsRounding y x) (hlo : 1 / 2 ^ 30 ≤ x) (hhi : x ≤ 2 ^ 30) :
    isFinite64 y = true ∧ x * (1 - 1 / 2 ^ 53) ≤ realOf y ∧ realOf y ≤ x * (1 + 1 / 2 ^ 53) := by
  have habs : |x| = x := abs_of_nonneg (le_trans (by positivity) hlo)
  have hmin : (2 : ℝ) ^ (-1022 : ℤ) ≤ 1 / 2 ^ 30 := by
    rw [one_div, ← zpow_natCast, ← zpow_neg]
    exact zpow_le_zpow_right₀ (by norm_num) (by norm_num)
  have hmax : (2 : ℝ) ^ 30 ≤ 2 ^ (900 : ℤ) := by
    rw [← zpow_natCast]
    exact zpow_le_zpow_right₀ (by norm_num) (by norm_num)
  obtain ⟨hf, herr⟩ := h.relative (habs.symm ▸ hmin.trans hlo) (habs.symm ▸ hhi.trans hmax)
  rw [habs] at herr
  obtain ⟨herr1, herr2⟩ := abs_le.mp herr
  exact ⟨hf, by linarith, by linarith⟩

theorem realOf_nyqFrac : realOf nyqFrac = 8106479329266893 / 2 ^ 54 := by
  have hq : ratOf nyqFrac = 8106479329266893 / 2 ^ 54 := by decide +kernel
  rw [realOf, hq]
  push_cast
  rfl

theorem twoPi_eq : isFinite64 (mul64 two64 pi64) = true ∧ realOf (mul64 two64 pi64) = 7074237752028440 / 2 ^ 50 := by
  have hq : ratOf (mul64 two64 pi64) = 7074237752028440 / 2 ^ 50 := by decide +kernel
  refine ⟨by decide +kernel, ?_⟩
  rw [realOf, hq]
  push_cast
  rfl

theorem realOf_angleMax : realOf angleMax = 6366813976825601 / 2 ^ 51 := by
  have hq : ratOf angleMax = 6366813976825601 / 2 ^ 51 := by decide +kernel
  rw [realOf, hq]
  push_cast
  rfl

theorem angleMax_lt : realOf angleMax < 0.9 * Real.pi * (1 + 2 ^ (-50 : ℤ)) := by
  have hpi := Real.pi_gt_d20
  rw [realOf_angleMax]
  norm_num at hpi ⊢
  linarith

theorem angleInDomain_of_bounds {w : B64} (hf : isFinite64 w = true) (h0 : 0 < realOf w)
    (h1 : realOf w ≤ realOf angleMax) : angleInDomain w = true := by
  rw [angleInDomain, Bool.and_eq_true, lt64_iff rfl hf, lt64_or_eq64_iff hf (by decide +kernel),
    show realOf .posZero = 0 from realOf_zero64 false]
  exact ⟨h0, h1⟩

section
variable {freq : Word} {rate : Nat} (hfreq : wordInRange fMin fMax freq = true) (h1 : 1 ≤ rate) (h2 : rate ≤ 1000000)
include hfreq h1 h2

/-- The effective frequency is at least 1/4 Hz and at most the rounded limit. -/
theorem effectiveFreq_bounds : isFinite64 (effectiveFreq freq (ofNat64 rate)) = true ∧
    1 / 4 ≤ realOf (effectiveFreq freq (ofNat64 rate)) ∧
    realOf (effectiveFreq freq (ofNat64 rate)) ≤ realOf nyqFrac * rate * (1 + 1 / 2 ^ 53) := by
  obtain ⟨hrf, hr⟩ := ofNat64_exact (n := rate) (by omega)
  have h1R : (1 : ℝ) ≤ rate := by exact_mod_cast h1
  have h2R : (rate : ℝ) ≤ 1000000 := by exact_mod_cast h2
  have hround := mul64_isRounding (a := nyqFrac) (by decide +kernel) hrf
  rw [hr, realOf_nyqFrac] at hround
  obtain ⟨hlf, hllo, hlhi⟩ := hround.relative_pos (by linarith) (by linarith)
  obtain ⟨hwf, hval, h10⟩ := widen_freq hfreq
  have hw : 10 ≤ realOf (widen (ofBits32 freq)) := by
    rw [realOf, hval]
    exact_mod_cast h10
  rw [realOf_nyqFrac]
  rcases lt_or_ge (ratOf (widen (ofBits32 freq))) (ratOf (mul64 nyqFrac (ofNat64 rate))) with hlt | hge
  · rw [effectiveFreq_of_lt hwf hlf hlt]
    exact ⟨hwf, by linarith, (Rat.cast_le (K := ℝ).mpr hlt.le).trans hlhi⟩
  · rw [effectiveFreq_of_le hwf hlf hge]
    exact ⟨hlf, by linarith, hlhi⟩

/-- Three roundings of `2π · 0.45` stay below the domain's end. -/
theorem angularFreq_bounds : isFinite64 (angularFreq (effectiveFreq freq (ofNat64 rate)) (ofNat64 rate)) = true ∧
    0 < realOf (angularFreq (effectiveFreq freq (ofNat64 rate)) (ofNat64 rate)) ∧
    realOf (angularFreq (effectiveFreq freq (ofNat64 rate)) (ofNat64 rate)) ≤ realOf angleMax := by
  obtain ⟨hrf, hr⟩ := ofNat64_exact (n := rate) (by omega)
  have h1R : (1 : ℝ) ≤ rate := by exact_mod_cast h1
  have h2R : (rate : ℝ) ≤ 1000000 := by exact_mod_cast h2
  obtain ⟨hff, hflo, hfhi⟩ := effectiveFreq_bounds hfreq h1 h2
  obtain ⟨hpf, hp⟩ := twoPi_eq
  rw [realOf_nyqFrac] at hfhi
  have hprod := mul64_isRounding hpf hff
  rw [hp] at hprod
  obtain ⟨hmf, hmlo, hmhi⟩ := hprod.relative_pos (by linarith) (by linarith)
  have hquot := div64_isRounding hmf hrf (by rw [hr]; positivity)
  rw [hr] at hquot
  have hqlo : 1 / 2 ^ 30 ≤ realOf (mul64 (mul64 two64 pi64) (effectiveFreq freq (ofNat64 rate))) / rate := by
    rw [le_div_iff₀ (by positivity)]
    linarith
  have hqhi : realOf (mul64 (mul64 two64 pi64) (effectiveFreq freq (ofNat64 rate))) / rate ≤
      7074237752028440 / 2 ^ 50 * (8106479329266893 / 2 ^ 54) * (1 + 1 / 2 ^ 53) ^ 2 := by
    rw [div_le_iff₀ (by positivity)]
    linarith
  obtain ⟨hwf, hwlo, hwhi⟩ := hquot.relative_pos hqlo (hqhi.trans (by norm_num))
  refine ⟨hwf, lt_of_lt_of_le (by linarith) hwlo, hwhi.trans ?_⟩
  rw [realOf_angleMax]
  linarith

theorem angularFreq_inDomain :
    angleInDomain (angularFreq (effectiveFreq freq (ofNat64 rate)) (ofNat64 rate)) = true := by
  obtain ⟨hf, h0, hmax⟩ := angularFreq_bounds hfreq h1 h2
  exact angleInDomain_of_bounds hf h0 hmax
end

/-- Settles O54: the limit of the effective frequency, and three roundings, leave room below the domain's end. -/
theorem angleStaysInTheDesignDomain : Obligations.AngleStaysInTheDesignDomain := by
  unfold Obligations.AngleStaysInTheDesignDomain
  intro freq rate hfreq h1 h2 w0
  obtain ⟨-, h0, hmax⟩ := angularFreq_bounds hfreq h1 h2
  exact ⟨angularFreq_inDomain hfreq h1 h2, Rat.cast_pos.mp h0, hmax.trans_lt angleMax_lt⟩

/-! ### The inputs of the design (41_process R503, R504) -/

theorem within_of_keys {y a b : B64} (hn : y ≠ .nan) (ha : isFinite64 a = true) (hb : isFinite64 b = true)
    (h1 : key64 a ≤ key64 y) (h2 : key64 y ≤ key64 b) : Within y (realOf a) (realOf b) := by
  have hf := isFinite64_of_key hn ha hb h1 h2
  exact ⟨hf, (key64_le_iff ha hf).mp h1, (key64_le_iff hf hb).mp h2⟩

theorem Within.mono {y : B64} {lo hi lo' hi' : ℝ} (h : Within y lo hi) (hlo : lo' ≤ lo) (hhi : hi ≤ hi') :
    Within y lo' hi' := by
  obtain ⟨hf, h1, h2⟩ := h
  exact ⟨hf, hlo.trans h1, h2.trans hhi⟩

theorem lt64_eq_true {a b : B64} (h : lt64 a b = true) : a ≠ .nan ∧ b ≠ .nan ∧ key64 a < key64 b := of_decide_eq_true h

theorem key64_le_of_not_lt64 {a b : B64} (ha : a ≠ .nan) (hb : b ≠ .nan) (h : lt64 a b = false) : key64 b ≤ key64 a := by
  by_contra hlt
  exact of_decide_eq_false h ⟨ha, hb, not_le.mp hlt⟩

theorem within_of_sineInRange {y : B64} (h : sineInRange y = true) : Within y 0 2 := by
  rw [sineInRange, Bool.and_eq_true, Bool.or_eq_true] at h
  obtain ⟨hpos, hmax⟩ := h
  obtain ⟨-, hn, hpos⟩ := lt64_eq_true hpos
  have hkey : key64 y ≤ key64 sineMax := by
    rcases hmax with hlt | heq
    · exact (lt64_eq_true hlt).2.2.le
    · exact (of_decide_eq_true heq).2.2.le
  refine (within_of_keys hn rfl (by decide +kernel) hpos.le hkey).mono (realOf_zero64 false).ge ?_
  rw [realOf_sineMax]
  norm_num

theorem within_of_cosineInRange {y : B64} (h : cosineInRange y = true) : Within y (-1) 1 := by
  rw [cosineInRange, Bool.and_eq_true] at h
  obtain ⟨hlo, hhi⟩ := h
  obtain ⟨-, hn, hlo⟩ := lt64_eq_true hlo
  obtain ⟨-, -, hhi⟩ := lt64_eq_true hhi
  have hw := within_of_keys hn ((isFinite64_neg64 _).trans isFinite64_one64) isFinite64_one64 hlo.le hhi.le
  rwa [realOf_neg64, realOf_one64] at hw

theorem within_of_amplitudeInRange {y : B64} (h : amplitudeInRange y = true) : Within y (1 / 2) 2 := by
  simp only [amplitudeInRange, Bool.and_eq_true, Bool.not_eq_true', decide_eq_true_eq] at h
  obtain ⟨⟨hlo, hhi⟩, hn⟩ := h
  obtain ⟨hfl, hfh, hmin, -, -, hmax⟩ := amplitude_bounds
  exact (within_of_keys hn hfl hfh (key64_le_of_not_lt64 hn (by decide +kernel) hlo)
    (key64_le_of_not_lt64 (by decide +kernel) hn hhi)).mono hmin hmax

/-- A stored parameter, widened, lies between the values of its bounds. -/
theorem widen_within {lo hi v : Word} {a b : ℚ} (h : wordInRange lo hi v = true) (hlo : hasValue32 lo a)
    (hhi : hasValue32 hi b) : Within (widen (ofBits32 v)) a b := by
  obtain ⟨nl, ml, hl, rfl⟩ := hlo
  obtain ⟨nh, mh, hh, rfl⟩ := hhi
  obtain ⟨n, m, hv, h1, h2⟩ := wordInRange_finite h hl hh
  obtain ⟨hf, hval⟩ := widen_exact n m
  rw [hv, Within, hval]
  exact ⟨hf, Rat.cast_le.mpr h1, Rat.cast_le.mpr h2⟩

/-- Of two neighbouring values, the rounding of a real nearer to the lower one is at most that. -/
theorem IsRounding.le_of_nearer {y z z' : B64} {x : ℝ} (h : IsRounding y x) (hy : isFinite64 y = true)
    (hz : isFinite64 z = true) (hz' : isFinite64 z' = true) (hnext : key64 z' = key64 z + 1)
    (hx : 2 * x < realOf z + realOf z') : realOf y ≤ realOf z := by
  by_contra hlt
  have hkey := (key64_lt_iff hz hy).mpr (not_le.mp hlt)
  have hzz' := (key64_lt_iff hz hz').mp (by omega)
  have hz'y := (key64_le_iff hz' hy).mp (by omega)
  have hnear := h.nearest hy hz
  have hfar : |realOf z - x| < realOf z' - x := abs_lt.mpr ⟨by linarith, by linarith⟩
  linarith [le_abs_self (realOf y - x)]

/-- A rounding of at most 0.3 in magnitude is in the domain of `Pow10_64`, whose end is the value below 0.3. -/
theorem exponentInDomain_of_isRounding {y : B64} {x : ℝ} (h : IsRounding y x) (hx : |x| ≤ 3 / 10) :
    exponentInDomain y = true := by
  obtain ⟨hlo, hhi⟩ := abs_le.mp hx
  have hf : isFinite64 y = true :=
    (h.within (lo := -1) (hi := 1) ⟨-8, by decide, by norm_num⟩ ⟨8, by decide, by norm_num⟩ (by linarith) (by linarith)).1
  have hmf : isFinite64 exponentMax = true := by decide +kernel
  have hnf : isFinite64 (ofBits64 0x3FD3333333333334) = true := by decide +kernel
  have hnext : key64 (ofBits64 0x3FD3333333333334) = key64 exponentMax + 1 := by decide +kernel
  have hmid : 2 * (3 / 10) < realOf exponentMax + realOf (ofBits64 0x3FD3333333333334) := by
    have hq : 2 * (3 / 10) < ratOf exponentMax + ratOf (ofBits64 0x3FD3333333333334) := by decide +kernel
    have hR := (Rat.cast_lt (K := ℝ)).mpr hq
    push_cast at hR
    exact hR
  rw [exponentInDomain_iff hf, abs_le]
  have hpos := h.le_of_nearer hf hmf hnf hnext (by linarith)
  have hneg := h.neg.le_of_nearer ((isFinite64_neg64 y).trans hf) hmf hnf hnext (by linarith)
  rw [realOf_neg64] at hneg
  exact ⟨by linarith, hpos⟩

theorem isFinite64_forty64 : isFinite64 forty64 = true := by decide +kernel

theorem realOf_forty64 : realOf forty64 = 40 := by
  have hq : ratOf forty64 = 40 := by decide +kernel
  rw [realOf, hq]
  push_cast
  rfl

theorem exponentInDomain_gain {gain : Word} (h : wordInRange gainMin gainMax gain = true) :
    exponentInDomain (div64 (widen (ofBits32 gain)) forty64) = true := by
  obtain ⟨hf, hlo, hhi⟩ := widen_within h gain_bounds.1 gain_bounds.2
  have hround := div64_isRounding hf isFinite64_forty64 (by rw [realOf_forty64]; norm_num)
  rw [realOf_forty64] at hround
  refine exponentInDomain_of_isRounding hround ?_
  push_cast at hlo hhi
  rw [abs_le]
  constructor <;> linarith

/-- What the design is given, in ranges wide enough for every band in range. -/
structure DesignRange (sw cw a : B64) (q : Word) : Prop where
  sine : Within sw 0 2
  cosine : Within cw (-1) 1
  amplitude : Within a (1 / 2) 2
  quality : Within (widen (ofBits32 q)) (1 / 16) 16

theorem widen_q_within {q : Word} (h : wordInRange qMin qMax q = true) : Within (widen (ofBits32 q)) (1 / 16) 16 := by
  have hmin : 1 / 16 ≤ ratOf32 (ofBits32 qMin) := by decide +kernel
  have hminR := (Rat.cast_le (K := ℝ)).mpr hmin
  push_cast at hminR
  exact (widen_within h q_bounds.1 q_bounds.2).mono hminR (by norm_num)

theorem designRange_of_band {lm : Libm} {band : Band} {rate : Nat} (hlm : MeetsR503abc lm)
    (hband : bandInRange band = true) (h1 : 1 ≤ rate) (h2 : rate ≤ 1000000) :
    DesignRange (lm.sin64 (angularFreq (effectiveFreq band.freq (ofNat64 rate)) (ofNat64 rate)))
      (lm.cos64 (angularFreq (effectiveFreq band.freq (ofNat64 rate)) (ofNat64 rate)))
      (amplitude lm band.gain) band.q := by
  obtain ⟨hfreq, hgain, hq⟩ := (bandInRange_iff band).mp hband
  have hw := angularFreq_inDomain hfreq h1 h2
  exact ⟨within_of_sineInRange (hlm.sine _ hw), within_of_cosineInRange (hlm.cosine _ hw),
    within_of_amplitudeInRange (hlm.power _ (exponentInDomain_gain hgain)), widen_q_within hq⟩

/-! ### The divisor (41_process R505–R509) -/

theorem one64_within : Within one64 1 1 := ⟨isFinite64_one64, realOf_one64.ge, realOf_one64.le⟩

theorem two64_eq : isFinite64 two64 = true ∧ realOf two64 = 2 := by
  have hq : ratOf two64 = 2 := by decide +kernel
  refine ⟨by decide +kernel, ?_⟩
  rw [realOf, hq]
  push_cast
  rfl

theorem two64_within : Within two64 2 2 := ⟨two64_eq.1, two64_eq.2.ge, two64_eq.2.le⟩

theorem sqrt2_within : Within sqrt2 0 2 := by
  have hq : 0 ≤ ratOf sqrt2 ∧ ratOf sqrt2 ≤ 2 := by decide +kernel
  have h0 := (Rat.cast_le (K := ℝ)).mpr hq.1
  have h2 := (Rat.cast_le (K := ℝ)).mpr hq.2
  push_cast at h0 h2
  exact ⟨by decide +kernel, h0, h2⟩

section
variable {a b : B64} {la ua lb ub lo hi : ℝ} (ha : Within a la ua) (hb : Within b lb ub)
include ha hb

theorem Within.add (hlo : IsEighth lo) (hhi : IsEighth hi) (h1 : lo ≤ la + lb) (h2 : ua + ub ≤ hi) :
    Within (add64 a b) lo hi := by
  obtain ⟨hfa, ha1, ha2⟩ := ha
  obtain ⟨hfb, hb1, hb2⟩ := hb
  exact (add64_isRounding hfa hfb).within hlo hhi (by linarith) (by linarith)

theorem Within.sub (hlo : IsEighth lo) (hhi : IsEighth hi) (h1 : lo ≤ la - ub) (h2 : ua - lb ≤ hi) :
    Within (sub64 a b) lo hi := by
  obtain ⟨hfa, ha1, ha2⟩ := ha
  obtain ⟨hfb, hb1, hb2⟩ := hb
  exact (sub64_isRounding hfa hfb).within hlo hhi (by linarith) (by linarith)

/-- Factors that are not negative. -/
theorem Within.prod_nonneg (hlo : IsEighth lo) (hhi : IsEighth hi) (ha0 : 0 ≤ la) (hb0 : 0 ≤ lb) (h1 : lo ≤ la * lb)
    (h2 : ua * ub ≤ hi) : Within (mul64 a b) lo hi := by
  obtain ⟨hfa, ha1, ha2⟩ := ha
  obtain ⟨hfb, hb1, hb2⟩ := hb
  exact (mul64_isRounding hfa hfb).within hlo hhi
    (h1.trans (mul_le_mul ha1 hb1 hb0 (ha0.trans ha1)))
    ((mul_le_mul ha2 hb2 (hb0.trans hb1) (ha0.trans (ha1.trans ha2))).trans h2)

/-- A dividend that is not negative, by a positive divisor. -/
theorem Within.quot_nonneg (hhi : IsEighth hi) (ha0 : 0 ≤ la) (hb0 : 0 < lb) (h2 : ua / lb ≤ hi) :
    Within (div64 a b) 0 hi := by
  obtain ⟨hfa, ha1, ha2⟩ := ha
  obtain ⟨hfb, hb1, hb2⟩ := hb
  have hbpos := hb0.trans_le hb1
  exact (div64_isRounding hfa hfb hbpos.ne').within ⟨0, by decide, by norm_num⟩ hhi
    (div_nonneg (ha0.trans ha1) hbpos.le)
    ((div_le_div₀ (ha0.trans (ha1.trans ha2)) ha2 hb0 hb1).trans h2)
end

/-- A product of magnitude at most the product of the bounds. -/
theorem Within.mul_abs {a b : B64} {p r hi : ℝ} (ha : Within a (-p) p) (hb : Within b (-r) r) (hhi : IsEighth hi)
    (hlo : IsEighth (-hi)) (h : p * r ≤ hi) : Within (mul64 a b) (-hi) hi := by
  obtain ⟨hfa, ha1, ha2⟩ := ha
  obtain ⟨hfb, hb1, hb2⟩ := hb
  have habs : |realOf a * realOf b| ≤ hi := by
    rw [abs_mul]
    exact (mul_le_mul (abs_le.mpr ⟨ha1, ha2⟩) (abs_le.mpr ⟨hb1, hb2⟩) (abs_nonneg _)
      (by linarith)).trans h
  obtain ⟨h1, h2⟩ := abs_le.mp habs
  exact (mul64_isRounding hfa hfb).within hlo hhi h1 h2

/-- A quotient by a divisor of at least 1/2. -/
theorem Within.div_abs {a b : B64} {p ub hi : ℝ} (ha : Within a (-p) p) (hb : Within b (1 / 2) ub) (hhi : IsEighth hi)
    (hlo : IsEighth (-hi)) (h : 2 * p ≤ hi) : Within (div64 a b) (-hi) hi := by
  obtain ⟨hfa, ha1, ha2⟩ := ha
  obtain ⟨hfb, hb1, hb2⟩ := hb
  have hbpos : 0 < realOf b := by linarith
  refine (div64_isRounding hfa hfb hbpos.ne').within hlo hhi ?_ ?_
  · rw [le_div_iff₀ hbpos]; nlinarith
  · rw [div_le_iff₀ hbpos]; nlinarith

section
variable {sw cw a : B64} {q : Word} (h : DesignRange sw cw a q)
include h

/-- `alpha` of R505. -/
theorem peakingAlpha_within : Within (div64 sw (mul64 two64 (widen (ofBits32 q)))) 0 16 :=
  h.sine.quot_nonneg (two64_within.prod_nonneg h.quality (lo := 1 / 8) (hi := 32) ⟨1, by decide, by norm_num⟩
    ⟨256, by decide, by norm_num⟩ (by norm_num) (by norm_num) (by norm_num) (by norm_num))
    ⟨128, by decide, by norm_num⟩ le_rfl (by norm_num) (by norm_num)

theorem rawPeaking_a0_within : Within (rawPeaking sw cw a q).a0 (1 / 2) 40 :=
  one64_within.add ((peakingAlpha_within h).quot_nonneg h.amplitude (hi := 32) ⟨256, by decide, by norm_num⟩ le_rfl
    (by norm_num) (by norm_num)) ⟨4, by decide, by norm_num⟩ ⟨320, by decide, by norm_num⟩ (by norm_num) (by norm_num)

theorem sqrt64_amplitude_within : Within (sqrt64 a) 0 2 := by
  obtain ⟨hf, h1, h2⟩ := h.amplitude
  refine (sqrt64_isRounding hf (by linarith)).within ⟨0, by decide, by norm_num⟩ ⟨16, by decide, by norm_num⟩
    (Real.sqrt_nonneg _) ?_
  exact Real.sqrt_le_iff.mpr ⟨by norm_num, by linarith⟩

/-- `t` of R506. -/
theorem shelfT_within : Within (shelfT sw a) 0 8 := by
  have halpha : Within (mul64 (div64 sw two64) sqrt2) 0 2 :=
    (h.sine.quot_nonneg two64_within (hi := 1) ⟨8, by decide, by norm_num⟩ le_rfl (by norm_num) (by norm_num)).prod_nonneg
      sqrt2_within ⟨0, by decide, by norm_num⟩ ⟨16, by decide, by norm_num⟩ le_rfl le_rfl (by norm_num) (by norm_num)
  have hroot : Within (mul64 two64 (sqrt64 a)) 0 4 :=
    two64_within.prod_nonneg (sqrt64_amplitude_within h) ⟨0, by decide, by norm_num⟩ ⟨32, by decide, by norm_num⟩
      (by norm_num) le_rfl (by norm_num) (by norm_num)
  exact hroot.prod_nonneg halpha ⟨0, by decide, by norm_num⟩ ⟨64, by decide, by norm_num⟩ le_rfl le_rfl (by norm_num)
    (by norm_num)

/-- `(A + 1)` exceeds `(A - 1) * cos(w0)` in magnitude by at least 1/2. -/
theorem shelfParts_within : Within (add64 a one64) (3 / 2) 3 ∧ Within (mul64 (sub64 a one64) cw) (-1) 1 :=
  ⟨h.amplitude.add one64_within ⟨12, by decide, by norm_num⟩ ⟨24, by decide, by norm_num⟩ (by norm_num) (by norm_num),
    Within.mul_abs (p := 1) (r := 1) (h.amplitude.sub one64_within ⟨-8, by decide, by norm_num⟩
      ⟨8, by decide, by norm_num⟩ (by norm_num) (by norm_num)) h.cosine ⟨8, by decide, by norm_num⟩
      ⟨-8, by decide, by norm_num⟩ (by norm_num)⟩

theorem rawLowShelf_a0_within : Within (rawLowShelf sw cw a).a0 (1 / 2) 40 := by
  obtain ⟨hap1, hprod⟩ := shelfParts_within h
  exact (hap1.add hprod (lo := 1 / 2) (hi := 4) ⟨4, by decide, by norm_num⟩ ⟨32, by decide, by norm_num⟩ (by norm_num)
    (by norm_num)).add (shelfT_within h) ⟨4, by decide, by norm_num⟩ ⟨320, by decide, by norm_num⟩ (by norm_num)
    (by norm_num)

theorem rawHighShelf_a0_within : Within (rawHighShelf sw cw a).a0 (1 / 2) 40 := by
  obtain ⟨hap1, hprod⟩ := shelfParts_within h
  exact (hap1.sub hprod (lo := 1 / 2) (hi := 4) ⟨4, by decide, by norm_num⟩ ⟨32, by decide, by norm_num⟩ (by norm_num)
    (by norm_num)).add (shelfT_within h) ⟨4, by decide, by norm_num⟩ ⟨320, by decide, by norm_num⟩ (by norm_num)
    (by norm_num)

theorem rawCoeffs_a0_within (ty : BandType) : Within (rawCoeffs ty sw cw a q).a0 (1 / 2) 40 := by
  cases ty with
  | peaking => exact rawPeaking_a0_within h
  | lowShelf => exact rawLowShelf_a0_within h
  | highShelf => exact rawHighShelf_a0_within h
end

/-- Settles O56: `a0` is a rounding of a real of at least 1/2, for each type. -/
theorem designDivisorIsPositive : Obligations.DesignDivisorIsPositive := by
  unfold Obligations.DesignDivisorIsPositive
  intro lm ty band rate hlm hband h1 h2
  obtain ⟨hf, hlo, -⟩ := rawCoeffs_a0_within (designRange_of_band hlm hband h1 h2) ty
  exact ⟨hf, Rat.cast_pos.mp (lt_of_lt_of_le (by norm_num) hlo)⟩

/-- Settles O59: a shelf's raw coefficients are functions of the angle and the amplitude alone. -/
theorem shelvesIgnoreQ : Obligations.ShelvesIgnoreQ := by
  unfold Obligations.ShelvesIgnoreQ
  exact fun lm ty band q rate h => design_of_ne_peaking h lm band q rate

end Sys2Proof.Machine

/-! A band at 0 dB designs to unity, and a unity stage passes an impulse (spec 41_process R522). -/

namespace Sys2Proof.Machine

open Sys2Proof.Safety

/-! ### The raw coefficients at 0 dB -/

theorem SameValue.symm {a b : B64} (h : SameValue a b) : SameValue b a := by
  obtain ⟨ha, hb, hab⟩ := h
  exact ⟨hb, ha, hab.symm⟩

theorem SameValue.trans {a b c : B64} (h : SameValue a b) (h' : SameValue b c) : SameValue a c := by
  obtain ⟨ha, -, hab⟩ := h
  obtain ⟨-, hc, hbc⟩ := h'
  exact ⟨ha, hc, hab.trans hbc⟩

theorem SameValue.neg {a b : B64} (h : SameValue a b) : SameValue (neg64 a) (neg64 b) := by
  obtain ⟨ha, hb, hab⟩ := h
  exact ⟨(isFinite64_neg64 a).trans ha, (isFinite64_neg64 b).trans hb, by rw [realOf_neg64, realOf_neg64, hab]⟩

theorem realOf_posZero : realOf .posZero = 0 := realOf_zero64 false

/-- A rounding of a finite value other than zero is that value. -/
theorem IsRounding.eq_of_ne_zero {y z : B64} {x : ℝ} (h : IsRounding y x) (hz : isFinite64 z = true) (hx : realOf z = x)
    (h0 : x ≠ 0) : y = z :=
  (h.sameValue hz hx).eq_or_zero.resolve_right fun hzero => h0 (hx.symm.trans hzero.2)

/-- The raw coefficients of a band at 0 dB: numerator and denominator are the same numbers. -/
structure UnityRaw (r : RawCoeffs) : Prop where
  first : r.b0 = r.a0
  second : SameValue r.b1 r.a1
  third : r.b2 = r.a2
  divisor : Within r.a0 (1 / 2) 40
  secondRange : Within r.b1 (-8) 8
  thirdRange : Within r.b2 (-40) 40

theorem unityRaw_of_sameValue {d n1 n2 d1 : B64} (h1 : SameValue n1 d1) (hdiv : Within d (1 / 2) 40)
    (hr1 : Within n1 (-8) 8) (hr2 : Within n2 (-40) 40) : UnityRaw ⟨d, n1, n2, d, d1, n2⟩ :=
  ⟨rfl, h1, rfl, hdiv, hr1, hr2⟩

theorem UnityRaw.normalise {r : RawCoeffs} (h : UnityRaw r) : (normalise r).c0 = one64 ∧
    eq64 (normalise r).c1 (normalise r).c3 = true ∧ eq64 (normalise r).c2 (normalise r).c4 = true := by
  obtain ⟨h0, h1, h2, hdiv, hr1, hr2⟩ := h
  have hne : realOf r.a0 ≠ 0 := (lt_of_lt_of_le (by norm_num) hdiv.2.1).ne'
  have hc1 : isFinite64 (div64 r.b1 r.a0) = true :=
    (hr1.div_abs hdiv (hi := 16) ⟨128, by decide, by norm_num⟩ ⟨-128, by decide, by norm_num⟩ (by norm_num)).1
  have hc2 : isFinite64 (div64 r.b2 r.a0) = true :=
    (hr2.div_abs hdiv (hi := 80) ⟨640, by decide, by norm_num⟩ ⟨-640, by decide, by norm_num⟩ (by norm_num)).1
  refine ⟨?_, (h1.div hdiv.1 hne hc1).eq64, ?_⟩
  · rw [Machine.normalise, h0, div64_self hdiv.1 hne]
  · rw [Machine.normalise, ← h2]
    exact (SameValue.refl hc2).eq64

/-- `A - 1`, `A + 1` and `2 * A` of R507 and R508 at 0 dB. -/
theorem shelf_constants : sub64 one64 one64 = .posZero ∧ add64 one64 one64 = two64 ∧ minusTwo64 = neg64 two64 := by
  decide +kernel

section
variable {sw cw : B64} {q : Word} (h : DesignRange sw cw one64 q)
include h

theorem rawPeaking_unity : UnityRaw (rawPeaking sw cw one64 q) := by
  have halpha := peakingAlpha_within h
  have hmul := mul64_one halpha.1
  have hdiv := div64_one halpha.1
  have htwo : Within minusTwo64 (-2) 2 := by
    rw [shelf_constants.2.2, Within, isFinite64_neg64, realOf_neg64, two64_eq.2]
    exact ⟨two64_eq.1, le_rfl, by norm_num⟩
  have hb1 : Within (mul64 minusTwo64 cw) (-8) 8 :=
    htwo.mul_abs h.cosine ⟨64, by decide, by norm_num⟩ ⟨-64, by decide, by norm_num⟩ (by norm_num)
  have hb2 : Within (sub64 one64 (div64 sw (mul64 two64 (widen (ofBits32 q))))) (-40) 40 :=
    one64_within.sub halpha ⟨-320, by decide, by norm_num⟩ ⟨320, by decide, by norm_num⟩ (by norm_num) (by norm_num)
  refine ⟨?_, SameValue.refl hb1.1, ?_, rawPeaking_a0_within h, hb1, ?_⟩
  · simp only [rawPeaking, hmul, hdiv]
  · simp only [rawPeaking, hmul, hdiv]
  · simp only [rawPeaking, hmul]
    exact hb2

/-- At 0 dB the terms with `A - 1` fall out of the first and third coefficients of a shelf. -/
theorem shelf_first_unity : add64 two64 (mul64 .posZero cw) = two64 ∧ sub64 two64 (mul64 .posZero cw) = two64 := by
  have hzero := mul64_isRounding (a := .posZero) rfl h.cosine.1
  rw [realOf_posZero, zero_mul] at hzero
  obtain ⟨hf, -, hv⟩ := hzero.zero
  rw [realOf_posZero] at hv
  have hadd := add64_isRounding two64_eq.1 hf
  have hsub := sub64_isRounding two64_eq.1 hf
  rw [hv, add_zero] at hadd
  rw [hv, sub_zero] at hsub
  have h0 : realOf two64 ≠ 0 := by rw [two64_eq.2]; norm_num
  exact ⟨hadd.eq_of_ne_zero two64_eq.1 rfl h0, hsub.eq_of_ne_zero two64_eq.1 rfl h0⟩

/-- The second coefficients of a shelf at 0 dB: `2 * (0 - p)` and `-2 * (0 + p)`. -/
theorem shelf_second_unity : Within (mul64 two64 (sub64 .posZero (mul64 two64 cw))) (-8) 8 ∧
    SameValue (mul64 two64 (sub64 .posZero (mul64 two64 cw))) (mul64 minusTwo64 (add64 .posZero (mul64 two64 cw))) := by
  have htwo : Within two64 (-2) 2 := two64_within.mono (by norm_num) le_rfl
  have hp : Within (mul64 two64 cw) (-2) 2 :=
    htwo.mul_abs h.cosine ⟨16, by decide, by norm_num⟩ ⟨-16, by decide, by norm_num⟩ (by norm_num)
  have hzero : Within .posZero 0 0 := ⟨rfl, realOf_posZero.ge, realOf_posZero.le⟩
  have hv : Within (sub64 .posZero (mul64 two64 cw)) (-2) 2 :=
    hzero.sub hp ⟨-16, by decide, by norm_num⟩ ⟨16, by decide, by norm_num⟩ (by norm_num) (by norm_num)
  have hrange : Within (mul64 two64 (sub64 .posZero (mul64 two64 cw))) (-8) 8 :=
    htwo.mul_abs hv ⟨64, by decide, by norm_num⟩ ⟨-64, by decide, by norm_num⟩ (by norm_num)
  have hsub : SameValue (sub64 .posZero (mul64 two64 cw)) (neg64 (mul64 two64 cw)) :=
    (sub64_isRounding rfl hp.1).sameValue ((isFinite64_neg64 _).trans hp.1) (by rw [realOf_neg64, realOf_posZero, zero_sub])
  have hadd : SameValue (add64 .posZero (mul64 two64 cw)) (mul64 two64 cw) :=
    (add64_isRounding rfl hp.1).sameValue hp.1 (by rw [realOf_posZero, zero_add])
  refine ⟨hrange, ?_⟩
  rw [shelf_constants.2.2, neg64_mul]
  exact (SameValue.refl two64_eq.1).mul (hsub.trans hadd.neg.symm) hrange.1

theorem shelf_third_unity : Within (sub64 two64 (shelfT sw one64)) (-40) 40 :=
  two64_within.sub (shelfT_within h) ⟨-320, by decide, by norm_num⟩ ⟨320, by decide, by norm_num⟩ (by norm_num)
    (by norm_num)

theorem shelf_zeroth_unity : isFinite64 (add64 two64 (shelfT sw one64)) = true :=
  (two64_within.add (shelfT_within h) (lo := 2) (hi := 10) ⟨16, by decide, by norm_num⟩ ⟨80, by decide, by norm_num⟩
    (by norm_num) (by norm_num)).1

theorem rawLowShelf_eq_unity : rawLowShelf sw cw one64 =
    ⟨add64 two64 (shelfT sw one64), mul64 two64 (sub64 .posZero (mul64 two64 cw)), sub64 two64 (shelfT sw one64),
      add64 two64 (shelfT sw one64), mul64 minusTwo64 (add64 .posZero (mul64 two64 cw)), sub64 two64 (shelfT sw one64)⟩ := by
  obtain ⟨hadd, hsub⟩ := shelf_first_unity h
  obtain ⟨hm1, hp1, -⟩ := shelf_constants
  simp only [rawLowShelf, hm1, hp1, hadd, hsub, mul64_one two64_eq.1, one_mul64 (shelf_zeroth_unity h),
    one_mul64 (shelf_third_unity h).1]

theorem rawHighShelf_eq_unity : rawHighShelf sw cw one64 =
    ⟨add64 two64 (shelfT sw one64), mul64 minusTwo64 (add64 .posZero (mul64 two64 cw)), sub64 two64 (shelfT sw one64),
      add64 two64 (shelfT sw one64), mul64 two64 (sub64 .posZero (mul64 two64 cw)), sub64 two64 (shelfT sw one64)⟩ := by
  obtain ⟨hadd, hsub⟩ := shelf_first_unity h
  obtain ⟨hm1, hp1, hneg⟩ := shelf_constants
  have hminus : isFinite64 minusTwo64 = true := hneg ▸ (isFinite64_neg64 _).trans two64_eq.1
  simp only [rawHighShelf, hm1, hp1, hadd, hsub, mul64_one hminus, one_mul64 (shelf_zeroth_unity h),
    one_mul64 (shelf_third_unity h).1]

theorem rawCoeffs_unity (ty : BandType) : UnityRaw (rawCoeffs ty sw cw one64 q) := by
  obtain ⟨hrange, hsame⟩ := shelf_second_unity h
  have hthird := shelf_third_unity h
  have hdiv := rawCoeffs_a0_within h ty
  cases ty with
  | peaking => exact rawPeaking_unity h
  | lowShelf =>
    simp only [rawCoeffs, rawLowShelf_eq_unity h] at hdiv ⊢
    exact unityRaw_of_sameValue hsame hdiv hrange hthird
  | highShelf =>
    have hrange' : Within (mul64 minusTwo64 (add64 .posZero (mul64 two64 cw))) (-8) 8 :=
      ⟨hsame.2.1, hsame.2.2 ▸ hrange.2.1, hsame.2.2 ▸ hrange.2.2⟩
    simp only [rawCoeffs, rawHighShelf_eq_unity h] at hdiv ⊢
    exact unityRaw_of_sameValue hsame.symm hdiv hrange' hthird
end

/-- Settles O57: a gain of either zero gives the amplitude 1.0, at which numerator and denominator are the same numbers. -/
theorem unityBandsDesignToUnity : Obligations.UnityBandsDesignToUnity := by
  unfold Obligations.UnityBandsDesignToUnity
  intro lm ty band rate hlm hband h1 h2 hgain
  have hamp : amplitude lm band.gain = one64 := by
    rcases hgain with hpos | hneg
    · rw [hpos]; exact amplitude_zero hlm false
    · rw [hneg]; exact amplitude_zero hlm true
  have hrange := designRange_of_band hlm hband h1 h2
  rw [hamp] at hrange
  rw [design, rawDesign, hamp]
  exact (rawCoeffs_unity hrange ty).normalise

end Sys2Proof.Machine

/-! A unity stage passes an impulse (spec 41_process R522), by the values of its products and sums. -/

namespace Sys2Proof.Machine

open Sys2Proof.Safety

/-! ### Sums and products with zeros -/

theorem SameValue.add_zero {a b z : B64} (h : SameValue a b) (hz : SameValue z .posZero) : SameValue (add64 a z) b := by
  obtain ⟨ha, hb, hab⟩ := h
  obtain ⟨hzf, -, hz0⟩ := hz
  exact (add64_isRounding ha hzf).sameValue hb (by rw [hz0, realOf_posZero, hab]; ring)

theorem SameValue.zero_add {a b z : B64} (h : SameValue a b) (hz : SameValue z .posZero) : SameValue (add64 z a) b := by
  obtain ⟨ha, hb, hab⟩ := h
  obtain ⟨hzf, -, hz0⟩ := hz
  exact (add64_isRounding hzf ha).sameValue hb (by rw [hz0, realOf_posZero, hab]; ring)

theorem SameValue.sub_zero {a b z : B64} (h : SameValue a b) (hz : SameValue z .posZero) : SameValue (sub64 a z) b := by
  obtain ⟨ha, hb, hab⟩ := h
  obtain ⟨hzf, -, hz0⟩ := hz
  exact (sub64_isRounding ha hzf).sameValue hb (by rw [hz0, realOf_posZero, hab]; ring)

theorem SameValue.sub_same {a b : B64} (h : SameValue a b) : SameValue (sub64 a b) .posZero := by
  obtain ⟨ha, hb, hab⟩ := h
  exact (sub64_isRounding ha hb).sameValue rfl (by rw [realOf_posZero, hab]; ring)

theorem mul64_posZero {a : B64} (ha : isFinite64 a = true) : SameValue (mul64 a .posZero) .posZero :=
  (mul64_isRounding ha rfl).sameValue rfl (by rw [realOf_posZero]; ring)

/-- The flush sees the number alone: both zeros become +0.0. -/
theorem SameValue.flush {a b : B64} (h : SameValue a b) : flush a = flush b := by
  have hzero {y : B64} (hy : isFinite64 y = true) (h0 : realOf y = 0) : Machine.flush y = .posZero := by
    have hq : ratOf y = 0 := Rat.cast_eq_zero.mp h0
    refine flush_of_small hy ?_
    rw [hq, abs_zero]
    decide +kernel
  rcases h.eq_or_zero with rfl | ⟨ha0, hb0⟩
  · rfl
  · rw [hzero h.1 ha0, hzero h.2.1 hb0]

theorem flush_posZero : flush .posZero = .posZero := by decide +kernel

theorem sameValue_of_eq64 {a b : B64} (ha : isFinite64 a = true) (h : eq64 a b = true) : SameValue a b := by
  obtain ⟨-, hb, hkey⟩ := of_decide_eq_true h
  have hbf := isFinite64_of_key hb ha ha hkey.le hkey.ge
  exact ⟨ha, hbf, (eq64_iff ha hbf).mp h⟩

/-! ### The bounds that keep the products finite -/

theorem abs_lt_thousand {c : B64} (h : lt64 (abs64 c) (ofNat64 1000) = true) : isFinite64 c = true ∧ |realOf c| < 1000 := by
  obtain ⟨hf1000, h1000⟩ := ofNat64_exact (n := 1000) (by norm_num)
  have hf : isFinite64 c = true := by
    cases c with
    | nan => exact absurd h (by decide +kernel)
    | inf neg => exact absurd h (show ¬lt64 (.inf false) (ofNat64 1000) = true by decide +kernel)
    | fin neg mag => rfl
  rw [lt64_iff ((isFinite64_abs64 c).trans hf) hf1000, realOf_abs64, h1000] at h
  exact ⟨hf, by exact_mod_cast h⟩

/-- A binary32 has at most 24 bits, the last of weight at most 2^104. -/
theorem abs_widen_le {x : B32} (h : isFinite64 (widen x) = true) : |realOf (widen x)| ≤ 2 ^ 128 := by
  cases x with
  | nan => cases h
  | inf neg => cases h
  | fin neg mag =>
    obtain ⟨-, hv⟩ := widen_exact neg mag
    have hs : (sigOf fmt32 mag.val : ℝ) ≤ 2 ^ 24 := by exact_mod_cast (sigOf32_lt mag.val).le
    have he : (2 : ℝ) ^ expOf fmt32 mag.val ≤ 2 ^ (104 : ℤ) :=
      zpow_le_zpow_right₀ (by norm_num) (expOf32_range mag.isLt).2
    have habs : |(signed neg (sigOf fmt32 mag.val) : ℝ)| = sigOf fmt32 mag.val := by cases neg <;> simp [signed]
    rw [hv, ratOf32]
    push_cast
    rw [abs_mul, habs, abs_of_pos (two_zpow_pos _)]
    calc (sigOf fmt32 mag.val : ℝ) * 2 ^ expOf fmt32 mag.val ≤ 2 ^ 24 * 2 ^ (104 : ℤ) := by gcongr
      _ = 2 ^ 128 := by norm_num

theorem isFinite64_mul_widen {c : B64} {x : B32} (hc : lt64 (abs64 c) (ofNat64 1000) = true)
    (hx : isFinite64 (widen x) = true) : isFinite64 (mul64 c (widen x)) = true := by
  obtain ⟨hcf, hc⟩ := abs_lt_thousand hc
  refine (mul64_isRounding hcf hx).finite ?_
  calc |realOf c * realOf (widen x)| = |realOf c| * |realOf (widen x)| := abs_mul _ _
    _ ≤ 1000 * 2 ^ 128 := by gcongr; exact abs_widen_le hx
    _ < (2 ^ 54 - 1) * 2 ^ 128 := by norm_num
    _ ≤ (2 ^ 54 - 1) * 2 ^ 970 :=
      mul_le_mul_of_nonneg_left (pow_le_pow_right₀ (by norm_num) (by norm_num)) (by norm_num)
    _ = 2 ^ 1024 - 2 ^ 970 := threshold_eq.symm

/-! ### The stage -/

/-- A stage whose numerator and denominator are the same numbers. -/
structure UnityStage (c : Coeffs) : Prop where
  gain : c.c0 = one64
  first : SameValue c.c1 c.c3
  second : SameValue c.c2 c.c4

section
variable {c : Coeffs} (h : UnityStage c)
include h

/-- From zero state every term but `c0 * x` is zero. -/
theorem stage_zero_of_unity {x : B64} (hx : isFinite64 x = true) :
    stage c ⟨.posZero, .posZero, .posZero, .posZero⟩ x = (flush x, ⟨x, .posZero, flush x, .posZero⟩) := by
  obtain ⟨h0, ⟨hf1, hf3, -⟩, ⟨hf2, hf4, -⟩⟩ := h
  have hsum : SameValue (stageSum c ⟨.posZero, .posZero, .posZero, .posZero⟩ x) x := by
    rw [stageSum, h0, one_mul64 hx]
    exact ((((SameValue.refl hx).add_zero (mul64_posZero hf1)).add_zero (mul64_posZero hf2)).sub_zero
      (mul64_posZero hf3)).sub_zero (mul64_posZero hf4)
  rw [stage, hsum.flush]

theorem unity_gain_posZero : SameValue (mul64 c.c0 .posZero) .posZero :=
  mul64_posZero (h.gain ▸ isFinite64_one64)

/-- A zero input, an input `v` and its output `w` one sample ago: `c1 * v` and `c3 * w` cancel. -/
theorem stage_one_later_of_unity {v w : B64} (hvw : SameValue v w) (hf : isFinite64 (mul64 c.c1 v) = true) :
    stage c ⟨v, .posZero, w, .posZero⟩ .posZero = (.posZero, ⟨.posZero, v, .posZero, w⟩) := by
  have hsum : SameValue (stageSum c ⟨v, .posZero, w, .posZero⟩ .posZero) .posZero :=
    (((((SameValue.refl hf).zero_add (unity_gain_posZero h)).add_zero (mul64_posZero h.second.1)).trans
      (h.first.mul hvw hf)).sub_same).sub_zero (mul64_posZero h.second.2.1)
  rw [stage, hsum.flush, flush_posZero]

/-- A zero input, an input `v` and its output `w` two samples ago: `c2 * v` and `c4 * w` cancel. -/
theorem stage_two_later_of_unity {v w : B64} (hvw : SameValue v w) (hf : isFinite64 (mul64 c.c2 v) = true) :
    stage c ⟨.posZero, v, .posZero, w⟩ .posZero = (.posZero, ⟨.posZero, .posZero, .posZero, .posZero⟩) := by
  have hsum : SameValue (stageSum c ⟨.posZero, v, .posZero, w⟩ .posZero) .posZero :=
    ((((SameValue.refl hf).zero_add ((unity_gain_posZero h).add_zero (mul64_posZero h.first.1))).sub_zero
      (mul64_posZero h.first.2.1)).trans (h.second.mul hvw hf)).sub_same
  rw [stage, hsum.flush, flush_posZero]

/-- After an impulse `v` answered by `w`, every zero input is answered by +0.0. -/
theorem stage_after_impulse {v w : B64} (hvw : SameValue v w) (hf1 : isFinite64 (mul64 c.c1 v) = true)
    (hf2 : isFinite64 (mul64 c.c2 v) = true) (n : Nat) :
    (stage c ((fun st => (stage c st .posZero).2)^[n] ⟨v, .posZero, w, .posZero⟩) .posZero).1 = .posZero := by
  have h1 := stage_one_later_of_unity h hvw hf1
  have h2 := stage_two_later_of_unity h hvw hf2
  have hrest := stage_zero_of_unity h (x := .posZero) rfl
  rw [flush_posZero] at hrest
  match n with
  | 0 => rw [Function.iterate_zero_apply, h1]
  | 1 => rw [Function.iterate_one, h1, h2]
  | n + 2 =>
    rw [Function.iterate_succ_apply, Function.iterate_succ_apply, h1, h2, Function.iterate_fixed (by rw [hrest]), hrest]
end

/-- Settles O58: the terms of the impulse cancel in pairs, one sample and two samples later. -/
theorem unityStagePassesAnImpulse : Obligations.UnityStagePassesAnImpulse := by
  unfold Obligations.UnityStagePassesAnImpulse
  intro c x h0 h13 h24 hc1 hc2 hx hflush
  have hunity : UnityStage c :=
    ⟨h0, sameValue_of_eq64 (abs_lt_thousand hc1).1 h13, sameValue_of_eq64 (abs_lt_thousand hc2).1 h24⟩
  have hvw : SameValue (widen x) (flush (widen x)) := by
    rcases flush_cases hx with hzero | ⟨hsame, -⟩
    · rw [hzero] at hflush ⊢
      exact (sameValue_of_eq64 rfl hflush).symm
    · rw [hsame]
      exact SameValue.refl hx
  rw [stage_zero_of_unity hunity hx]
  exact ⟨rfl, stage_after_impulse hunity hvw (isFinite64_mul_widen hc1 hx) (isFinite64_mul_widen hc2 hx)⟩

end Sys2Proof.Machine
